-- ==== Sys2Proof/Word.lean ====
section
/-!
DEFINITION. The word types of the block: 32-bit registers and bus words (10_state.md section 2, R84),
bytes of the memories (R51 to R56) and the four event bits of IRQ_STATUS and ERR_STATUS (R41, R43).
-/

namespace Sys2Proof

/-- A register or bus word: "All registers are 32 bits wide" (10_state.md section 2). -/
abbrev Word := BitVec 32

/-- A channel value, a gamma entry or a bit-plane byte (R51, R53, R56). -/
abbrev Byte := BitVec 8

/-- The bits [3:0] of IRQ_STATUS, IRQ_ENABLE or ERR_STATUS (R41, R42, R43). -/
abbrev EventMask := BitVec 4

end Sys2Proof
end

