-- ==== Sys2Proof/Config.lean ====
section
/-!
DEFINITION. The configuration of the block (00_scope.md R6 to R9): what a build fixes. It also declares the one
free value the spec leaves open, the command duration CMD_TICKS (P19). A configuration is plain data; State carries it
unchanged (assumption 1), so a claim about every state is a claim about every configuration.
-/

namespace Sys2Proof

/-- An entry of TILE_ORDER: the strip a tile is wired into and its position along that strip (R8). -/
structure TileSlot where
  strip : Nat
  m : Nat
deriving DecidableEq, Repr

/-- The configuration table P1 to P18 of R6. L, WIDTH and HEIGHT (P7 to P9) are "always" functions of the others,
so they are functions below. -/
structure Config where
  /-- P1 NMB_STRIPS, S. -/
  strips : Nat
  /-- P2 MATRIX_W, W. -/
  matrixW : Nat
  /-- P3 MATRIX_H, H. -/
  matrixH : Nat
  /-- P4 MATRICES_PER_STRIP, M. -/
  matricesPerStrip : Nat
  /-- P5 TILE_COLS, TC. -/
  tileCols : Nat
  /-- P6 TILE_ROWS, TR. -/
  tileRows : Nat
  /-- P10 BOTTOM_UP. -/
  bottomUp : Bool
  /-- P11 TILE_ORDER, indexed by the tile number (R8). -/
  tileOrder : List TileSlot
  /-- P12 the exponent γ, here the fraction gammaNum / gammaDen (assumption 2). -/
  gammaNum : Nat
  gammaDen : Nat
  /-- P12 GT, the 256-entry gamma table (R9). -/
  gt : List Byte
  /-- P13 F_CLK in Hz. No rule of the block reads it (R252). -/
  fClk : Nat
  /-- P14 T_BIT in ticks. -/
  tBit : Nat
  /-- P15 T0H in ticks. -/
  t0h : Nat
  /-- P16 T1H in ticks. -/
  t1h : Nat
  /-- P17 RESET_TICKS. -/
  resetTicks : Nat
  /-- P18 BASE, the host address of the 2 MiB window (R80). -/
  base : Nat
deriving DecidableEq, Repr

namespace Config

/-- P7: L is "always M×W×H" (R6). -/
def leds (c : Config) : Nat := c.matricesPerStrip * c.matrixW * c.matrixH

/-- P8: WIDTH is "always TC×W" (R6). -/
def width (c : Config) : Nat := c.tileCols * c.matrixW

/-- P9: HEIGHT is "always TR×H" (R6). -/
def height (c : Config) : Nat := c.tileRows * c.matrixH

/-- The number of pixels of PIX, WIDTH×HEIGHT (R53). -/
def numPix (c : Config) : Nat := c.width * c.height

/-- The number of tiles, TC×TR (R8). -/
def numTiles (c : Config) : Nat := c.tileCols * c.tileRows

/-- N = 24 × L × T_BIT, the ticks of a frame (R257). -/
def frameTicks (c : Config) : Nat := 24 * c.leds * c.tBit

/-- GT[i] (R9, R51). -/
def gtAt (c : Config) (i : Nat) : Byte := c.gt.getD i 0#8

/-- TILE_ORDER[t] (R8). -/
def tileAt (c : Config) (t : Nat) : TileSlot := c.tileOrder.getD t { strip := 0, m := 0 }

/-- The default placement, t ↦ (t div M, t mod M), for n tiles (R8). -/
def defaultTileOrder (m n : Nat) : List TileSlot :=
  (List.range n).map fun t => { strip := t / m, m := t % m }

/-- FREE VALUE (P19, R153): CMD_TICKS − 1 of the n-th execution of CLEAR, PROCESS or ENCODE whose duration the
environment has not already drawn in `State.cmdDraws` (assumption 3). It has no body: nothing can evaluate it. -/
opaque freeCmdTicks : Nat → Nat

/-- The gamma table for γ = 2.8, 95_test_vectors.md V1, sixteen entries a line. -/
def gt28 : List Byte :=
  [0, 0, 0, 0, 0, 0, 0, 0, 0, 0, 0, 0, 0, 0, 0, 0] ++
  [0, 0, 0, 0, 0, 0, 0, 0, 0, 0, 0, 0, 1, 1, 1, 1] ++
  [1, 1, 1, 1, 1, 1, 1, 1, 1, 2, 2, 2, 2, 2, 2, 2] ++
  [2, 3, 3, 3, 3, 3, 3, 3, 4, 4, 4, 4, 4, 5, 5, 5] ++
  [5, 6, 6, 6, 6, 7, 7, 7, 7, 8, 8, 8, 9, 9, 9, 10] ++
  [10, 10, 11, 11, 11, 12, 12, 13, 13, 13, 14, 14, 15, 15, 16, 16] ++
  [17, 17, 18, 18, 19, 19, 20, 20, 21, 21, 22, 22, 23, 24, 24, 25] ++
  [25, 26, 27, 27, 28, 29, 29, 30, 31, 32, 32, 33, 34, 35, 35, 36] ++
  [37, 38, 39, 39, 40, 41, 42, 43, 44, 45, 46, 47, 48, 49, 50, 50] ++
  [51, 52, 54, 55, 56, 57, 58, 59, 60, 61, 62, 63, 64, 66, 67, 68] ++
  [69, 70, 72, 73, 74, 75, 77, 78, 79, 81, 82, 83, 85, 86, 87, 89] ++
  [90, 92, 93, 95, 96, 98, 99, 101, 102, 104, 105, 107, 109, 110, 112, 114] ++
  [115, 117, 119, 120, 122, 124, 126, 127, 129, 131, 133, 135, 137, 138, 140, 142] ++
  [144, 146, 148, 150, 152, 154, 156, 158, 160, 162, 164, 167, 169, 171, 173, 175] ++
  [177, 180, 182, 184, 186, 189, 191, 193, 196, 198, 200, 203, 205, 208, 210, 213] ++
  [215, 218, 220, 223, 225, 228, 231, 233, 236, 239, 241, 244, 247, 249, 252, 255]

/-- R9 at γ = num / den, without real arithmetic: g is 255 × (i/255)^γ rounded to nearest, ties up, exactly when
g − 1/2 ≤ 255 × (i/255)^γ < g + 1/2. Both sides are multiplied by 2 × 255^γ and raised to the power den. -/
def isRounded (num den i g : Nat) : Bool :=
  (2 * g - 1) ^ den * 255 ^ num ≤ 510 ^ den * i ^ num && 510 ^ den * i ^ num < (2 * g + 1) ^ den * 255 ^ num

/-- The test configuration TA of 95_test_vectors.md section 0 (D38), with GT of V1 and the timing given there. BASE and
F_CLK are OPEN in the spec and have the values of assumption 4. -/
def testA : Config where
  strips := 2
  matrixW := 2
  matrixH := 2
  matricesPerStrip := 1
  tileCols := 2
  tileRows := 1
  bottomUp := true
  tileOrder := defaultTileOrder 1 2
  gammaNum := 14
  gammaDen := 5
  gt := gt28
  fClk := 3200000
  tBit := 4
  t0h := 1
  t1h := 2
  resetTicks := 5
  base := 0

end Config

end Sys2Proof
end

