-- ==== Sys2Proof/Syntax.lean ====
section
/-!
DEFINITION. The commands of the block (30_encoding.md R121), one constructor per row of spec/opcode_table.json.
-/

namespace Sys2Proof

/-- A command: "Its "instructions" are the commands a host writes into the block's command register" (R2). -/
inductive Instr where
  /-- OP 0x0 (R155). -/
  | nop
  /-- OP 0x1 (R156). -/
  | clear
  /-- OP 0x2 with the flags G (apply gamma) and D (apply dither) (R171). -/
  | process (g d : Bool)
  /-- OP 0x3 (R210). -/
  | encode
  /-- OP 0x4 (R231). -/
  | submit
deriving DecidableEq, Repr

namespace Instr

/-- Every command there is: PROCESS has four forms, one per value of its flags (R121). -/
def all : List Instr :=
  [.nop, .clear, .process false false, .process true false, .process false true, .process true true, .encode, .submit]

/-- The assembler line of a command (R131). -/
def asm : Instr → String
  | .nop => "NOP"
  | .clear => "CLEAR"
  | .process false false => "PROCESS g=0, d=0"
  | .process true false => "PROCESS g=1, d=0"
  | .process false true => "PROCESS g=0, d=1"
  | .process true true => "PROCESS g=1, d=1"
  | .encode => "ENCODE"
  | .submit => "SUBMIT"

/-- The command a line assembles to, if any (R131). -/
def ofAsm (line : String) : Option Instr := all.find? fun i => i.asm == line

end Instr

end Sys2Proof
end

