-- ==== Sys2Proof/WellFormed.lean ====
section
/-!
DEFINITION. What is well formed: a command word (R123), a command, and a configuration (R7, R8, with the ranges of the
parameter table of R6 and the three properties of GT of R170). A configuration that is not well formed is refused by
the step (R7, R284).
-/

namespace Sys2Proof

/-- R123, first condition: OP ≤ 4. -/
def opOk (w : Word) : Bool := (w.extractLsb' 0 4).toNat ≤ 4

/-- R123, second condition: w[7:4] = 0. -/
def midBitsOk (w : Word) : Bool := w.extractLsb' 4 4 == 0

/-- R123, third condition: w[31:10] = 0. -/
def highBitsOk (w : Word) : Bool := w.extractLsb' 10 22 == 0

/-- R123, fourth condition: OP = 2 or w[9:8] = 0. -/
def flagBitsOk (w : Word) : Bool := w.extractLsb' 0 4 == 2 || w.extractLsb' 8 2 == 0

/-- "the word is well-formed if and only if OP ≤ 4, w[7:4] = 0, w[31:10] = 0, and (OP = 2 or w[9:8] = 0)" (R123). -/
def wordWellFormed (w : Word) : Bool := opOk w && midBitsOk w && highBitsOk w && flagBitsOk w

/-- Every command is well formed: "No command has a register operand, an immediate or an address" (R123), and the
flags of PROCESS take both values. -/
def Instr.wellFormed : Instr → Bool
  | .nop => true
  | .clear => true
  | .process _ _ => true
  | .encode => true
  | .submit => true

namespace Config

/-- R7: 1 ≤ S ≤ 8. -/
def stripsOk (c : Config) : Bool := 1 ≤ c.strips && c.strips ≤ 8

/-- R7: 1 ≤ W, H, M ≤ 255. -/
def tileSizeOk (c : Config) : Bool :=
  1 ≤ c.matrixW && c.matrixW ≤ 255 && 1 ≤ c.matrixH && c.matrixH ≤ 255 &&
    1 ≤ c.matricesPerStrip && c.matricesPerStrip ≤ 255

/-- R7: L ≤ 8192. -/
def ledsOk (c : Config) : Bool := c.leds ≤ 8192

/-- R7: TC ≥ 1, TR ≥ 1 and TC×TR = S×M. -/
def tilesOk (c : Config) : Bool :=
  1 ≤ c.tileCols && 1 ≤ c.tileRows && c.tileCols * c.tileRows == c.strips * c.matricesPerStrip

/-- R7: WIDTH ≤ 65535, HEIGHT ≤ 65535 and WIDTH×HEIGHT ≤ 65536. -/
def sizeOk (c : Config) : Bool := c.width ≤ 65535 && c.height ≤ 65535 && c.numPix ≤ 65536

/-- R7: 1 ≤ T0H < T1H < T_BIT ≤ 65535. -/
def pulsesOk (c : Config) : Bool := 1 ≤ c.t0h && c.t0h < c.t1h && c.t1h < c.tBit && c.tBit ≤ 65535

/-- R7: 1 ≤ RESET_TICKS ≤ 2^32 − 1. -/
def resetTicksOk (c : Config) : Bool := 1 ≤ c.resetTicks && c.resetTicks ≤ 4294967295

/-- R8: TILE_ORDER is a bijection from {0 .. TC×TR−1} onto {0..S−1} × {0..M−1}: TC×TR entries, all inside, no two
equal, and every placement taken. -/
def tileOrderOk (c : Config) : Bool :=
  c.tileOrder.length == c.numTiles &&
    c.tileOrder.all (fun e => decide (e.strip < c.strips) && decide (e.m < c.matricesPerStrip)) &&
    decide c.tileOrder.Nodup &&
    (List.range c.strips).all fun y =>
      (List.range c.matricesPerStrip).all fun m => c.tileOrder.contains { strip := y, m := m }

/-- Each entry is at most the one after it. -/
def risingBytes : List Byte → Bool
  | [] => true
  | [_] => true
  | a :: b :: t => decide (a ≤ b) && risingBytes (b :: t)

/-- P12 and R170: γ > 0; GT has 256 entries, GT[0] = 0, GT[255] = 255 and GT[i] ≤ GT[i+1]. -/
def gammaOk (c : Config) : Bool :=
  1 ≤ c.gammaNum && 1 ≤ c.gammaDen && c.gt.length == 256 && c.gtAt 0 == 0 && c.gtAt 255 == 255 && risingBytes c.gt

/-- P13: F_CLK > 0, and P18: BASE is a multiple of 0x20_0000. -/
def platformOk (c : Config) : Bool := 1 ≤ c.fClk && c.base % 0x200000 == 0

/-- A configuration a block can be built for (R7). -/
def wellFormed (c : Config) : Bool :=
  c.stripsOk && c.tileSizeOk && c.ledsOk && c.tilesOk && c.sizeOk && c.pulsesOk && c.resetTicksOk && c.tileOrderOk &&
    c.gammaOk && c.platformOk

end Config

end Sys2Proof
end

