-- ==== Sys2Proof/Decode.lean ====
section
/-!
DEFINITION. The decoder of command words (R123), total on every word and on every list of bytes, rejecting by name, and
the encoder written from the same tables (R120, R121).
-/

namespace Sys2Proof

/-- Why Decode reports Illegal (R123, R128). -/
inductive DecodeError where
  /-- w[31:10] is not 0. -/
  | highBitsReserved
  /-- w[7:4] is not 0. -/
  | midBitsReserved
  /-- OP is 0x5 to 0xF. -/
  | opReserved
  /-- G or D is set on an OP other than PROCESS. -/
  | flagsReserved
  /-- The bytes are not one 32-bit word (R129: "Every command is exactly one 32-bit word"). -/
  | notOneWord
deriving DecidableEq, Repr

/-- What Decode gives: a command or Illegal (R123), the latter with its reason. -/
inductive Decoded where
  | command (i : Instr)
  | illegal (why : DecodeError)
deriving DecidableEq, Repr

/-- The command, where there is one. -/
def Decoded.toOption : Decoded → Option Instr
  | .command i => some i
  | .illegal _ => none

/-- Commands other than PROCESS need w[9:8] = 0 (R120, R123). -/
def decodePlain (w : Word) (i : Instr) : Decoded :=
  if w.extractLsb' 8 2 = 0 then .command i else .illegal .flagsReserved

/-- `Decode(w)` of R123. -/
def decodeWord (w : Word) : Decoded :=
  if w.extractLsb' 10 22 ≠ 0 then .illegal .highBitsReserved
  else if w.extractLsb' 4 4 ≠ 0 then .illegal .midBitsReserved
  else
    let op := w.extractLsb' 0 4
    if op = 0x0 then decodePlain w .nop
    else if op = 0x1 then decodePlain w .clear
    else if op = 0x2 then .command (.process (w.getLsbD 8) (w.getLsbD 9))
    else if op = 0x3 then decodePlain w .encode
    else if op = 0x4 then decodePlain w .submit
    else .illegal .opReserved

/-- The byte lanes of a word, lane 0 first (R88). -/
def wordBytes (w : Word) : List Byte :=
  [w.extractLsb' 0 8, w.extractLsb' 8 8, w.extractLsb' 16 8, w.extractLsb' 24 8]

/-- The word whose lanes 0 to 3 are a, b, c, d (R88: little-endian). -/
def wordOfBytes (a b c d : Byte) : Word := d ++ c ++ b ++ a

/-- Decode on any bytes: four bytes are one word, anything else is no command (R88, R129). -/
def decodeBytes : List Byte → Decoded
  | [a, b, c, d] => decodeWord (wordOfBytes a b c d)
  | _ => .illegal .notOneWord

/-- The word of a command (R121): OP in [3:0], and for PROCESS G in [8] and D in [9]. -/
def encode : Instr → Word
  | .nop => 0x00000000
  | .clear => 0x00000001
  | .process g d => 0x00000002 ||| ((BitVec.ofBool g).setWidth 32 <<< 8) ||| ((BitVec.ofBool d).setWidth 32 <<< 9)
  | .encode => 0x00000003
  | .submit => 0x00000004

/-- The host's reading of the decoder: the command in a word of the opcode table, whose bit 0 is the word's bit 0. The
word is laid out in its byte lanes and given to `decodeBytes`. -/
def decodeTableWord (nbits w : Nat) : Option Instr :=
  if nbits ≤ 32 ∧ w < 2 ^ nbits then (decodeBytes (wordBytes (BitVec.ofNat 32 w))).toOption else none

end Sys2Proof
end

