-- ==== Sys2Proof/Machine/State.lean ====
section
/-!
DEFINITION. The state of the block (10_state.md), of the host and of the environment that drive it (00_scope.md R10,
10_state.md R63), as plain data, and the state after reset (R311). INVENTORY.md lists every field with its rule.
-/

namespace Sys2Proof.Machine

/-- A memory of the block: the entries that are not 0, by ascending entry index; an entry not listed reads 0, the reset
value of every memory (R53 to R56). Ops.lean holds the operations and the canonical form. -/
abbrev Memory := List Host.Cell

/-- TX_STATE (R60). The encoding 3 "is never entered", so it has no constructor. -/
inductive TxState where
  | idle
  | transmitting
  | resetWait
deriving DecidableEq, Repr

/-- The width of a host access (R84). -/
inductive AccessWidth where
  | byte
  | half
  | word
deriving DecidableEq, Repr

/-- One access of the host on the bus (R80, R84): a byte address, a direction, a width, the byte lanes enabled and the
data of a write. -/
structure BusAccess where
  addr : Nat
  write : Bool
  width : AccessWidth
  lanes : BitVec 4
  data : Word
deriving DecidableEq, Repr

/-- One line of the host's program (R132): an access; a WAIT (one read per tick of offset off until the value masked
equals v); or a tick without an access. -/
inductive HostAction where
  | idle
  | access (a : BusAccess)
  | waitUntil (off : BitVec 21) (mask value : Word)
deriving DecidableEq, Repr

/-- The inputs of one tick that neither the host nor the block gives: `rst` and `dma_retrigger` (R63). -/
structure EnvTick where
  rst : Bool
  retrigger : Bool
deriving DecidableEq, Repr

/-- Why the machine stops with a fault. The block itself has no fault: its errors are recorded (R280). -/
inductive Fault where
  /-- Raised by the transmitter's step (Transmitter.lean) when it must drive the pins from an entry BP[TX_BUF][TX_LED][TX_BIT]
  that does not exist: TX_LED is 0..L−1 and TX_BIT is 0..23 (R61). No run from reset gets there. Safe: the machine stops. -/
  | planeEntryAbsent
deriving DecidableEq, Repr

/-- Why the model gives a step no meaning. -/
inductive Refusal where
  /-- Raised by an arm of exec whose instruction has no meaning yet. Safe. No arm raises it now. -/
  | notModelled (mnemonic : String)
  /-- Raised by the step when the configuration breaks R7: "a model refuses the configuration rather than giving it a
  meaning" (R7, R284). Safe. -/
  | configurationError
deriving DecidableEq, Repr

/-- The state. The fields from `cfg` to `host` are the configuration and the model's own record of the world outside the
block; those from `irqSet` to `readData` are the wires of one tick; the others are the block's state. -/
structure State where
  /-- The configuration: "nothing at run time changes it" (R65). Assumption 1. -/
  cfg : Config
  /-- PIX (R53): entry 3p + c is channel c (R 0, G 1, B 2) of pixel p. -/
  pix : Memory
  /-- ERRS (R54): entry 3p + c is the pending error of channel c of pixel p, 0 or 1. -/
  errs : Memory
  /-- QV (R55): entry 3p + c is the quantized value of channel c of pixel p. -/
  qv : Memory
  /-- BP[0] (R56) as the byte sequence of R127: entry 24×led + k. -/
  bp0 : Memory
  /-- BP[1] (R56). -/
  bp1 : Memory
  /-- SIG (R57). -/
  sig : Bool
  /-- SUBMIT_PENDING (R58). -/
  submitPending : Bool
  /-- FILL (R59): false is 0, true is 1. TX_BUF is "always 1 − FILL". -/
  fill : Bool
  /-- TX_STATE (R60). -/
  txState : TxState
  /-- TX_LED, TX_BIT and TX_PHASE (R61). -/
  txLed : BitVec 16
  txBit : BitVec 5
  txPhase : BitVec 16
  /-- TIMER (R47). -/
  timer : Word
  /-- FRAME_COUNT (R46). -/
  frameCount : Word
  /-- IRQ_STATUS[3:0] (R41): TX_DONE, RESET_DONE, FILLABLE, ERROR. Bits [31:4] read 0. -/
  irqStatus : EventMask
  /-- IRQ_ENABLE[3:0] (R42). Bits [31:4] read 0. -/
  irqEnable : EventMask
  /-- ERR_STATUS[3:0] (R43). Bits [31:4] read 0. -/
  errStatus : EventMask
  /-- ERR_LAST (R44), the whole register. -/
  errLast : Word
  /-- ERR_INFO (R45). -/
  errInfo : Word
  /-- MAP_IN (R49). -/
  mapIn : Word
  /-- The ticks the command stall still lasts after this one (R90, R153). -/
  stall : Nat
  /-- set_irq_mask, clr_irq, set_err_mask and clr_err of the tick in progress (R285); 0 between ticks. -/
  irqSet : EventMask
  irqClr : EventMask
  errSet : EventMask
  errClr : EventMask
  /-- The levels driven on dout in the last tick (R62, R256); bits [7:S] are 0. -/
  dout : Byte
  /-- The word the host read in the last tick, if it read one (R12). -/
  readData : Option Word
  /-- The durations the environment has already drawn, as CMD_TICKS − 1, for the next executions of CLEAR, PROCESS or
  ENCODE, next first (P19, R153). Assumption 3. -/
  cmdDraws : List Nat
  /-- MODEL'S OWN FIELD: how many durations came from the free value `Config.freeCmdTicks`. Assumption 3. -/
  drawCount : Nat
  /-- The environment's inputs of the coming ticks, next first; after the last one both inputs are 0. Assumption 5. -/
  env : List EnvTick
  /-- The host's coming actions, next first; after the last one the host is idle. Assumption 5. -/
  host : List HostAction
deriving DecidableEq, Repr

/-- The state after reset of a block built for configuration c (R311), with nothing yet said about the outside world. -/
def State.resetOf (c : Config) : State where
  cfg := c
  pix := []
  errs := []
  qv := []
  bp0 := []
  bp1 := []
  sig := true
  submitPending := false
  fill := false
  txState := .idle
  txLed := 0
  txBit := 0
  txPhase := 0
  timer := 0
  frameCount := 0
  irqStatus := 0
  irqEnable := 0
  errStatus := 0
  errLast := 0
  errInfo := 0
  mapIn := 0
  stall := 0
  irqSet := 0
  irqClr := 0
  errSet := 0
  errClr := 0
  dout := 0
  readData := none
  cmdDraws := []
  drawCount := 0
  env := []
  host := []

/-- The machine right after reset (R311), built for the spec's test configuration TA (assumption 4). -/
def State.reset : State := State.resetOf Config.testA

end Sys2Proof.Machine
end

