-- ==== Sys2Proof/Machine/Ops.lean ====
section
/-!
DEFINITION. The named operations over the memories and the registers: reading and writing an entry, the canonical form,
the bounded loop of the pseudocode, buffers by index, recording an error (the block's form of taking an exception, R282)
and acknowledging one (R285, R291), and drawing a command's duration (R153).
-/

namespace Sys2Proof.Machine

/-! ### Sequencing -/

/-- Go on with f from a next state; a fault or a refusal ends the step. -/
def andThen (o : Host.Outcome State Fault Refusal) (f : State → Host.Outcome State Fault Refusal) :
    Host.Outcome State Fault Refusal :=
  match o with
  | .next s => f s
  | .fault r => .fault r
  | .refused r => .refused r

/-- `for i in 0 .. n−1: a <- f i a`, in ascending order. -/
def loop {α : Type} : Nat → (Nat → α → α) → α → α
  | 0, _, a => a
  | n + 1, f, a => f n (loop n f a)

/-- The byte whose bit i, i < n, is p i and whose other bits are 0, built by OR as in R212 and R256. -/
def bitsUpTo (n : Nat) (p : Nat → Bool) : Byte :=
  loop n (fun y acc => if p y then acc ||| (1#8 <<< y) else acc) 0#8

/-! ### Memories -/

/-- The entry at index a: the one listed, else the reset value 0. -/
def Memory.read : Memory → Nat → Byte
  | [], _ => 0#8
  | (b, u) :: t, a => if a = b then u else Memory.read t a

/-- Write v at index a, keeping the canonical form: a write of 0 removes the entry. -/
def Memory.write : Memory → Nat → Byte → Memory
  | [], a, v => if v = 0#8 then [] else [(a, v)]
  | (b, u) :: t, a, v =>
    if a < b then (if v = 0#8 then (b, u) :: t else (a, v) :: (b, u) :: t)
    else if a = b then (if v = 0#8 then t else (a, v) :: t)
    else (b, u) :: Memory.write t a v

/-- Every index is above lo, the indexes rise strictly and no listed entry is 0. -/
def Memory.wfAbove : Option Nat → Memory → Bool
  | _, [] => true
  | lo, (a, v) :: t =>
    (match lo with
      | none => true
      | some l => decide (l < a)) && decide (v ≠ 0#8) && Memory.wfAbove (some a) t

/-- The canonical form of a memory: indexes strictly rising, no entry equal to what an unlisted one reads as. -/
def Memory.wf (m : Memory) : Bool := Memory.wfAbove none m

/-- Every listed index is below n: the memory holds nothing at an entry that does not exist. -/
def Memory.below (m : Memory) (n : Nat) : Bool := m.all fun c => decide (c.1 < n)

/-- BP[b] (R56). -/
def State.bp (s : State) (b : Bool) : Memory := if b then s.bp1 else s.bp0

/-- Replace BP[b]. -/
def State.setBp (s : State) (b : Bool) (m : Memory) : State := if b then { s with bp1 := m } else { s with bp0 := m }

/-- TX_BUF = 1 − FILL (R59). -/
def State.txBuf (s : State) : Bool := !s.fill

/-! ### Events, errors and their acknowledgement -/

/-- The four event bits of IRQ_STATUS (R41). -/
inductive IrqBit where
  | txDone
  | resetDone
  | fillable
  | error
deriving DecidableEq, Repr

/-- The mask 1 << b of an IRQ_STATUS bit (R41). -/
def IrqBit.mask : IrqBit → EventMask
  | .txDone => 0b0001
  | .resetDone => 0b0010
  | .fillable => 0b0100
  | .error => 0b1000

/-- `set_irq(b)` (R14): collected in the tick's set mask and applied at the end of the tick (R285). -/
def setIrq (b : IrqBit) (s : State) : State := { s with irqSet := s.irqSet ||| b.mask }

/-- The four errors (R280). -/
inductive ErrCode where
  | illegalCmd
  | encodeRejected
  | submitRejected
  | badAccess
deriving DecidableEq, Repr

/-- The code n of an error, as ERR_LAST holds it (R280). -/
def ErrCode.code : ErrCode → Word
  | .illegalCmd => 0
  | .encodeRejected => 1
  | .submitRejected => 2
  | .badAccess => 3

/-- 1 << n, the ERR_STATUS bit of an error (R43, R282). -/
def ErrCode.mask : ErrCode → EventMask
  | .illegalCmd => 0b0001
  | .encodeRejected => 0b0010
  | .submitRejected => 0b0100
  | .badAccess => 0b1000

/-- `raise E(i)` (R282), the block's whole exception entry: "The block has no trap mechanism: it saves no state, switches
no mode" (R290). It has no effect but the error record (R281). -/
def raiseError (e : ErrCode) (info : Word) (s : State) : State :=
  setIrq .error { s with errSet := s.errSet ||| e.mask, errLast := 0x80000000 ||| e.code, errInfo := info }

/-- A W1C write of IRQ_STATUS with mask v[3:0] (R86, R285), the block's acknowledgement: "There is no return-from-trap
operation" (R291). -/
def clearIrq (v : Word) (s : State) : State := { s with irqClr := v.extractLsb' 0 4 }

/-- A W1C write of ERR_STATUS with mask v[3:0] (R86, R285). -/
def clearErr (v : Word) (s : State) : State := { s with errClr := v.extractLsb' 0 4 }

/-! ### The command stall -/

/-- Draw CMD_TICKS for the command now executed and stall the host for the ticks after this one (R90, R153): the next
duration the environment drew, or else the free value. -/
def beginStall (s : State) : State :=
  match s.cmdDraws with
  | d :: ds => { s with stall := d, cmdDraws := ds }
  | [] => { s with stall := Config.freeCmdTicks s.drawCount, drawCount := s.drawCount + 1 }

end Sys2Proof.Machine
end

