-- ==== Sys2Proof/Machine/Operands.lean ====
section
/-!
DEFINITION. The operand forms: channels and their order (R15), pixel and plane indexes (R16, R127), and the word formats
of the host windows (R122, R124, R125, R127).
-/

namespace Sys2Proof.Machine

/-- The colour channels in logical order (R15). -/
inductive Channel where
  | r
  | g
  | b
deriving DecidableEq, Repr

/-- The place of a channel in the logical order (R, G, B) (R15). -/
def Channel.index : Channel → Nat
  | .r => 0
  | .g => 1
  | .b => 2

/-- The channels in logical order, as the loop of R171 visits them. -/
def Channel.ofIndex : Nat → Channel
  | 0 => .r
  | 1 => .g
  | _ => .b

/-- wire(c): the on-wire order is (G, R, B) (R15). -/
def wire : Nat → Channel
  | 0 => .g
  | 1 => .r
  | _ => .b

/-- The entry of PIX, ERRS and QV that belongs to channel c of pixel p. -/
def chanKey (p : Nat) (c : Channel) : Nat := 3 * p + c.index

/-- The entry of BP[b] that is BP[b][led][k] (R127). -/
def planeKey (led k : Nat) : Nat := 24 * led + k

/-- PIX[p].c (R53). -/
def pixel (s : State) (p : Nat) (c : Channel) : Byte := Memory.read s.pix (chanKey p c)

/-- ERRS[p][c], the one bit (R54). -/
def errBit (s : State) (p : Nat) (c : Channel) : Bool := (Memory.read s.errs (chanKey p c)).getLsbD 0

/-- QV[p][c] (R55). -/
def quantized (s : State) (p : Nat) (c : Channel) : Byte := Memory.read s.qv (chanKey p c)

/-- BP[b][led][k] (R56). -/
def planeByteAt (s : State) (b : Bool) (led k : Nat) : Byte := Memory.read (s.bp b) (planeKey led k)

/-- PIX[p] <- (R = v[23:16], G = v[15:8], B = v[7:0]), v[31:24] ignored (R86, R122). -/
def setPixel (p : Nat) (v : Word) (s : State) : State :=
  { s with
    pix := Memory.write (Memory.write (Memory.write s.pix (chanKey p .r) (v.extractLsb' 16 8))
      (chanKey p .g) (v.extractLsb' 8 8)) (chanKey p .b) (v.extractLsb' 0 8) }

/-- PixelWord (R122): bits [23:16] R, [15:8] G, [7:0] B, [31:24] 0. -/
def pixelWord (s : State) (p : Nat) : Word := 0#8 ++ pixel s p .r ++ pixel s p .g ++ pixel s p .b

/-- DitherWord (R124): bits [31:27] 0, ERRS of R, G, B in [26], [25], [24], QV of R, G, B in [23:0]. -/
def ditherWord (s : State) (p : Nat) : Word :=
  0#5 ++ BitVec.ofBool (errBit s p .r) ++ BitVec.ofBool (errBit s p .g) ++ BitVec.ofBool (errBit s p .b) ++
    quantized s p .r ++ quantized s p .g ++ quantized s p .b

/-- TileWord (R125): bits [18:16] strip, [15:0] m, [31:19] 0. -/
def tileWord (c : Config) (t : Nat) : Word :=
  0#13 ++ BitVec.ofNat 3 (c.tileAt t).strip ++ BitVec.ofNat 16 (c.tileAt t).m

/-- PlaneWord (R127): word j of BP[b], plane k0 = 4 × (j mod 6) of LED j div 6 in lane 0. -/
def planeWord (s : State) (b : Bool) (j : Nat) : Word :=
  let led := j / 6
  let k0 := 4 * (j % 6)
  planeByteAt s b led (k0 + 3) ++ planeByteAt s b led (k0 + 2) ++ planeByteAt s b led (k0 + 1) ++ planeByteAt s b led k0

/-- BPbytes[b] (R127): the byte sequence of buffer b, 24×L bytes. -/
def planeBytes (s : State) (b : Bool) : List Byte := (List.range (24 * s.cfg.leds)).map fun a => Memory.read (s.bp b) a

end Sys2Proof.Machine
end

