-- ==== Sys2Proof/Machine/Flags.lean ====
section
/-!
DEFINITION. The status computations: STATUS (R40), TX_POS (R48), the end-of-tick update of IRQ_STATUS and ERR_STATUS
(R285) and the irq line (R286). The block has no condition codes (R30).
-/

namespace Sys2Proof.Machine

/-- TX_STATE as its two bits (R60). -/
def TxState.code : TxState → BitVec 2
  | .idle => 0
  | .transmitting => 1
  | .resetWait => 2

/-- STATUS (R40): [0] SIG, [1] SUBMIT_PENDING, [2] FILL, [3] TX_BUF, [5:4] TX_STATE, [31:6] 0. -/
def statusWord (s : State) : Word :=
  0#26 ++ s.txState.code ++ BitVec.ofBool s.txBuf ++ BitVec.ofBool s.fill ++ BitVec.ofBool s.submitPending ++
    BitVec.ofBool s.sig

/-- TX_POS (R48): [15:0] TX_LED, [20:16] TX_BIT while TRANSMITTING; the whole register reads 0 otherwise. -/
def txPosWord (s : State) : Word :=
  match s.txState with
  | .transmitting => 0#11 ++ s.txBit ++ s.txLed
  | .idle => 0
  | .resetWait => 0

/-- (status & ~clr) | set: "A bit set and cleared in the same tick ends set" (R285). -/
def updateEvents (status clr set : EventMask) : EventMask := (status &&& ~~~clr) ||| set

/-- The updates at the end of a tick (R285). -/
def endTick (s : State) : State :=
  { s with
    irqStatus := updateEvents s.irqStatus s.irqClr s.irqSet
    errStatus := updateEvents s.errStatus s.errClr s.errSet
    irqSet := 0
    irqClr := 0
    errSet := 0
    errClr := 0 }

/-- The irq line: "irq = 1 if and only if (IRQ_STATUS[3:0] & IRQ_ENABLE[3:0]) ≠ 0" (R286), of the values after a tick. -/
def State.irq (s : State) : Bool := s.irqStatus &&& s.irqEnable != 0

end Sys2Proof.Machine
end

