-- ==== Sys2Proof/Machine/Layout.lean ====
section
/-!
DEFINITION. serpentine_layout_mapper (42_serpentine_layout_mapper.md): Map (R190), its inverse Unmap (R193) and the
MAP_IN / MAP_OUT lookup (R195). "Map and Unmap depend only on the configuration" (R196).
-/

namespace Sys2Proof.Machine

/-- A physical position: a strip and an LED along it (R190). -/
structure Phys where
  strip : Nat
  led : Nat
deriving DecidableEq, Repr

/-- A logical position: a column and a row of the pixel buffer (R16). -/
structure Coord where
  x : Nat
  y : Nat
deriving DecidableEq, Repr

/-- The row flip between logical and physical rows of a tile (R192); it is its own inverse on 0..H−1. -/
def flipRow (c : Config) (r : Nat) : Nat := if c.bottomUp then c.matrixH - 1 - r else r

/-- The serpentine column flip of physical row pr (R191); it is its own inverse on 0..W−1. -/
def flipCol (c : Config) (pr x : Nat) : Nat := if pr % 2 = 0 then x else c.matrixW - 1 - x

/-- `Map(x, y)` (R190). -/
def mapPixel (c : Config) (x y : Nat) : Phys :=
  let tc := x / c.matrixW
  let lx := x % c.matrixW
  let tr := y / c.matrixH
  let ly := y % c.matrixH
  let slot := c.tileAt (tr * c.tileCols + tc)
  let pr := flipRow c ly
  let pc := flipCol c pr lx
  { strip := slot.strip, led := slot.m * (c.matrixW * c.matrixH) + pr * c.matrixW + pc }

/-- TILE_ORDER⁻¹(strip, m) (R193). -/
def tileOf (c : Config) (strip m : Nat) : Nat := c.tileOrder.idxOf { strip := strip, m := m }

/-- `Unmap(strip, led)` (R193). -/
def unmapLed (c : Config) (strip led : Nat) : Coord :=
  let m := led / (c.matrixW * c.matrixH)
  let r := led % (c.matrixW * c.matrixH)
  let pr := r / c.matrixW
  let pc := r % c.matrixW
  let lx := flipCol c pr pc
  let ly := flipRow c pr
  let t := tileOf c strip m
  { x := t % c.tileCols * c.matrixW + lx, y := t / c.tileCols * c.matrixH + ly }

/-- MAP_OUT (R195), a combinational function of MAP_IN and the configuration. -/
def mapOut (c : Config) (mapIn : Word) : Word :=
  let x := (mapIn.extractLsb' 0 16).toNat
  let y := (mapIn.extractLsb' 16 16).toNat
  if x < c.width ∧ y < c.height then
    let p := mapPixel c x y
    1#1 ++ 0#12 ++ BitVec.ofNat 3 p.strip ++ BitVec.ofNat 16 p.led
  else 0

end Sys2Proof.Machine
end

