-- ==== Sys2Proof/Machine/Bitplane.lean ====
section
/-!
DEFINITION. bitplane_transposer unit (43_bitplane_transposer.md): StripColor (R211), PlaneByte (R212), ENCODE (R210,
R216), and the shift-and-accumulate formulation of the same encoder (R213).
-/

namespace Sys2Proof.Machine

/-- `StripColor(y, led)[i]` (R211): channel wire(i) of the pixel wired to LED led of strip y. -/
def stripColor (s : State) (y led i : Nat) : Byte :=
  let xy := unmapLed s.cfg y led
  pixel s (xy.y * s.cfg.width + xy.x) (wire i)

/-- The bit test of R212: bit 7 − (k mod 8) of on-wire channel k div 8 of strip y's LED led. -/
def planeBit (s : State) (led k y : Nat) : Bool := (stripColor s y led (k / 8)).getLsbD (7 - k % 8)

/-- `PlaneByte(led, k)` (R212): one bit per strip. -/
def planeByte (s : State) (led k : Nat) : Byte := bitsUpTo s.cfg.strips (planeBit s led k)

/-- The fresh contents of BP[FILL] (R210): every byte is written. -/
def encodePlanes (s : State) : Memory :=
  loop s.cfg.leds (fun led => loop 24 fun k m => Memory.write m (planeKey led k) (planeByte s led k)) (s.bp s.fill)

/-- ENCODE (R210); rejected while SUBMIT_PENDING = 1, with no effect but the error record (R216). -/
def execEncode (s : State) : Host.Outcome State Fault Refusal :=
  if s.submitPending then .next (raiseError .encodeRejected (encode .encode) s)
  else .next (beginStall (s.setBp s.fill (encodePlanes s)))

/-! ### The second formulation (R213) -/

/-- The 24-bit word of a strip's LED, G in [23:16] (R213). -/
def stripWord (s : State) (y led : Nat) : BitVec 24 :=
  stripColor s y led 0 ++ stripColor s y led 1 ++ stripColor s y led 2

/-- ((word >> (23 − k)) & 1) << y as a byte (R213). -/
def planeTerm (s : State) (led k y : Nat) : Byte := (((stripWord s y led >>> (23 - k)) &&& 1#24).setWidth 8) <<< y

/-- One LED of `EncodeFast` (R213): its 24 bytes to 0, then every strip ORed in. -/
def encodeFastLed (s : State) (led : Nat) (m : Memory) : Memory :=
  loop s.cfg.strips
    (fun y => loop 24 fun k n => Memory.write n (planeKey led k) (Memory.read n (planeKey led k) ||| planeTerm s led k y))
    (loop 24 (fun k n => Memory.write n (planeKey led k) 0#8) m)

/-- `EncodeFast(FILL)` (R213). -/
def encodePlanesFast (s : State) : Memory := loop s.cfg.leds (encodeFastLed s) (s.bp s.fill)

end Sys2Proof.Machine
end

