-- ==== Sys2Proof/Machine/Command.lean ====
section
/-!
DEFINITION. NOP and CLEAR (40_command_interface.md R155, R156). Neither has an error in any state (R152).
-/

namespace Sys2Proof.Machine

/-- NOP: `skip` (R155). -/
def execNop (s : State) : Host.Outcome State Fault Refusal := .next s

/-- One pixel of CLEAR: PIX[p] <- (0, 0, 0) (R156). -/
def clearPixel (p : Nat) (m : Memory) : Memory :=
  Memory.write (Memory.write (Memory.write m (chanKey p .r) 0#8) (chanKey p .g) 0#8) (chanKey p .b) 0#8

/-- CLEAR: every pixel to black, then the host's stall (R156, R153). -/
def execClear (s : State) : Host.Outcome State Fault Refusal :=
  .next (beginStall { s with pix := loop s.cfg.numPix clearPixel s.pix })

end Sys2Proof.Machine
end

