-- ==== Sys2Proof/Machine/GammaDither.lean ====
section
/-!
DEFINITION. gamma_dither_engine (41_gamma_dither_engine.md): the gamma step (R174), the dither step (R172, R173) and
PROCESS (R171), which has no error in any state (R152).
-/

namespace Sys2Proof.Machine

/-- `GammaStep(v) = GT[v]` (R174). -/
def gammaStep (c : Config) (v : Byte) : Byte := c.gtAt v.toNat

/-- What the dither step gives for one channel: the channel's output, the new error e' and the quantized value q. -/
structure Dithered where
  out : Byte
  err : Bool
  q : Byte
deriving DecidableEq, Repr

/-- `DitherOut(q) = min(q << 1, 255)` (R173), for q in 0..128. -/
def ditherOut (q : Nat) : Nat := min (2 * q) 255

/-- `DitherStep` of one channel value v with pending error e (R172), computed exactly and narrowed at the end. -/
def ditherStep (v : Byte) (e : Bool) : Dithered :=
  let s := v.toNat + e.toNat
  let q := s / 2
  let e' := s - 2 * q
  { out := BitVec.ofNat 8 (ditherOut q), err := e' == 1, q := BitVec.ofNat 8 q }

/-- A stored error bit (R54). -/
def errByte (e : Bool) : Byte := if e then 1#8 else 0#8

/-- The memories PROCESS works on. -/
structure ColorMem where
  pix : Memory
  errs : Memory
  qv : Memory
deriving DecidableEq, Repr

/-- The body of the loop of R171 for entry a: the gamma step if G, then the dither step if D. -/
def processEntry (c : Config) (g d : Bool) (a : Nat) (m : ColorMem) : ColorMem :=
  let raw := Memory.read m.pix a
  let v := if g then gammaStep c raw else raw
  if d then
    let r := ditherStep v ((Memory.read m.errs a).getLsbD 0)
    { pix := Memory.write m.pix a r.out, errs := Memory.write m.errs a (errByte r.err), qv := Memory.write m.qv a r.q }
  else { m with pix := Memory.write m.pix a v }

/-- The channels of one pixel, in the order R, G, B (R171). -/
def processPixel (c : Config) (g d : Bool) (p : Nat) (m : ColorMem) : ColorMem :=
  loop 3 (fun i => processEntry c g d (chanKey p (Channel.ofIndex i))) m

/-- The pixel buffer and the dither state after PROCESS (R171): every pixel in raster order. -/
def processAll (c : Config) (g d : Bool) (m : ColorMem) : ColorMem := loop c.numPix (processPixel c g d) m

/-- PROCESS with flags G and D (R171), then the host's stall (R153). -/
def execProcess (g d : Bool) (s : State) : Host.Outcome State Fault Refusal :=
  let m := processAll s.cfg g d { pix := s.pix, errs := s.errs, qv := s.qv }
  .next (beginStall { s with pix := m.pix, errs := m.errs, qv := m.qv })

end Sys2Proof.Machine
end

