-- ==== Sys2Proof/Machine/Scheduler.lean ====
section
/-!
DEFINITION. frame_double_buffer_scheduler (44_frame_double_buffer_scheduler.md): Accept (R233) and SUBMIT (R231, R232).
-/

namespace Sys2Proof.Machine

/-- `Accept()` (R233), "the one procedure that starts a frame". -/
def accept (s : State) : State :=
  setIrq .fillable
    { s with
      sig := false
      fill := !s.fill
      txState := .transmitting
      txLed := 0
      txBit := 0
      txPhase := 0
      frameCount := s.frameCount + 1 }

/-- SUBMIT (R231): accepted at once when SIG = 1, else pending (R232); rejected while one is pending already (R152). -/
def execSubmit (s : State) : Host.Outcome State Fault Refusal :=
  if s.submitPending then .next (raiseError .submitRejected (encode .submit) s)
  else if s.sig then .next (accept s)
  else .next { s with submitPending := true }

end Sys2Proof.Machine
end

