-- ==== Sys2Proof/Machine/Dispatch.lean ====
section
/-!
DEFINITION. exec: one arm per command, each a direct call of its meaning. Each meaning makes the acceptance check of R152
and then executes (R150).
-/

namespace Sys2Proof.Machine

/-- The effect of a well-formed command on the state (R150): rejected or executed. -/
def exec (i : Instr) (s : State) : Host.Outcome State Fault Refusal :=
  match i with
  | .nop => Sys2Proof.Machine.execNop s
  | .clear => Sys2Proof.Machine.execClear s
  | .process g d => Sys2Proof.Machine.execProcess g d s
  | .encode => Sys2Proof.Machine.execEncode s
  | .submit => Sys2Proof.Machine.execSubmit s

end Sys2Proof.Machine
end

