-- ==== Sys2Proof/Machine/HostPort.lean ====
section
/-!
DEFINITION. The host port (20_memory.md): the address map (R80, R81), the two access primitives MemRead and MemWrite
(R85, R86) over the register map (10_state.md), the legality of an access (R84), and issuing a command (R150).
-/

namespace Sys2Proof.Machine

/-! ### The register map -/

/-- The 20 registers (10_state.md section 2). -/
inductive Reg where
  | id
  | cfg0
  | cfg1
  | cfg2
  | cfg3
  | tcfg0
  | tcfg1
  | tcfg2
  | cmd
  | status
  | irqStatus
  | irqEnable
  | errStatus
  | errLast
  | errInfo
  | frameCount
  | timer
  | txPos
  | mapIn
  | mapOut
deriving DecidableEq, Repr

/-- The registers in the order of their offsets: entry j is at offset 4j (10_state.md section 2, R81). -/
def regMap : List Reg :=
  [.id, .cfg0, .cfg1, .cfg2, .cfg3, .tcfg0, .tcfg1, .tcfg2, .cmd, .status, .irqStatus, .irqEnable, .errStatus, .errLast,
    .errInfo, .frameCount, .timer, .txPos, .mapIn, .mapOut]

/-- The value a read of a register gives (R31 to R50). -/
def readReg (s : State) : Reg → Word
  | .id => 0x55504E47
  | .cfg0 =>
    BitVec.ofNat 8 s.cfg.matricesPerStrip ++ BitVec.ofNat 8 s.cfg.matrixH ++ BitVec.ofNat 8 s.cfg.matrixW ++ 0#3 ++
      BitVec.ofBool s.cfg.bottomUp ++ BitVec.ofNat 4 s.cfg.strips
  | .cfg1 => BitVec.ofNat 16 s.cfg.tileRows ++ BitVec.ofNat 16 s.cfg.tileCols
  | .cfg2 => BitVec.ofNat 16 s.cfg.height ++ BitVec.ofNat 16 s.cfg.width
  | .cfg3 => 0#16 ++ BitVec.ofNat 16 s.cfg.leds
  | .tcfg0 => 0#16 ++ BitVec.ofNat 16 s.cfg.tBit
  | .tcfg1 => BitVec.ofNat 16 s.cfg.t1h ++ BitVec.ofNat 16 s.cfg.t0h
  | .tcfg2 => BitVec.ofNat 32 s.cfg.resetTicks
  | .cmd => 0
  | .status => statusWord s
  | .irqStatus => 0#28 ++ s.irqStatus
  | .irqEnable => 0#28 ++ s.irqEnable
  | .errStatus => 0#28 ++ s.errStatus
  | .errLast => s.errLast
  | .errInfo => s.errInfo
  | .frameCount => s.frameCount
  | .timer => s.timer
  | .txPos => txPosWord s
  | .mapIn => s.mapIn
  | .mapOut => mapOut s.cfg s.mapIn

/-! ### The address map -/

/-- The regions of the window (R81). -/
inductive Region where
  | registers
  | gamma
  | tileMap
  | pix
  | dither
  | bp0
  | bp1
  | reserved
deriving DecidableEq, Repr

/-- A row of the address map: the first and the last byte offset of a region. -/
structure RegionRow where
  start : Nat
  stop : Nat
  region : Region
deriving DecidableEq, Repr

/-- The address map (R81). -/
def regionMap : List RegionRow :=
  [{ start := 0x000000, stop := 0x00004F, region := .registers },
    { start := 0x000050, stop := 0x0003FF, region := .reserved },
    { start := 0x000400, stop := 0x0007FF, region := .gamma },
    { start := 0x000800, stop := 0x0027FF, region := .tileMap },
    { start := 0x002800, stop := 0x03FFFF, region := .reserved },
    { start := 0x040000, stop := 0x07FFFF, region := .pix },
    { start := 0x080000, stop := 0x0BFFFF, region := .dither },
    { start := 0x0C0000, stop := 0x0FFFFF, region := .reserved },
    { start := 0x100000, stop := 0x13FFFF, region := .bp0 },
    { start := 0x140000, stop := 0x17FFFF, region := .bp1 },
    { start := 0x180000, stop := 0x1FFFFF, region := .reserved }]

/-- The number of valid entries of a region (R81). -/
def validEntries (c : Config) : Region → Nat
  | .registers => 20
  | .gamma => 256
  | .tileMap => c.numTiles
  | .pix => c.numPix
  | .dither => c.numPix
  | .bp0 => 6 * c.leds
  | .bp1 => 6 * c.leds
  | .reserved => 0

/-- What a word of the window is. -/
inductive Entry where
  | reg (r : Reg)
  | gamma (j : Nat)
  | tile (j : Nat)
  | pix (p : Nat)
  | dither (p : Nat)
  | plane (b : Bool) (j : Nat)
deriving DecidableEq, Repr

/-- Entry j of a region, the registers by the register map. -/
def entryOf (j : Nat) : Region → Option Entry
  | .registers => (regMap[j]?).map .reg
  | .gamma => some (.gamma j)
  | .tileMap => some (.tile j)
  | .pix => some (.pix j)
  | .dither => some (.dither j)
  | .bp0 => some (.plane false j)
  | .bp1 => some (.plane true j)
  | .reserved => none

/-- The entry at a byte offset (R81): entry (off − start) div 4 of its region where that is valid; none where the word is
unmapped. -/
def locate (c : Config) (off : Nat) : Option Entry :=
  match regionMap.find? fun row => decide (row.start ≤ off) && decide (off ≤ row.stop) with
  | none => none
  | some row =>
    let j := (off - row.start) / 4
    if j < validEntries c row.region then entryOf j row.region else none

/-! ### MemRead and MemWrite -/

/-- The value of a mapped word (R85). -/
def readEntry (s : State) : Entry → Word
  | .reg r => readReg s r
  | .gamma j => (s.cfg.gtAt j).setWidth 32
  | .tile j => tileWord s.cfg j
  | .pix p => pixelWord s p
  | .dither p => ditherWord s p
  | .plane b j => planeWord s b j

/-- ERR_INFO of a bad access: zext_32(off[20:0]), with bit 31 set for a write (R84, R280). -/
def accessInfo (write : Bool) (off : BitVec 21) : Word := BitVec.ofBool write ++ 0#10 ++ off

/-- A bad access: a read returns 0, a write changes nothing, and BadAccess is recorded (R84, R281). -/
def badAccess (write : Bool) (off : BitVec 21) (s : State) : State :=
  raiseError .badAccess (accessInfo write off) (if write then s else { s with readData := some 0 })

/-- `MemRead(off, 4)` of a legal access (R85). -/
def memRead (off : BitVec 21) (s : State) : State :=
  match locate s.cfg off.toNat with
  | some e => { s with readData := some (readEntry s e) }
  | none => badAccess false off s

/-- `IssueCommand(w)` (R150): an illegal word is recorded and does nothing else (R128). -/
def issueCommand (w : Word) (s : State) : Host.Outcome State Fault Refusal :=
  match decodeWord w with
  | .command i => exec i s
  | .illegal _ => .next (raiseError .illegalCmd w s)

/-- `MemWrite(off, 4, v)` of a legal access (R86). -/
def memWrite (off : BitVec 21) (v : Word) (s : State) : Host.Outcome State Fault Refusal :=
  match locate s.cfg off.toNat with
  | some (.reg .cmd) => issueCommand v s
  | some (.reg .irqStatus) => .next (clearIrq v s)
  | some (.reg .irqEnable) => .next { s with irqEnable := v.extractLsb' 0 4 }
  | some (.reg .errStatus) => .next (clearErr v s)
  | some (.reg .mapIn) => .next { s with mapIn := v }
  | some (.pix p) => .next (setPixel p v s)
  | _ => .next (badAccess true off s)

/-- One byte of the window: lane off mod 4 of the word that holds it (R88), 0 where the word is unmapped. The host itself
reads whole words only (R84); this is the model's view of one byte. -/
def windowByte (s : State) (off : Nat) : Byte :=
  match locate s.cfg off with
  | some e => (readEntry s e).extractLsb' (8 * (off % 4)) 8
  | none => 0

/-! ### An access on the bus -/

/-- "The only legal access is a 32-bit access at an offset that is a multiple of 4, with all four byte lanes enabled"
(R84). -/
def BusAccess.legal (a : BusAccess) : Bool := a.width == .word && a.addr % 4 == 0 && a.lanes == 0xF

/-- The byte offset of an address in the block's window, BASE to BASE + 0x1F_FFFF (R80); none outside it. -/
def offsetOf (c : Config) (addr : Nat) : Option (BitVec 21) :=
  if c.base ≤ addr ∧ addr < c.base + 0x200000 then some (BitVec.ofNat 21 (addr - c.base)) else none

/-- A host access (R84 to R86), its checks in the order of R283. An address outside the window is "the platform's and not
the block's" (R82): the block does nothing. -/
def hostAccess (a : BusAccess) (s : State) : Host.Outcome State Fault Refusal :=
  match offsetOf s.cfg a.addr with
  | none => .next s
  | some off =>
    if a.legal then (if a.write then memWrite off a.data s else .next (memRead off s))
    else .next (badAccess a.write off s)

/-- A legal 32-bit read. -/
def readAccess (addr : Nat) : BusAccess := { addr := addr, write := false, width := .word, lanes := 0xF, data := 0 }

/-- A legal 32-bit write. -/
def writeAccess (addr : Nat) (v : Word) : BusAccess := { addr := addr, write := true, width := .word, lanes := 0xF, data := v }

/-- The address of CMD (R39). -/
def cmdAddr (c : Config) : Nat := c.base + 0x020

end Sys2Proof.Machine
end

