-- ==== Sys2Proof/Machine/Transmitter.lean ====
section
/-!
DEFINITION. dma_protocol_timer (45_dma_protocol_timer.md): the pins (R256), the position (R255), DMA completion (R258),
the reset timer (R259, R260), the re-trigger (R262), and the transmitter's phase of a tick (R270).
-/

namespace Sys2Proof.Machine

/-- The high time of a slot whose bit is b (R251, R256). -/
def highTicks (c : Config) (b : Bool) : Nat := if b then c.t1h else c.t0h

/-- `DrivePins()` (R256), of the state at the start of the tick. -/
def drivePins (s : State) : Byte :=
  let p := planeByteAt s s.txBuf s.txLed.toNat s.txBit.toNat
  bitsUpTo s.cfg.strips fun y => decide (s.txPhase.toNat < highTicks s.cfg (p.getLsbD y))

/-- `DmaComplete()` (R258). -/
def dmaComplete (s : State) : State :=
  setIrq .txDone
    { s with
      txState := .resetWait
      timer := BitVec.ofNat 32 s.cfg.resetTicks
      txLed := 0
      txBit := 0
      txPhase := 0 }

/-- The advance of the position in `TransmitStep()` (R255). -/
def advance (s : State) : State :=
  if s.txPhase.toNat < s.cfg.tBit - 1 then { s with txPhase := s.txPhase + 1 }
  else if s.txBit.toNat < 23 then { s with txPhase := 0, txBit := s.txBit + 1 }
  else if s.txLed.toNat < s.cfg.leds - 1 then { s with txPhase := 0, txBit := 0, txLed := s.txLed + 1 }
  else dmaComplete s

/-- The position names a byte of the frame: TX_LED is 0..L−1 and TX_BIT is 0..23 (R61). -/
def State.positionOk (s : State) : Bool := decide (s.txLed.toNat < s.cfg.leds) && decide (s.txBit.toNat ≤ 23)

/-- `TransmitStep()` (R255): drive the pins for this tick, then advance. -/
def transmitStep (s : State) : Host.Outcome State Fault Refusal :=
  if s.positionOk then .next (advance { s with dout := drivePins s }) else .fault .planeEntryAbsent

/-- `TimerExpire()` (R260). -/
def timerExpire (s : State) : State :=
  let s1 := setIrq .resetDone { s with txState := .idle, sig := true }
  if s1.submitPending then accept { s1 with submitPending := false } else s1

/-- `Retrigger()` (R262). -/
def retrigger (s : State) : State := setIrq .txDone { s with timer := BitVec.ofNat 32 s.cfg.resetTicks }

/-- A RESET_WAIT tick without a re-trigger (R259): decrement, and expire when the new TIMER is 0. -/
def timerStep (s : State) : State :=
  let s1 := { s with timer := s.timer - 1 }
  if s1.timer = 0 then timerExpire s1 else s1

/-- Phase 1 of a tick (R270): the transmitter and the timer, with the input dma_retrigger, which is ignored outside
RESET_WAIT (R262). -/
def transmitPhase (retrig : Bool) (s : State) : Host.Outcome State Fault Refusal :=
  match s.txState with
  | .idle => .next { s with dout := 0 }
  | .transmitting => transmitStep s
  | .resetWait =>
    let s1 := { s with dout := 0 }
    .next (if retrig then retrigger s1 else timerStep s1)

end Sys2Proof.Machine
end

