-- ==== Sys2Proof/Machine/Tick.lean ====
section
/-!
DEFINITION. One tick (45_dma_protocol_timer.md R270): the environment's inputs, the transmitter's phase, the host's phase
and the end-of-tick updates; a tick with rst = 1 (R310); and what an observer sees of a tick (R12, R268).
-/

namespace Sys2Proof.Machine

/-- The environment's inputs of this tick (R63). -/
def State.envNow (s : State) : EnvTick := s.env.headD { rst := false, retrigger := false }

/-- The state in which a tick starts: the inputs of the tick taken, no word read yet. -/
def beginTick (s : State) : State := { s with env := s.env.tail, readData := none }

/-- One read of a WAIT (R132): it is done when (value & mask) = v, else it is repeated in the next tick. -/
def hostWaitStep (off : BitVec 21) (mask value : Word) (rest : List HostAction) (s : State) :
    Host.Outcome State Fault Refusal :=
  andThen (hostAccess (readAccess (s.cfg.base + off.toNat)) s) fun s1 =>
    if (s1.readData.getD 0) &&& mask = value then .next { s1 with host := rest } else .next s1

/-- Phase 2 of a tick (R270). While a command stalls the host it "issues no other access" (R90); otherwise its next
action is performed, on the state phase 1 left. -/
def hostPhase (s : State) : Host.Outcome State Fault Refusal :=
  if s.stall ≠ 0 then .next { s with stall := s.stall - 1 }
  else
    match s.host with
    | [] => .next s
    | .idle :: rest => .next { s with host := rest }
    | .access a :: rest => hostAccess a { s with host := rest }
    | .waitUntil off mask value :: rest => hostWaitStep off mask value rest s

/-- Whether a host action reads a word of the block's window. -/
def HostAction.reads (c : Config) : HostAction → Bool
  | .idle => false
  | .access a => !a.write && (offsetOf c a.addr).isSome
  | .waitUntil _ _ _ => true

/-- What the host keeps of its program over a tick with rst = 1: a stall ends, and an access of that tick is gone
(R310); a WAIT whose read returned 0 goes on until its value comes. -/
def hostAfterReset (s : State) : List HostAction :=
  if s.stall ≠ 0 then s.host
  else
    match s.host with
    | .waitUntil off mask value :: rest => if 0#32 &&& mask = value then rest else .waitUntil off mask value :: rest
    | _ => s.host.tail

/-- The word a read in a tick with rst = 1 returns: 0 (R310). -/
def readInReset (s : State) : Option Word :=
  if s.stall ≠ 0 then none
  else
    match s.host with
    | [] => none
    | a :: _ => if a.reads s.cfg then some 0 else none

/-- A tick with rst = 1 (R310): every state element takes its reset value, no transmitter step is made and a host access
of the tick is ignored. The configuration and the outside world are not the block's state. -/
def resetTick (s : State) : State :=
  { State.resetOf s.cfg with
    readData := readInReset s
    host := hostAfterReset s
    env := s.env
    cmdDraws := s.cmdDraws
    drawCount := s.drawCount }

/-- One tick of a block that exists (R270, R310). -/
def tick (s : State) : Host.Outcome State Fault Refusal :=
  if s.envNow.rst then .next (resetTick (beginTick s))
  else
    andThen (transmitPhase s.envNow.retrigger (beginTick s)) fun s1 =>
      andThen (hostPhase s1) fun s2 => .next (endTick s2)

/-! ### What is observed -/

/-- What an observer sees of one tick (R12): the pin levels, irq and the word the host reads. -/
structure Observation where
  dout : Byte
  irq : Bool
  readData : Option Word
deriving DecidableEq, Repr

/-- The observation of the tick that led to s (R12). -/
def State.observe (s : State) : Observation := { dout := s.dout, irq := s.irq, readData := s.readData }

/-- The frame accepted in the tick from `before` to `after`, if one was (R268): FRAME_COUNT, incremented "at each accept
and at no other time" (R46), and the bytes of BP[TX_BUF]. A tick with rst = 1 accepts none. -/
def acceptedFrame (before after : State) : Option (Word × List Byte) :=
  if before.envNow.rst then none
  else if after.frameCount = before.frameCount + 1 then some (after.frameCount, planeBytes after after.txBuf)
  else none

end Sys2Proof.Machine
end

