-- ==== Sys2Proof/Machine/Step.lean ====
section
/-!
DEFINITION. The step: one tick of the block (R11: "every state change of the block happens at a tick"), and the host's
placing of a command word.
-/

namespace Sys2Proof.Machine

/-- One tick; a configuration that breaks R7 is refused (R7, R284). -/
def step (s : State) : Host.Outcome State Fault Refusal :=
  if s.cfg.wellFormed then tick s else .refused .configurationError

/-- s with the word w of nbits bits as the host's next write to CMD, so that the next step issues it: no stall in
progress and no rst in the next tick (assumption 6). -/
def State.withFetchWord (s : State) (nbits w : Nat) : State :=
  { s with
    stall := 0
    env := { s.envNow with rst := false } :: s.env.tail
    host := .access (writeAccess (cmdAddr s.cfg) (BitVec.ofNat 32 (w % 2 ^ nbits))) :: s.host }

end Sys2Proof.Machine
end

