-- ==== Sys2Proof/Machine/HostProgram.lean ====
section
/-!
DEFINITION. The host-program lines and pseudo-instructions of 30_encoding.md section 4 (R132 to R139) as the host actions
they expand to. Offsets are added to BASE.
-/

namespace Sys2Proof.Machine

/-- `WR off, v` (R132). -/
def hostWrite (c : Config) (off : Nat) (v : Word) : HostAction := .access (writeAccess (c.base + off) v)

/-- `RD off` (R132). -/
def hostRead (c : Config) (off : Nat) : HostAction := .access (readAccess (c.base + off))

/-- `WAIT off, mask, v` (R132). -/
def hostWait (off : BitVec 21) (mask v : Word) : HostAction := .waitUntil off mask v

/-- `IDLE n` (R132). -/
def hostIdle (n : Nat) : List HostAction := List.replicate n .idle

/-- `CMD <command>`: WR 0x020 with the command's word (R133). -/
def hostCmd (c : Config) (i : Instr) : HostAction := hostWrite c 0x020 (encode i)

/-- `SETPIX x, y, v`: WR 0x40000 + 4×(y×WIDTH + x), v; none (an assembly error) outside the pixel buffer (R134). -/
def hostSetPix (c : Config) (x y : Nat) (v : Word) : Option HostAction :=
  if x < c.width ∧ y < c.height then some (hostWrite c (0x40000 + 4 * (y * c.width + x)) v) else none

/-- `WAITFILL` (R135). -/
def hostWaitFill : HostAction := hostWait 0x024 0x2 0x0

/-- `WAITIDLE` (R136). -/
def hostWaitIdle : HostAction := hostWait 0x024 0x33 0x1

/-- `ACKIRQ m` (R137). -/
def hostAckIrq (c : Config) (m : Word) : HostAction := hostWrite c 0x028 m

/-- `ACKERR m` (R137). -/
def hostAckErr (c : Config) (m : Word) : HostAction := hostWrite c 0x030 m

/-- `LOOKUP x, y` (R138). -/
def hostLookup (c : Config) (x y : Nat) : List HostAction :=
  [hostWrite c 0x048 ((BitVec.ofNat 32 y <<< 16) ||| BitVec.ofNat 32 x), hostRead c 0x04C]

/-- `FRAME g, d` (R139): PROCESS, WAITFILL, ENCODE, SUBMIT. -/
def hostFrame (c : Config) (g d : Bool) : List HostAction :=
  [hostCmd c (.process g d), hostWaitFill, hostCmd c .encode, hostCmd c .submit]

end Sys2Proof.Machine
end

