-- ==== Sys2Proof/Safety.lean ====
section
/-!
DEFINITION. What a good state is: the invariants of 10_state.md R64, the ranges of the counters (R61), the canonical form
of the memories and the reserved bits. Also the vocabulary of frames: which parts of the state two states share.
-/

namespace Sys2Proof.Machine

/-- Every listed entry is at most n. -/
def Memory.atMost (m : Memory) (n : Nat) : Bool := m.all fun c => decide (c.2.toNat ≤ n)

namespace State

/-- The configuration is one a block can be built for (R7). -/
abbrev ConfigOk (s : State) : Prop := s.cfg.wellFormed = true

/-- The memories are in canonical form and hold nothing at entries that do not exist (R53 to R56). -/
abbrev MemoryOk (s : State) : Prop :=
  Memory.wf s.pix = true ∧ Memory.wf s.errs = true ∧ Memory.wf s.qv = true ∧ Memory.wf s.bp0 = true ∧
    Memory.wf s.bp1 = true ∧ Memory.below s.pix (3 * s.cfg.numPix) = true ∧
    Memory.below s.errs (3 * s.cfg.numPix) = true ∧ Memory.below s.qv (3 * s.cfg.numPix) = true ∧
    Memory.below s.bp0 (24 * s.cfg.leds) = true ∧ Memory.below s.bp1 (24 * s.cfg.leds) = true

/-- INV6: "every ERRS bit is 0 or 1 and every QV entry is at most 128" (R64). -/
abbrev DitherOk (s : State) : Prop := Memory.atMost s.errs 1 = true ∧ Memory.atMost s.qv 128 = true

/-- INV7: "every BP byte has bits [7:S] zero" (R64). -/
abbrev PlanesOk (s : State) : Prop :=
  Memory.atMost s.bp0 (2 ^ s.cfg.strips - 1) = true ∧ Memory.atMost s.bp1 (2 ^ s.cfg.strips - 1) = true

/-- INV2 and INV3 (R64): SIG = 1 if and only if IDLE; a pending submit implies TRANSMITTING or RESET_WAIT. -/
abbrev SchedulerOk (s : State) : Prop :=
  (s.sig = true ↔ s.txState = .idle) ∧
    (s.submitPending = true → s.txState = .transmitting ∨ s.txState = .resetWait)

/-- INV4 (R64): RESET_WAIT implies 1 ≤ TIMER ≤ RESET_TICKS; otherwise TIMER = 0. -/
abbrev TimerOk (s : State) : Prop :=
  (s.txState = .resetWait → 1 ≤ s.timer.toNat ∧ s.timer.toNat ≤ s.cfg.resetTicks) ∧
    (s.txState ≠ .resetWait → s.timer = 0)

/-- INV5 (R64): not TRANSMITTING implies TX_LED = TX_BIT = TX_PHASE = 0 and every dout[y] = 0; and the ranges of R61
while TRANSMITTING. -/
abbrev PositionOk (s : State) : Prop :=
  (s.txState ≠ .transmitting → s.txLed = 0 ∧ s.txBit = 0 ∧ s.txPhase = 0 ∧ s.dout = 0) ∧
    (s.txState = .transmitting →
      s.txLed.toNat < s.cfg.leds ∧ s.txBit.toNat ≤ 23 ∧ s.txPhase.toNat < s.cfg.tBit)

/-- Pins that do not exist are not driven: dout has bits [7:S] zero (R62). -/
abbrev PinsOk (s : State) : Prop := s.dout.toNat < 2 ^ s.cfg.strips

/-- ERR_LAST: bits [30:2] read 0, and CODE is 0 while VALID is 0 (R44). -/
abbrev ErrLastOk (s : State) : Prop :=
  s.errLast = 0 ∨ s.errLast = 0x80000000 ∨ s.errLast = 0x80000001 ∨ s.errLast = 0x80000002 ∨ s.errLast = 0x80000003

/-- Between ticks the tick's set and clear masks are empty (R285). -/
abbrev MasksClear (s : State) : Prop := s.irqSet = 0 ∧ s.irqClr = 0 ∧ s.errSet = 0 ∧ s.errClr = 0

/-- The part of the invariant that also holds within a tick, between its phases. -/
abbrev MidInv (s : State) : Prop :=
  s.ConfigOk ∧ s.MemoryOk ∧ s.DitherOk ∧ s.PlanesOk ∧ s.SchedulerOk ∧ s.TimerOk ∧ s.PositionOk ∧ s.PinsOk ∧ s.ErrLastOk

/-- The invariant of the block between ticks (R64 and the rules above). INV1, TX_BUF = 1 − FILL, holds by construction:
TX_BUF is no state of its own (R59). -/
abbrev Inv (s : State) : Prop := s.MidInv ∧ s.MasksClear

/-- No rst in the next n ticks. -/
def noReset (s : State) (n : Nat) : Bool := (s.env.take n).all fun e => !e.rst

/-- Neither rst nor dma_retrigger in the next n ticks. -/
def quiet (s : State) (n : Nat) : Bool := (s.env.take n).all fun e => !e.rst && !e.retrigger

/-- How many ticks of its frame the transmitter has sent: its position counted in ticks (R255, R61). -/
def ticksSent (s : State) : Nat := (24 * s.txLed.toNat + s.txBit.toNat) * s.cfg.tBit + s.txPhase.toNat

end State

/-- n ticks, stopping at the first fault or refusal. -/
def State.runTicks : Nat → State → Host.Outcome State Fault Refusal
  | 0, s => .next s
  | n + 1, s => andThen (step s) (State.runTicks n)

/-- The memories of the block are the same. -/
abbrev SameMemories (s t : State) : Prop :=
  t.pix = s.pix ∧ t.errs = s.errs ∧ t.qv = s.qv ∧ t.bp0 = s.bp0 ∧ t.bp1 = s.bp1

/-- The scheduler's and the transmitter's state is the same (R57 to R61, R46, R47). -/
abbrev SameScheduler (s t : State) : Prop :=
  t.sig = s.sig ∧ t.submitPending = s.submitPending ∧ t.fill = s.fill ∧ t.txState = s.txState ∧ t.txLed = s.txLed ∧
    t.txBit = s.txBit ∧ t.txPhase = s.txPhase ∧ t.timer = s.timer ∧ t.frameCount = s.frameCount

/-- The error record is the same: ERR_LAST, ERR_INFO, ERR_STATUS and the tick's error events (R282). -/
abbrev SameErrors (s t : State) : Prop :=
  t.errStatus = s.errStatus ∧ t.errLast = s.errLast ∧ t.errInfo = s.errInfo ∧ t.errSet = s.errSet ∧ t.errClr = s.errClr

/-- The interrupt state is the same: IRQ_STATUS, IRQ_ENABLE and the tick's interrupt events (R285). -/
abbrev SameInterrupts (s t : State) : Prop :=
  t.irqStatus = s.irqStatus ∧ t.irqEnable = s.irqEnable ∧ t.irqSet = s.irqSet ∧ t.irqClr = s.irqClr

/-- The configuration, MAP_IN and the pins are the same. -/
abbrev SameRest (s t : State) : Prop := t.cfg = s.cfg ∧ t.mapIn = s.mapIn ∧ t.dout = s.dout

/-- What the model holds of the world outside the block is the same, but for drawn command durations. -/
abbrev SameOutside (s t : State) : Prop := t.readData = s.readData ∧ t.env = s.env ∧ t.host = s.host

/-- The stall and the draws of command durations are the same (R153). -/
abbrev SameStall (s t : State) : Prop := t.stall = s.stall ∧ t.cmdDraws = s.cmdDraws ∧ t.drawCount = s.drawCount

/-- Everything but the memories and the command stall is the same: the frame of CLEAR, PROCESS and ENCODE. -/
abbrev SameButMemories (s t : State) : Prop :=
  SameScheduler s t ∧ SameErrors s t ∧ SameInterrupts s t ∧ SameRest s t ∧ SameOutside s t

end Sys2Proof.Machine
end

