-- ==== Sys2Proof/Certificates/Slice0/Obligations.lean ====
section
/-!
DEFINITION. The statements for the provers, in the order of OBLIGATIONS.json. Each formalises the rules its docstring names.
-/

open Sys2Proof Sys2Proof.Machine

/-! ### Encoding -/

/-- Words written out from the fields of R120 and the table of R121 decode to the commands they stand for. -/
def Obligations.WrittenOutWordsDecode : Prop :=
  decodeWord 0b00000000000000000000000000000000 = .command .nop ∧
    decodeWord 0b00000000000000000000000000000001 = .command .clear ∧
    decodeWord 0b00000000000000000000000100000010 = .command (.process true false) ∧
    decodeWord 0b00000000000000000000001000000010 = .command (.process false true) ∧
    decodeWord 0b00000000000000000000000000000011 = .command .encode ∧
    decodeWord 0b00000000000000000000000000000100 = .command .submit

/-- Decode and encode agree on every word and on every list of bytes: a word decodes to a command exactly when it is that
command's word (R121, R123). The half about bytes (a command is exactly its four lanes, lane 0 first, and no other list is
one) is the model's own inference, DEDUCED, log entry 19: the block itself decodes the word written to CMD. -/
def Obligations.DecodeInvertsEncode : Prop :=
  (∀ (w : Word) (i : Instr), decodeWord w = .command i ↔ w = encode i) ∧
    ∀ (bs : List Byte) (i : Instr), decodeBytes bs = .command i ↔ bs = wordBytes (encode i)

/-- A word is a command exactly when the four conditions of R123 hold; the command is the one its OP names, and PROCESS
takes G and D from bits 8 and 9. -/
def Obligations.DecodeAcceptsTheWellFormedWords : Prop :=
  ∀ w : Word,
    ((∃ i, decodeWord w = .command i) ↔
      (w.extractLsb' 0 4).toNat ≤ 4 ∧ w.extractLsb' 4 4 = 0 ∧ w.extractLsb' 10 22 = 0 ∧
        (w.extractLsb' 0 4 = 2 ∨ w.extractLsb' 8 2 = 0)) ∧
      (∀ i, decodeWord w = .command i →
        w.extractLsb' 0 4 =
          (match i with
            | .nop => 0
            | .clear => 1
            | .process _ _ => 2
            | .encode => 3
            | .submit => 4)) ∧
      ∀ g d, decodeWord w = .command (.process g d) → g = w.getLsbD 8 ∧ d = w.getLsbD 9

/-- The rows of spec/opcode_table.json: a word decodes to a row's command exactly when word & mask = match. -/
def Obligations.DecodeFollowsTheOpcodeTable : Prop :=
  ∀ w : Word,
    (decodeWord w = .command .nop ↔ w &&& 0xFFFFFFFF = 0x00000000) ∧
      (decodeWord w = .command .clear ↔ w &&& 0xFFFFFFFF = 0x00000001) ∧
      ((∃ g d, decodeWord w = .command (.process g d)) ↔ w &&& 0xFFFFFCFF = 0x00000002) ∧
      (decodeWord w = .command .encode ↔ w &&& 0xFFFFFFFF = 0x00000003) ∧
      (decodeWord w = .command .submit ↔ w &&& 0xFFFFFFFF = 0x00000004)

/-! ### The commands -/

/-- NOP executes in every state and changes nothing (R155). -/
def Obligations.NopChangesNothing : Prop := ∀ s : State, exec .nop s = .next s

/-- CLEAR executes in every state, leaves every pixel black and every other piece of state as it was, but for the command
stall (R156). -/
def Obligations.ClearBlackensEveryPixel : Prop :=
  ∀ s : State, Memory.wf s.pix = true →
    ∃ t, exec .clear s = .next t ∧
      (∀ p, p < s.cfg.numPix → ∀ c, pixel t p c = 0) ∧
      (∀ a, 3 * s.cfg.numPix ≤ a → Memory.read t.pix a = Memory.read s.pix a) ∧
      t.errs = s.errs ∧ t.qv = s.qv ∧ t.bp0 = s.bp0 ∧ t.bp1 = s.bp1 ∧ SameButMemories s t

/-- PROCESS executes in every state and gives every channel of every pixel the value, the error and the quantized value of
R171 to R174; with D = 0 the dither state is unchanged (R175); nothing else changes but the command stall. -/
def Obligations.ProcessAppliesGammaThenDither : Prop :=
  ∀ (g d : Bool) (s : State), s.MemoryOk →
    ∃ t, exec (.process g d) s = .next t ∧
      (∀ p, p < s.cfg.numPix → ∀ c : Channel,
        let v := if g then s.cfg.gtAt (pixel s p c).toNat else pixel s p c
        let sum := v.toNat + (errBit s p c).toNat
        if d then
          (pixel t p c).toNat = min (2 * (sum / 2)) 255 ∧ (errBit t p c).toNat = sum - 2 * (sum / 2) ∧
            (quantized t p c).toNat = sum / 2
        else pixel t p c = v) ∧
      (d = false → t.errs = s.errs ∧ t.qv = s.qv) ∧
      t.bp0 = s.bp0 ∧ t.bp1 = s.bp1 ∧ SameButMemories s t

/-- PROCESS with G = 0 and D = 0 leaves every memory as it was, entry for entry (R130). -/
def Obligations.ProcessWithoutFlagsChangesNothing : Prop :=
  ∀ s : State, Memory.wf s.pix = true →
    ∃ t, exec (.process false false) s = .next t ∧ SameMemories s t ∧ SameButMemories s t

/-- With SUBMIT_PENDING = 0, ENCODE executes and writes every byte of BP[FILL]: bit y of BP[FILL][led][k] is bit
7 − (k mod 8) of the pixel wired to LED led of strip y, of its green for planes 0 to 7, its red for 8 to 15 and its blue for
16 to 23 (R210 to R212, R126); every other piece of state is unchanged but the command stall. The pixel is Unmap(y, led):
LayoutIsABijection makes Unmap the inverse of Map, and MapOutLooksUpTheLayout gives the value of Map. -/
def Obligations.EncodeTransposesThePixels : Prop :=
  ∀ s : State, Memory.wf (s.bp s.fill) = true → s.submitPending = false →
    ∃ t, exec .encode s = .next t ∧
      (∀ led, led < s.cfg.leds → ∀ k, k < 24 → ∀ y, y < 8 →
        (planeByteAt t s.fill led k).getLsbD y =
          (decide (y < s.cfg.strips) &&
            (pixel s ((unmapLed s.cfg y led).y * s.cfg.width + (unmapLed s.cfg y led).x)
                (if k < 8 then .g else if k < 16 then .r else .b)).getLsbD (7 - k % 8))) ∧
      (∀ a, 24 * s.cfg.leds ≤ a → Memory.read (t.bp s.fill) a = Memory.read (s.bp s.fill) a) ∧
      t.pix = s.pix ∧ t.errs = s.errs ∧ t.qv = s.qv ∧ t.bp (!s.fill) = s.bp (!s.fill) ∧ SameButMemories s t

/-- The acceptance table (R152): while SUBMIT_PENDING = 1, ENCODE (R216) and SUBMIT record EncodeRejected and SubmitRejected
with their command word, in the record of R280 and R282, and have no other effect; every other entry of the table executes
and records no error. -/
def Obligations.EncodeAndSubmitAreRejectedWhilePending : Prop :=
  (∀ s : State, s.submitPending = true →
    exec .encode s =
        .next { s with
          errSet := s.errSet ||| 0b0010
          errLast := 0x80000001
          errInfo := 0x00000003
          irqSet := s.irqSet ||| 0b1000 } ∧
      exec .submit s =
        .next { s with
          errSet := s.errSet ||| 0b0100
          errLast := 0x80000002
          errInfo := 0x00000004
          irqSet := s.irqSet ||| 0b1000 }) ∧
    ∀ (i : Instr) (s : State), (s.submitPending = true → i ≠ .encode ∧ i ≠ .submit) →
      ∃ t, exec i s = .next t ∧ SameErrors s t ∧ t.irqSet.getLsbD 3 = s.irqSet.getLsbD 3

/-- With no submit pending, SUBMIT is accepted at once when SIG = 1 and is pending otherwise (R231 to R233). -/
def Obligations.SubmitAcceptsOrWaits : Prop :=
  ∀ s : State, s.submitPending = false →
    (s.sig = true →
        exec .submit s =
          .next { s with
            sig := false
            fill := !s.fill
            txState := .transmitting
            txLed := 0
            txBit := 0
            txPhase := 0
            frameCount := s.frameCount + 1
            irqSet := s.irqSet ||| 0b0100 }) ∧
      (s.sig = false → exec .submit s = .next { s with submitPending := true })

/-- Acceptance depends on SUBMIT_PENDING only (R152): a command records an error exactly when it is ENCODE or SUBMIT and
SUBMIT_PENDING = 1, and then it does nothing but record its own error with its own word. -/
def Obligations.AcceptanceDependsOnPendingOnly : Prop :=
  ∀ (i : Instr) (s t : State), s.errSet = 0 → exec i s = .next t →
    (t.errSet ≠ 0 ↔ s.submitPending = true ∧ (i = .encode ∨ i = .submit)) ∧
      (t.errSet ≠ 0 → t = raiseError (if i = .encode then .encodeRejected else .submitRejected) (encode i) s)

/-- No command other than SUBMIT writes the scheduler's or the transmitter's state, and none sets an IRQ_STATUS event
except ERROR through a recorded error (R154). -/
def Obligations.OnlySubmitWritesTheScheduler : Prop :=
  ∀ (i : Instr) (s t : State), i ≠ .submit → exec i s = .next t →
    SameScheduler s t ∧ (∀ b, b < 3 → t.irqSet.getLsbD b = s.irqSet.getLsbD b) ∧
      (t.irqSet.getLsbD 3 = true ↔ s.irqSet.getLsbD 3 = true ∨ (i = .encode ∧ s.submitPending = true))

/-- The bytes of the window's memories that a command stores to: CLEAR to PIX, PROCESS to PIX and, with D = 1, DITHER,
ENCODE to the window of BP[FILL] unless it is rejected; NOP and SUBMIT to none. -/
def Sys2Proof.Machine.storesTo (i : Instr) (s : State) (off : Nat) : Bool :=
  match i with
  | .nop => false
  | .clear => decide (0x40000 ≤ off) && decide (off ≤ 0x7FFFF)
  | .process _ d =>
    (decide (0x40000 ≤ off) && decide (off ≤ 0x7FFFF)) || (d && decide (0x80000 ≤ off) && decide (off ≤ 0xBFFFF))
  | .encode =>
    !s.submitPending &&
      (if s.fill then decide (0x140000 ≤ off) && decide (off ≤ 0x17FFFF)
      else decide (0x100000 ≤ off) && decide (off ≤ 0x13FFFF))
  | .submit => false

/-- Every byte of the memory windows that a command does not store to reads as before. -/
def Obligations.CommandsKeepEveryOtherByte : Prop :=
  ∀ (i : Instr) (s t : State), exec i s = .next t → ∀ off, 0x40000 ≤ off → storesTo i s off = false →
    windowByte t off = windowByte s off

/-! ### The dither step -/

/-- The laws of one dither step (R176). -/
def Obligations.DitherStepBounds : Prop :=
  ∀ (v : Byte) (e : Bool), (ditherStep v e).q.toNat ≤ 128 ∧
    (ditherStep v e).out.toNat =
      (if v = 255 ∧ e = true then 255
      else if v.toNat % 2 = 1 ∧ e = false then v.toNat - 1
      else if v.toNat % 2 = 1 ∧ e = true then v.toNat + 1
      else v.toNat)

/-- The output of frame n (from 0) for a constant input v, starting from the pending error e. -/
def Sys2Proof.Machine.ditherRun (v : Byte) : Bool → Nat → Byte
  | e, 0 => (ditherStep v e).out
  | e, n + 1 => ditherRun v (ditherStep v e).err n

/-- A constant input (R177): an even value is output in every frame; an odd one up to 253 alternates, so that any two
consecutive outputs average v; 255 alternates 254 and 255. -/
def Obligations.ConstantInputAlternates : Prop :=
  ∀ (v : Byte) (e : Bool) (n : Nat),
    (v.toNat % 2 = 0 → ditherRun v e n = v) ∧
      (v.toNat % 2 = 1 → v.toNat ≤ 253 →
        (ditherRun v e n).toNat + (ditherRun v e (n + 1)).toNat = 2 * v.toNat ∧
          (ditherRun v false 0).toNat = v.toNat - 1) ∧
      (v = 255 →
        (ditherRun v e n = 254 ∧ ditherRun v e (n + 1) = 255) ∨ (ditherRun v e n = 255 ∧ ditherRun v e (n + 1) = 254))

/-- The three properties of R170 hold of the gamma table of every configuration the step accepts. THE MODEL ASSUMES THEM, as
R170 lets it: Config.wellFormed demands them of the table by choice (DESIGN CHOICE, log entries 2 and 16), and they are not
derived here from the formula of R9. -/
def Obligations.GammaTableIsMonotone : Prop :=
  ∀ c : Config, c.wellFormed = true →
    c.gtAt 0 = 0 ∧ c.gtAt 255 = 255 ∧ ∀ i j, i ≤ j → j < 256 → c.gtAt i ≤ c.gtAt j

/-! ### The layout mapper -/

/-- Map is a bijection from the logical pixels onto the physical LEDs, with inverse Unmap (R194). -/
def Obligations.LayoutIsABijection : Prop :=
  ∀ c : Config, c.wellFormed = true →
    (∀ x y, x < c.width → y < c.height →
      (mapPixel c x y).strip < c.strips ∧ (mapPixel c x y).led < c.leds ∧
        unmapLed c (mapPixel c x y).strip (mapPixel c x y).led = { x := x, y := y }) ∧
      ∀ strip led, strip < c.strips → led < c.leds →
        (unmapLed c strip led).x < c.width ∧ (unmapLed c strip led).y < c.height ∧
          mapPixel c (unmapLed c strip led).x (unmapLed c strip led).y = { strip := strip, led := led }

/-- The lookup (R195) and the value of Map (R190 to R192): a coordinate inside reads VALID, its strip and its LED, which are
those of Map; the strip and m are TILE_ORDER's for the coordinate's tile, the physical row pr counts from the tile's last
logical row when BOTTOM_UP = 1 and from its first otherwise, and an odd physical row runs backwards. Any other coordinate
reads 0. Every pixel has a coordinate that MAP_IN can hold, so this is Map everywhere. -/
def Obligations.MapOutLooksUpTheLayout : Prop :=
  ∀ (s : State), s.ConfigOk →
    let x := (s.mapIn.extractLsb' 0 16).toNat
    let y := (s.mapIn.extractLsb' 16 16).toNat
    let v := readReg s .mapOut
    let w := s.cfg.matrixW
    let h := s.cfg.matrixH
    let pr := if s.cfg.bottomUp then h - 1 - y % h else y % h
    let pc := if pr % 2 = 0 then x % w else w - 1 - x % w
    (x < s.cfg.tileCols * w ∧ y < s.cfg.tileRows * h →
        ∃ slot, s.cfg.tileOrder[y / h * s.cfg.tileCols + x / w]? = some slot ∧
          mapPixel s.cfg x y = { strip := slot.strip, led := slot.m * (w * h) + pr * w + pc } ∧ v.getLsbD 31 = true ∧
          v.extractLsb' 19 12 = 0 ∧ (v.extractLsb' 16 3).toNat = slot.strip ∧
          (v.extractLsb' 0 16).toNat = slot.m * (w * h) + pr * w + pc) ∧
      (¬(x < s.cfg.tileCols * w ∧ y < s.cfg.tileRows * h) → v = 0)

/-! ### The encoder -/

/-- The shift-and-accumulate formulation writes exactly the bytes of the reference one (R213). -/
def Obligations.EncoderFormulationsAgree : Prop :=
  ∀ s : State, Memory.wf (s.bp s.fill) = true → encodePlanesFast s = encodePlanes s

/-- For every led and k, PlaneByte(led, k) < 2^S (R214). -/
def Obligations.PlaneBytesStayBelowTwoToS : Prop :=
  ∀ (s : State) (led k : Nat), (planeByte s led k).toNat < 2 ^ s.cfg.strips

/-! ### The transmitter -/

/-- The pin levels in a TRANSMITTING tick (R256). -/
def Obligations.PinsFollowThePlaneByte : Prop :=
  ∀ (r : Bool) (s t : State), s.txState = .transmitting → transmitPhase r s = .next t → ∀ y, y < 8 →
    t.dout.getLsbD y =
      (decide (y < s.cfg.strips) &&
        decide (s.txPhase.toNat <
          if (planeByteAt s (!s.fill) s.txLed.toNat s.txBit.toNat).getLsbD y then s.cfg.t1h else s.cfg.t0h))

/-- In a tick with TX_STATE = IDLE every dout[y] is 0 and the transmitter changes no state (R254). -/
def Obligations.IdleTransmitterChangesNothing : Prop :=
  ∀ (r : Bool) (s : State), s.txState = .idle → transmitPhase r s = .next { s with dout := 0 }

/-- A TRANSMITTING tick that is not the frame's last advances the position by one tick (R255). -/
def Obligations.PositionAdvancesByOneTick : Prop :=
  ∀ (r : Bool) (s : State), s.MidInv → s.txState = .transmitting → s.ticksSent + 1 < s.cfg.frameTicks →
    ∃ t, transmitPhase r s = .next t ∧ t.txState = .transmitting ∧ t.PositionOk ∧ t.ticksSent = s.ticksSent + 1

/-- The frame's last tick completes it: RESET_WAIT, the timer armed, the position 0, TX_DONE (R258). -/
def Obligations.DmaCompletionArmsTheTimer : Prop :=
  ∀ (r : Bool) (s : State), s.MidInv → s.txState = .transmitting → s.ticksSent + 1 = s.cfg.frameTicks →
    transmitPhase r s =
      .next { s with
        dout := 0
        txState := .resetWait
        timer := BitVec.ofNat 32 s.cfg.resetTicks
        txLed := 0
        txBit := 0
        txPhase := 0
        irqSet := s.irqSet ||| 0b0001 }

/-- A RESET_WAIT tick without re-trigger holds the pins at 0 and decrements TIMER; when the new TIMER is 0 the timer expires
in the same tick (R259). TIMER is at least 1 there (INV4, R64), a part of the invariant that EveryStepKeepsTheInvariant
states; the model's wrap of a TIMER of 0 (log entry 11) is no part of this. -/
def Obligations.ResetTimerCountsDown : Prop :=
  ∀ s : State, s.txState = .resetWait →
    (s.timer ≠ 0 → s.timer ≠ 1 → transmitPhase false s = .next { s with dout := 0, timer := s.timer - 1 }) ∧
      (s.timer = 1 → transmitPhase false s = .next (timerExpire { s with dout := 0, timer := 0 }))

/-- The expiry of the reset timer (R260): IDLE, SIG released, RESET_DONE; a submit that waits is accepted in the same
tick. -/
def Obligations.ExpiryReleasesTheSignal : Prop :=
  ∀ s : State, s.txState = .resetWait → s.timer = 1 →
    (s.submitPending = false →
        transmitPhase false s =
          .next { s with dout := 0, timer := 0, txState := .idle, sig := true, irqSet := s.irqSet ||| 0b0010 }) ∧
      (s.submitPending = true →
        transmitPhase false s =
          .next { s with
            dout := 0
            timer := 0
            submitPending := false
            sig := false
            fill := !s.fill
            txState := .transmitting
            txLed := 0
            txBit := 0
            txPhase := 0
            frameCount := s.frameCount + 1
            irqSet := s.irqSet ||| 0b0110 })

/-- A re-trigger in RESET_WAIT reloads the timer and sets TX_DONE in place of the decrement; it is ignored in every other
TX_STATE (R262). -/
def Obligations.RetriggerRearmsTheTimer : Prop :=
  ∀ s : State,
    (s.txState = .resetWait →
        transmitPhase true s =
          .next { s with dout := 0, timer := BitVec.ofNat 32 s.cfg.resetTicks, irqSet := s.irqSet ||| 0b0001 }) ∧
      (s.txState ≠ .resetWait → transmitPhase true s = transmitPhase false s)

/-- The transmitter writes no memory, no host register and nothing of the error record (R94). -/
def Obligations.TransmitterKeepsTheRenderSide : Prop :=
  ∀ (r : Bool) (s t : State), transmitPhase r s = .next t →
    SameMemories s t ∧ SameErrors s t ∧ SameOutside s t ∧ SameStall s t ∧ t.cfg = s.cfg ∧ t.mapIn = s.mapIn ∧
      t.irqEnable = s.irqEnable ∧ t.irqStatus = s.irqStatus ∧ t.irqClr = s.irqClr

/-! ### Events and errors -/

/-- A set wins over a clear in one tick (R285): in the tick of a DMA completion in which the host writes v to IRQ_STATUS,
TX_DONE ends set whatever v is, and every other bit is cleared where v has a 1. -/
def Obligations.SetWinsOverClear : Prop :=
  ∀ (s : State) (v : Word) (rest : List HostAction), s.Inv → s.txState = .transmitting →
    s.ticksSent + 1 = s.cfg.frameTicks → s.envNow.rst = false → s.stall = 0 →
    s.host = hostWrite s.cfg 0x028 v :: rest →
    ∃ t, step s = .next t ∧ t.irqStatus = (s.irqStatus &&& ~~~v.extractLsb' 0 4) ||| 0b0001

/-- The update of every event bit at the end of a tick, with a set winning over a clear, the tick's masks empty after it, and
what the masks collect: every set_irq, every error, and bits [3:0] of a host write (R285). -/
def Obligations.EventBitsUpdate : Prop :=
  ∀ (s : State) (b : Nat), b < 4 →
    (∀ e : IrqBit, (setIrq e s).irqSet = s.irqSet ||| e.mask) ∧
      (∀ (e : ErrCode) (info : Word), (raiseError e info s).errSet = s.errSet ||| e.mask) ∧
      (∀ v : Word, memWrite 0x028 v s = .next { s with irqClr := v.extractLsb' 0 4 } ∧
        memWrite 0x030 v s = .next { s with errClr := v.extractLsb' 0 4 }) ∧
      (endTick s).irqStatus.getLsbD b = (s.irqSet.getLsbD b || (s.irqStatus.getLsbD b && !s.irqClr.getLsbD b)) ∧
      (endTick s).errStatus.getLsbD b = (s.errSet.getLsbD b || (s.errStatus.getLsbD b && !s.errClr.getLsbD b)) ∧
      (endTick s).MasksClear

/-- irq = 1 if and only if a pending bit is enabled (R286). -/
def Obligations.IrqIsTheEnabledPendingLevel : Prop :=
  ∀ s : State, s.irq = true ↔ ∃ b, b < 4 ∧ s.irqStatus.getLsbD b = true ∧ s.irqEnable.getLsbD b = true

/-- Recording an error writes the error record and nothing else (R281, R282). -/
def Obligations.RaiseWritesTheErrorRecord : Prop :=
  ∀ (info : Word) (s : State),
    raiseError .illegalCmd info s =
        { s with errSet := s.errSet ||| 0b0001, errLast := 0x80000000, errInfo := info, irqSet := s.irqSet ||| 0b1000 } ∧
      raiseError .encodeRejected info s =
        { s with errSet := s.errSet ||| 0b0010, errLast := 0x80000001, errInfo := info, irqSet := s.irqSet ||| 0b1000 } ∧
      raiseError .submitRejected info s =
        { s with errSet := s.errSet ||| 0b0100, errLast := 0x80000002, errInfo := info, irqSet := s.irqSet ||| 0b1000 } ∧
      raiseError .badAccess info s =
        { s with errSet := s.errSet ||| 0b1000, errLast := 0x80000003, errInfo := info, irqSet := s.irqSet ||| 0b1000 }

/-! ### The host port -/

/-- The words of the window and what they are: the regions of R81, and the 20 registers at their offsets (10_state.md section
2). -/
def Obligations.AddressMapPlacesEveryWord : Prop :=
  ∀ (c : Config) (off : Nat),
    (∀ p, locate c off = some (.pix p) ↔ 0x40000 ≤ off ∧ off ≤ 0x7FFFF ∧ p = (off - 0x40000) / 4 ∧ p < c.numPix) ∧
      (∀ p, locate c off = some (.dither p) ↔ 0x80000 ≤ off ∧ off ≤ 0xBFFFF ∧ p = (off - 0x80000) / 4 ∧ p < c.numPix) ∧
      (∀ j, locate c off = some (.plane false j) ↔
        0x100000 ≤ off ∧ off ≤ 0x13FFFF ∧ j = (off - 0x100000) / 4 ∧ j < 6 * c.leds) ∧
      (∀ j, locate c off = some (.plane true j) ↔
        0x140000 ≤ off ∧ off ≤ 0x17FFFF ∧ j = (off - 0x140000) / 4 ∧ j < 6 * c.leds) ∧
      (∀ j, locate c off = some (.gamma j) ↔ 0x400 ≤ off ∧ off ≤ 0x7FF ∧ j = (off - 0x400) / 4) ∧
      (∀ j, locate c off = some (.tile j) ↔ 0x800 ≤ off ∧ off ≤ 0x27FF ∧ j = (off - 0x800) / 4 ∧ j < c.numTiles) ∧
      ∀ r, locate c off = some (.reg r) ↔
        (off / 4 * 4, r) ∈
          [(0x000, Reg.id), (0x004, .cfg0), (0x008, .cfg1), (0x00C, .cfg2), (0x010, .cfg3), (0x014, .tcfg0),
            (0x018, .tcfg1), (0x01C, .tcfg2), (0x020, .cmd), (0x024, .status), (0x028, .irqStatus), (0x02C, .irqEnable),
            (0x030, .errStatus), (0x034, .errLast), (0x038, .errInfo), (0x03C, .frameCount), (0x040, .timer),
            (0x044, .txPos), (0x048, .mapIn), (0x04C, .mapOut)]

/-- A read has no side effect but its value, and an unmapped read only records BadAccess and returns 0 (R85). The words of
the memories have the formats of R122 (PIX), R124 (DITHER), R125 (TILE_MAP), R127 (BP0 and BP1: plane 4 × (j mod 6) + i of
LED j div 6 in lane i, which is byte 4j + i of the buffer's byte sequence) and R85 (GAMMA); what the registers read is
stated in ConfigurationRegistersReport, StatusReportsTheScheduler and MapOutLooksUpTheLayout. -/
def Obligations.ReadsHaveNoSideEffect : Prop :=
  ∀ (off : BitVec 21) (s : State),
    (∀ e, locate s.cfg off.toNat = some e → memRead off s = { s with readData := some (readEntry s e) }) ∧
      (locate s.cfg off.toNat = none →
        memRead off s =
          { s with
            readData := some 0
            errSet := s.errSet ||| 0b1000
            errLast := 0x80000003
            errInfo := off.setWidth 32
            irqSet := s.irqSet ||| 0b1000 }) ∧
      (∀ p,
        let v := readEntry s (.pix p)
        v.extractLsb' 24 8 = 0 ∧ v.extractLsb' 16 8 = pixel s p .r ∧ v.extractLsb' 8 8 = pixel s p .g ∧
          v.extractLsb' 0 8 = pixel s p .b) ∧
      (∀ p,
        let v := readEntry s (.dither p)
        v.extractLsb' 27 5 = 0 ∧ v.getLsbD 26 = errBit s p .r ∧ v.getLsbD 25 = errBit s p .g ∧
          v.getLsbD 24 = errBit s p .b ∧ v.extractLsb' 16 8 = quantized s p .r ∧ v.extractLsb' 8 8 = quantized s p .g ∧
          v.extractLsb' 0 8 = quantized s p .b) ∧
      (∀ j slot, s.ConfigOk → s.cfg.tileOrder[j]? = some slot →
        let v := readEntry s (.tile j)
        v.extractLsb' 19 13 = 0 ∧ (v.extractLsb' 16 3).toNat = slot.strip ∧ (v.extractLsb' 0 16).toNat = slot.m) ∧
      (∀ j g, s.cfg.gt[j]? = some g → (readEntry s (.gamma j)).toNat = g.toNat) ∧
      ∀ b j i, i < 4 →
        (readEntry s (.plane b j)).extractLsb' (8 * i) 8 = planeByteAt s b (j / 6) (4 * (j % 6) + i) ∧
          planeByteAt s b (j / 6) (4 * (j % 6) + i) = Memory.read (if b then s.bp1 else s.bp0) (4 * j + i)

/-- MemWrite (R86): a write reaches CMD, IRQ_STATUS, IRQ_ENABLE, ERR_STATUS, MAP_IN and the pixels, whose bits [31:24] it
ignores; at every other offset it only records BadAccess with bit 31 of ERR_INFO set. -/
def Obligations.WritesElsewhereAreBadAccesses : Prop :=
  ∀ (off : BitVec 21) (v : Word) (s : State), off.toNat % 4 = 0 →
    (off.toNat = 0x020 → memWrite off v s = issueCommand v s) ∧
      (off.toNat = 0x028 → memWrite off v s = .next { s with irqClr := v.extractLsb' 0 4 }) ∧
      (off.toNat = 0x02C → memWrite off v s = .next { s with irqEnable := v.extractLsb' 0 4 }) ∧
      (off.toNat = 0x030 → memWrite off v s = .next { s with errClr := v.extractLsb' 0 4 }) ∧
      (off.toNat = 0x048 → memWrite off v s = .next { s with mapIn := v }) ∧
      (∀ p, Memory.wf s.pix = true → off.toNat = 0x40000 + 4 * p → p < s.cfg.numPix → off.toNat ≤ 0x7FFFF →
        ∃ t, memWrite off v s = .next t ∧ t = { s with pix := t.pix } ∧ pixel t p .r = v.extractLsb' 16 8 ∧
          pixel t p .g = v.extractLsb' 8 8 ∧ pixel t p .b = v.extractLsb' 0 8 ∧
          ∀ a, a / 3 ≠ p → Memory.read t.pix a = Memory.read s.pix a) ∧
      (off.toNat ≠ 0x020 → off.toNat ≠ 0x028 → off.toNat ≠ 0x02C → off.toNat ≠ 0x030 → off.toNat ≠ 0x048 →
        ¬(0x40000 ≤ off.toNat ∧ (off.toNat - 0x40000) / 4 < s.cfg.numPix ∧ off.toNat ≤ 0x7FFFF) →
        memWrite off v s =
          .next { s with
            errSet := s.errSet ||| 0b1000
            errLast := 0x80000003
            errInfo := 0x80000000 ||| off.setWidth 32
            irqSet := s.irqSet ||| 0b1000 })

/-- Writing a pixel word stores its three channels, so that the word reads back with bits [31:24] zero, and changes no
other entry of PIX and nothing else (R86, R122). -/
def Obligations.PixelWriteReadsBack : Prop :=
  ∀ (off : BitVec 21) (v : Word) (s : State), Memory.wf s.pix = true → 0x40000 ≤ off.toNat → off.toNat ≤ 0x7FFFF →
    (off.toNat - 0x40000) / 4 < s.cfg.numPix →
    ∃ m, memWrite off v s = .next { s with pix := m } ∧
      memRead off { s with pix := m } = { s with pix := m, readData := some (v &&& 0x00FFFFFF) } ∧
      ∀ a, a / 3 ≠ (off.toNat - 0x40000) / 4 → Memory.read m a = Memory.read s.pix a

/-- An access that is not a 32-bit access, or not all lanes, or not at a multiple of 4, is a bad access: a read returns 0,
a write changes nothing, so a narrow write to CMD decodes nothing (R84, R283). -/
def Obligations.IllegalAccessesOnlyRecordAnError : Prop :=
  ∀ (a : BusAccess) (off : BitVec 21) (s : State), offsetOf s.cfg a.addr = some off →
    (a.width ≠ .word ∨ a.lanes ≠ 0xF ∨ a.addr % 4 ≠ 0) →
    hostAccess a s =
      .next { s with
        readData := if a.write then s.readData else some 0
        errSet := s.errSet ||| 0b1000
        errLast := 0x80000003
        errInfo := if a.write then 0x80000000 ||| off.setWidth 32 else off.setWidth 32
        irqSet := s.irqSet ||| 0b1000 }

/-- The configuration registers report the configuration, field by field (R32 to R38). -/
def Obligations.ConfigurationRegistersReport : Prop :=
  ∀ s : State, s.ConfigOk →
    ((readReg s .cfg0).extractLsb' 0 4).toNat = s.cfg.strips ∧ (readReg s .cfg0).getLsbD 4 = s.cfg.bottomUp ∧
      (readReg s .cfg0).extractLsb' 5 3 = 0 ∧ ((readReg s .cfg0).extractLsb' 8 8).toNat = s.cfg.matrixW ∧
      ((readReg s .cfg0).extractLsb' 16 8).toNat = s.cfg.matrixH ∧
      ((readReg s .cfg0).extractLsb' 24 8).toNat = s.cfg.matricesPerStrip ∧
      ((readReg s .cfg1).extractLsb' 0 16).toNat = s.cfg.tileCols ∧
      ((readReg s .cfg1).extractLsb' 16 16).toNat = s.cfg.tileRows ∧
      ((readReg s .cfg2).extractLsb' 0 16).toNat = s.cfg.width ∧
      ((readReg s .cfg2).extractLsb' 16 16).toNat = s.cfg.height ∧ (readReg s .cfg3).toNat = s.cfg.leds ∧
      (readReg s .tcfg0).toNat = s.cfg.tBit ∧ ((readReg s .tcfg1).extractLsb' 0 16).toNat = s.cfg.t0h ∧
      ((readReg s .tcfg1).extractLsb' 16 16).toNat = s.cfg.t1h ∧ (readReg s .tcfg2).toNat = s.cfg.resetTicks

/-- What the registers that are no configuration read, MAP_OUT apart: the fields of STATUS (R40) and of TX_POS (R48); ID's
constant (R31) and CMD's 0 (R39); IRQ_STATUS, IRQ_ENABLE and ERR_STATUS in bits [3:0] with 0 above (R41 to R43); ERR_LAST,
ERR_INFO, FRAME_COUNT, TIMER and MAP_IN whole (R44 to R47, R49). -/
def Obligations.StatusReportsTheScheduler : Prop :=
  ∀ s : State,
    readReg s .id = 0x55504E47 ∧ readReg s .cmd = 0 ∧ (readReg s .irqStatus).extractLsb' 0 4 = s.irqStatus ∧
      (readReg s .irqStatus).extractLsb' 4 28 = 0 ∧ (readReg s .irqEnable).extractLsb' 0 4 = s.irqEnable ∧
      (readReg s .irqEnable).extractLsb' 4 28 = 0 ∧ (readReg s .errStatus).extractLsb' 0 4 = s.errStatus ∧
      (readReg s .errStatus).extractLsb' 4 28 = 0 ∧ readReg s .errLast = s.errLast ∧ readReg s .errInfo = s.errInfo ∧
      readReg s .frameCount = s.frameCount ∧ readReg s .timer = s.timer ∧ readReg s .mapIn = s.mapIn ∧
    (readReg s .status).getLsbD 0 = s.sig ∧ (readReg s .status).getLsbD 1 = s.submitPending ∧
      (readReg s .status).getLsbD 2 = s.fill ∧ (readReg s .status).getLsbD 3 = !s.fill ∧
      (readReg s .status).extractLsb' 4 2 =
        (match s.txState with
          | .idle => 0
          | .transmitting => 1
          | .resetWait => 2) ∧
      (readReg s .status).extractLsb' 6 26 = 0 ∧
      (readReg s .txPos).extractLsb' 0 16 = (if s.txState = .transmitting then s.txLed else 0) ∧
      (readReg s .txPos).extractLsb' 16 5 = (if s.txState = .transmitting then s.txBit else 0) ∧
      (readReg s .txPos).extractLsb' 21 11 = 0

/-! ### The step -/

/-- A step performs the host's action on the state phase 1 left, when no stall is in progress and rst is 0: the step is the
transmitter's phase, then that action, then the end-of-tick updates (R270). A legal write of w to CMD is exec of the command
w decodes to (R150), and a word that decodes to none only records IllegalCmd (R128); any legal access is MemRead or MemWrite
at its offset (R85, R86); any other access in the window is a bad access (R84); a WAIT is one read, repeated in the next tick
until (value & mask) = v (R132); a tick without an access does nothing. That an access outside the window does nothing to the
block is the model's choice (DESIGN CHOICE, log entry 9), and so is that the host is idle at the end of its list (log entry
5). -/
def Obligations.StepIssuesTheDecodedCommand : Prop :=
  ∀ (s s1 : State), s.ConfigOk → s.envNow.rst = false → s.stall = 0 →
    transmitPhase s.envNow.retrigger (beginTick s) = .next s1 →
    (∀ (w : Word) (rest : List HostAction), s.host = hostWrite s.cfg 0x020 w :: rest →
        (∀ i, decodeWord w = .command i →
            step s = andThen (exec i { s1 with host := rest }) fun s2 => .next (endTick s2)) ∧
          ∀ why, decodeWord w = .illegal why →
            step s =
              .next (endTick { s1 with
                host := rest
                errSet := s1.errSet ||| 0b0001
                errLast := 0x80000000
                errInfo := w
                irqSet := s1.irqSet ||| 0b1000 })) ∧
      (∀ (a : BusAccess) (off : BitVec 21) (rest : List HostAction), s.host = .access a :: rest →
        offsetOf s.cfg a.addr = some off →
        (a.width = .word ∧ a.lanes = 0xF ∧ a.addr % 4 = 0 →
            step s =
              if a.write then andThen (memWrite off a.data { s1 with host := rest }) fun s2 => .next (endTick s2)
              else .next (endTick (memRead off { s1 with host := rest }))) ∧
          (¬(a.width = .word ∧ a.lanes = 0xF ∧ a.addr % 4 = 0) →
            step s =
              .next (endTick { s1 with
                host := rest
                readData := if a.write then s1.readData else some 0
                errSet := s1.errSet ||| 0b1000
                errLast := 0x80000003
                errInfo := if a.write then 0x80000000 ||| off.setWidth 32 else off.setWidth 32
                irqSet := s1.irqSet ||| 0b1000 }))) ∧
      (∀ (a : BusAccess) (rest : List HostAction), s.host = .access a :: rest →
        ¬(s.cfg.base ≤ a.addr ∧ a.addr ≤ s.cfg.base + 0x1FFFFF) → step s = .next (endTick { s1 with host := rest })) ∧
      (∀ (off : BitVec 21) (mask value : Word) (rest : List HostAction), s.host = hostWait off mask value :: rest →
        (off.toNat % 4 = 0 →
            ∃ x, (memRead off s1).readData = some x ∧
              step s =
                .next (endTick
                  (if x &&& mask = value then { memRead off s1 with host := rest } else memRead off s1))) ∧
          (off.toNat % 4 ≠ 0 →
            step s =
              .next (endTick { s1 with
                host := if value = 0 then rest else s.host
                readData := some 0
                errSet := s1.errSet ||| 0b1000
                errLast := 0x80000003
                errInfo := off.setWidth 32
                irqSet := s1.irqSet ||| 0b1000 }))) ∧
      (∀ rest, s.host = .idle :: rest → step s = .next (endTick { s1 with host := rest })) ∧
      (s.host = [] → step s = .next (endTick s1))

/-- The command stall (R90, R153). CLEAR, PROCESS and an accepted ENCODE begin one: the host's write takes CMD_TICKS ticks,
the tick of issue the first of them, so the stall is CMD_TICKS − 1 further ticks, any number from 0 on. NOP, SUBMIT and a
rejected ENCODE begin none. While one is in progress a tick performs no host access: the transmitter's phase and the
end-of-tick updates only. Where the number is drawn from (the next entry of cmdDraws, else the free value, of which nothing
is said) is the model's choice (DESIGN CHOICE, log entry 3), and that the tick of issue counts is its inference (DEDUCED,
log entry 14). -/
def Obligations.StalledHostIssuesNothing : Prop :=
  (∀ (i : Instr) (s : State),
      ∃ t, exec i s = .next t ∧
        if i = .nop ∨ i = .submit ∨ (i = .encode ∧ s.submitPending = true) then SameStall s t
        else
          (∀ d ds, s.cmdDraws = d :: ds → t.stall = d ∧ t.cmdDraws = ds ∧ t.drawCount = s.drawCount) ∧
            (s.cmdDraws = [] →
              t.stall = Config.freeCmdTicks s.drawCount ∧ t.cmdDraws = [] ∧ t.drawCount = s.drawCount + 1)) ∧
    ∀ s s1 : State, s.ConfigOk → s.envNow.rst = false → s.stall ≠ 0 →
      transmitPhase s.envNow.retrigger (beginTick s) = .next s1 →
      step s = .next (endTick { s1 with stall := s.stall - 1 }) ∧ s1.host = s.host

/-- The effect of a stalled command is the same at every choice of the tick it lands in: CLEAR, PROCESS and an accepted
ENCODE commute with the transmitter's phase (R91). -/
def Obligations.StalledCommandsCommuteWithTheTransmitter : Prop :=
  ∀ (i : Instr) (r : Bool) (s s1 t : State), i ≠ .nop → i ≠ .submit → (i = .encode → s.submitPending = false) →
    transmitPhase r s = .next s1 → exec i s = .next t → ∃ u, exec i s1 = .next u ∧ transmitPhase r t = .next u

/-- A configuration that breaks any condition of R7, TILE_ORDER's of R8 included, is refused and given no meaning (R7). -/
def Obligations.BadConfigurationIsRefused : Prop :=
  ∀ s : State,
    ¬(1 ≤ s.cfg.strips ∧ s.cfg.strips ≤ 8 ∧ 1 ≤ s.cfg.matrixW ∧ s.cfg.matrixW ≤ 255 ∧ 1 ≤ s.cfg.matrixH ∧
        s.cfg.matrixH ≤ 255 ∧ 1 ≤ s.cfg.matricesPerStrip ∧ s.cfg.matricesPerStrip ≤ 255 ∧
        s.cfg.matricesPerStrip * s.cfg.matrixW * s.cfg.matrixH ≤ 8192 ∧ 1 ≤ s.cfg.tileCols ∧ 1 ≤ s.cfg.tileRows ∧
        s.cfg.tileCols * s.cfg.tileRows = s.cfg.strips * s.cfg.matricesPerStrip ∧
        s.cfg.tileCols * s.cfg.matrixW ≤ 65535 ∧ s.cfg.tileRows * s.cfg.matrixH ≤ 65535 ∧
        s.cfg.tileCols * s.cfg.matrixW * (s.cfg.tileRows * s.cfg.matrixH) ≤ 65536 ∧ 1 ≤ s.cfg.t0h ∧
        s.cfg.t0h < s.cfg.t1h ∧ s.cfg.t1h < s.cfg.tBit ∧ s.cfg.tBit ≤ 65535 ∧ 1 ≤ s.cfg.resetTicks ∧
        s.cfg.resetTicks ≤ 2 ^ 32 - 1 ∧ s.cfg.tileOrder.length = s.cfg.tileCols * s.cfg.tileRows ∧
        (∀ e ∈ s.cfg.tileOrder, e.strip < s.cfg.strips ∧ e.m < s.cfg.matricesPerStrip) ∧ s.cfg.tileOrder.Nodup ∧
        ∀ y, y < s.cfg.strips → ∀ m, m < s.cfg.matricesPerStrip →
          ({ strip := y, m := m } : TileSlot) ∈ s.cfg.tileOrder) →
      step s = .refused .configurationError

/-- No step changes the configuration (R65). -/
def Obligations.ConfigurationNeverChanges : Prop := ∀ s t : State, step s = .next t → t.cfg = s.cfg

/-- A tick with rst = 1 (R310, R311): every piece of the block's state is at its reset value and the pins, irq and the
stall are 0; a host access of the tick changes nothing and records no error, and a read returns 0. -/
def Obligations.ResetTickRestoresEveryValue : Prop :=
  ∀ s : State, s.ConfigOk → s.envNow.rst = true →
    ∃ t, step s = .next t ∧ SameMemories (State.resetOf s.cfg) t ∧ SameScheduler (State.resetOf s.cfg) t ∧
      SameErrors (State.resetOf s.cfg) t ∧ SameInterrupts (State.resetOf s.cfg) t ∧ SameRest (State.resetOf s.cfg) t ∧
      t.stall = 0 ∧ t.irq = false ∧ (t.readData = none ∨ t.readData = some 0) ∧
      ∀ off rest, off < 0x200000 → s.stall = 0 → s.host = hostRead s.cfg off :: rest → t.readData = some 0

/-- What the host reads right after reset (R311), whatever the configuration: STATUS 0x0000_0009, every other register
that is neither configuration nor MAP_OUT zero but ID, and every word of PIX, DITHER, BP0 and BP1 zero. -/
def Obligations.ResetStateReadsAsStated : Prop :=
  ∀ c : Config,
    readReg (State.resetOf c) .status = 0x00000009 ∧ readReg (State.resetOf c) .id = 0x55504E47 ∧
      (∀ r ∈ [Reg.cmd, .irqStatus, .irqEnable, .errStatus, .errLast, .errInfo, .frameCount, .timer, .txPos, .mapIn],
        readReg (State.resetOf c) r = 0) ∧
      (∀ p, readEntry (State.resetOf c) (.pix p) = 0 ∧ readEntry (State.resetOf c) (.dither p) = 0) ∧
      (∀ b j, readEntry (State.resetOf c) (.plane b j) = 0) ∧ (State.resetOf c).irq = false

/-! ### Invariants and safety -/

/-- The invariant holds after reset of every well-formed configuration (R64). -/
def Obligations.InvariantHoldsAfterReset : Prop := ∀ c : Config, c.wellFormed = true → (State.resetOf c).Inv

/-- Every step keeps the invariant (R64): INV2 to INV7, the counters' ranges, the canonical memories, the reserved bits. -/
def Obligations.EveryStepKeepsTheInvariant : Prop := ∀ s t : State, s.Inv → step s = .next t → t.Inv

/-- From a state of the invariant a step neither faults nor refuses, whatever the host and the environment do. -/
def Obligations.StepsFromTheInvariantComplete : Prop := ∀ s : State, s.Inv → ∃ t, step s = .next t

/-- FRAME_COUNT and FILL change at an accept and at no other time (R46, R59): in a tick with rst = 0 either a frame is
accepted and both change, FRAME_COUNT by 1, or neither changes and no frame is accepted, so that a TRANSMITTING block was
TRANSMITTING already. -/
def Obligations.FrameCountCountsAccepts : Prop :=
  ∀ s t : State, s.Inv → s.envNow.rst = false → step s = .next t →
    (t.frameCount = s.frameCount + 1 ∧ t.fill = !s.fill ∧ t.txState = .transmitting ∧ t.ticksSent = 0 ∧
        s.txState ≠ .transmitting) ∨
      (t.frameCount = s.frameCount ∧ t.fill = s.fill ∧ (t.txState = .transmitting → s.txState = .transmitting))

/-- The buffer being sent does not change while it is sent, whatever the host does (R95, R100, R235). -/
def Obligations.TransmittedBufferIsFrozen : Prop :=
  ∀ s t : State, s.Inv → s.txState = .transmitting → s.envNow.rst = false → step s = .next t → t.bp (!s.fill) = s.bp (!s.fill)

/-! ### Whole frames -/

/-- A frame, once accepted, is sent to its end whatever the host does (R238, R257): from a state that has sent j ticks of
its frame, the next N − j ticks send the rest, tick by tick, and the last completes it. -/
def Obligations.FrameLastsExactlyN : Prop :=
  ∀ s : State, s.Inv → s.txState = .transmitting → s.noReset (s.cfg.frameTicks - s.ticksSent) = true →
    s.ticksSent < s.cfg.frameTicks ∧
      (∀ k, k < s.cfg.frameTicks - s.ticksSent →
        ∃ t, s.runTicks k = .next t ∧ t.txState = .transmitting ∧ t.ticksSent = s.ticksSent + k) ∧
      ∃ t, s.runTicks (s.cfg.frameTicks - s.ticksSent) = .next t ∧ t.txState = .resetWait ∧
        t.timer.toNat = s.cfg.resetTicks ∧ t.irqStatus.getLsbD 0 = true

/-- The waveform of a whole frame (R250, R251): from an accept on, tick k (from 0) is tick k mod T_BIT of the slot of byte
k div T_BIT of BPbytes[TX_BUF], and pin y is high in it exactly while that tick is below T1H for a 1 bit and T0H for a 0
bit. -/
def Obligations.FrameWaveform : Prop :=
  ∀ s : State, s.Inv → s.txState = .transmitting → s.ticksSent = 0 → s.noReset s.cfg.frameTicks = true →
    ∀ k, k < s.cfg.frameTicks →
      ∃ t, s.runTicks (k + 1) = .next t ∧ ∀ y, y < 8 →
        t.dout.getLsbD y =
          (decide (y < s.cfg.strips) &&
            decide (k % s.cfg.tBit <
              if (Memory.read (s.bp (!s.fill)) (k / s.cfg.tBit)).getLsbD y then s.cfg.t1h else s.cfg.t0h))

/-- The reset window (R259, R260, R263): without rst and re-trigger it lasts the TIMER's ticks, with SIG = 0; its last
tick sets RESET_DONE, releases SIG and leaves RESET_WAIT: the block is then IDLE with SIG = 1, or has accepted a frame in that
same tick, as it has when a submit waited. -/
def Obligations.ResetWindowLastsTheTimer : Prop :=
  ∀ s : State, s.Inv → s.txState = .resetWait → s.quiet s.timer.toNat = true →
    (∀ k, k < s.timer.toNat →
      ∃ t, s.runTicks k = .next t ∧ t.txState = .resetWait ∧ t.sig = false ∧ t.timer.toNat = s.timer.toNat - k) ∧
      ∃ t, s.runTicks s.timer.toNat = .next t ∧ t.irqStatus.getLsbD 1 = true ∧
        ((t.txState = .idle ∧ t.sig = true ∧ t.frameCount = s.frameCount ∧ t.fill = s.fill ∧ s.submitPending = false) ∨
          (t.txState = .transmitting ∧ t.sig = false ∧ t.ticksSent = 0 ∧
            t.frameCount = s.frameCount + 1 ∧ t.fill = !s.fill))

/-- Re-triggering is idempotent (R263): several re-triggers in consecutive ticks leave what the last one leaves, so that
the window then lasts RESET_TICKS ticks. -/
def Obligations.RetriggerIsIdempotent : Prop :=
  ∀ s t u : State, s.ConfigOk → s.txState = .resetWait → transmitPhase true s = .next t → transmitPhase true t = .next u →
    u = t ∧ u.txState = .resetWait ∧ u.timer.toNat = s.cfg.resetTicks

/-- Two consecutive accepts are at least N + RESET_TICKS ticks apart (R265), whatever the host does and however often the
environment re-triggers. -/
def Obligations.AcceptsAreFarApart : Prop :=
  ∀ s : State, s.Inv → s.txState = .transmitting → s.ticksSent = 0 →
    s.noReset (s.cfg.frameTicks + s.cfg.resetTicks) = true →
    ∀ k, k < s.cfg.frameTicks + s.cfg.resetTicks →
      ∃ t, s.runTicks k = .next t ∧ t.frameCount = s.frameCount ∧ t.fill = s.fill

/-- The low period between frames (R261): in the last T_BIT − T1H ticks of a frame and in the RESET_TICKS ticks after it,
at least, every pin is low. -/
def Obligations.PinsStayLowBetweenFrames : Prop :=
  ∀ s : State, s.Inv → s.txState = .transmitting → s.ticksSent = 0 →
    s.noReset (s.cfg.frameTicks + s.cfg.resetTicks) = true →
    ∀ k, s.cfg.frameTicks - (s.cfg.tBit - s.cfg.t1h) ≤ k → k < s.cfg.frameTicks + s.cfg.resetTicks →
      ∃ t, s.runTicks (k + 1) = .next t ∧ t.dout = 0

/-- Progress (R326): a pending submit is accepted within N + RESET_TICKS ticks if no re-trigger occurs. -/
def Obligations.PendingSubmitIsAcceptedInTime : Prop :=
  ∀ s : State, s.Inv → s.submitPending = true → s.quiet (s.cfg.frameTicks + s.cfg.resetTicks) = true →
    ∃ k, k ≤ s.cfg.frameTicks + s.cfg.resetTicks ∧
      ∃ t, s.runTicks k = .next t ∧ t.frameCount = s.frameCount + 1 ∧ t.fill = !s.fill ∧ t.txState = .transmitting

/-! ### The host over a reset -/

/-- What becomes of the host's action in a tick with rst = 1: it is used up, but for a WAIT that its read of 0 does not
satisfy, which goes on; in a tick of a stall none is. THE MODEL'S CHOICE (DESIGN CHOICE, log entry 13): R310 says only that
the access is ignored. -/
def Obligations.ResetTickUsesUpTheHostsAction : Prop :=
  ∀ s : State, s.ConfigOk → s.envNow.rst = true →
    ∃ t, step s = .next t ∧ (s.stall ≠ 0 → t.host = s.host) ∧
      (s.stall = 0 →
        (∀ a rest, s.host = .access a :: rest → t.host = rest) ∧ (∀ rest, s.host = .idle :: rest → t.host = rest) ∧
          ∀ off mask value rest, s.host = hostWait off mask value :: rest →
            t.host = if value = 0 then rest else s.host)
end

