-- ==== Sys2Proof/Laws/Memory.lean ====
section
/-!
SUPPORT. The laws of the memories and of the bounded loop: read after write, the canonical form is kept, two canonical
memories that read alike are equal, and what a loop of writes leaves.
-/

namespace Sys2Proof.Machine

namespace Memory

@[simp] theorem read_nil (a : Nat) : read [] a = 0#8 := rfl

@[simp] theorem wf_nil : wf [] = true := rfl

@[simp] theorem below_nil (n : Nat) : below [] n = true := rfl

@[simp] theorem atMost_nil (n : Nat) : atMost [] n = true := rfl

theorem wfAbove_cons {lo : Option Nat} {a : Nat} {v : Byte} {t : Memory} :
    wfAbove lo ((a, v) :: t) = true ↔ (∀ l, lo = some l → l < a) ∧ v ≠ 0#8 ∧ wfAbove (some a) t = true := by
  cases lo <;> simp [wfAbove, and_assoc]

/-- A lower bound of the indexes may be lowered, or dropped. -/
theorem wfAbove_mono {lo lo' : Option Nat} {m : Memory} (h : wfAbove lo m = true)
    (hl : ∀ l', lo' = some l' → ∃ l, lo = some l ∧ l' ≤ l) : wfAbove lo' m = true := by
  cases m with
  | nil => rfl
  | cons c t =>
    obtain ⟨a, v⟩ := c
    rw [wfAbove_cons] at h ⊢
    refine ⟨fun l' e => ?_, h.2⟩
    obtain ⟨l, e', le⟩ := hl l' e
    exact lt_of_le_of_lt le (h.1 l e')

/-- An index not above the lower bound reads 0. -/
theorem read_of_wfAbove {m : Memory} {l a : Nat} (h : wfAbove (some l) m = true) (ha : a ≤ l) : read m a = 0#8 := by
  induction m generalizing l with
  | nil => rfl
  | cons c t ih =>
    obtain ⟨b, u⟩ := c
    rw [wfAbove_cons] at h
    have hb := h.1 l rfl
    have : a ≠ b := by omega
    simp only [read, if_neg this]
    exact ih h.2.2 (by omega)

theorem wfAbove_write {m : Memory} {lo : Option Nat} {a : Nat} {v : Byte} (h : wfAbove lo m = true)
    (ha : ∀ l, lo = some l → l < a) : wfAbove lo (write m a v) = true := by
  induction m generalizing lo with
  | nil =>
    unfold write
    split
    · rfl
    · rename_i hv
      rw [wfAbove_cons]
      exact ⟨ha, hv, rfl⟩
  | cons c t ih =>
    obtain ⟨b, u⟩ := c
    have h' := h
    rw [wfAbove_cons] at h
    unfold write
    split
    · split
      · exact h'
      · rename_i hab hv
        rw [wfAbove_cons]
        refine ⟨ha, hv, ?_⟩
        rw [wfAbove_cons]
        exact ⟨fun l e => by cases e; exact hab, h.2⟩
    · split
      · rename_i hab
        subst hab
        split
        · refine wfAbove_mono h.2.2 fun l' e => ⟨a, rfl, ?_⟩
          exact le_of_lt (ha l' e)
        · rename_i hv
          rw [wfAbove_cons]
          exact ⟨ha, hv, h.2.2⟩
      · rename_i h1 h2
        rw [wfAbove_cons]
        refine ⟨h.1, h.2.1, ih h.2.2 fun l e => ?_⟩
        cases e
        omega

/-- Every write keeps the canonical form. -/
theorem wf_write {m : Memory} (h : wf m = true) (a : Nat) (v : Byte) : wf (write m a v) = true :=
  wfAbove_write h (by simp)

theorem read_write_of_wfAbove {m : Memory} {lo : Option Nat} (h : wfAbove lo m = true) (a b : Nat) (v : Byte) :
    read (write m a v) b = if b = a then v else read m b := by
  induction m generalizing lo with
  | nil =>
    by_cases hv : v = 0#8
    · subst hv; simp [write]
    · simp [write, hv, read]
  | cons c t ih =>
    obtain ⟨k, u⟩ := c
    rw [wfAbove_cons] at h
    have ih := ih h.2.2
    have hlow : ∀ x, x ≤ k → read t x = 0#8 := fun x hx => read_of_wfAbove h.2.2 hx
    by_cases hak : a < k
    · by_cases hv : v = 0#8
      · subst hv
        simp only [write, if_pos hak, if_true, read]
        by_cases hba : b = a
        · subst hba
          have : b ≠ k := by omega
          simp [this, hlow b (by omega)]
        · simp [hba]
      · simp only [write, if_pos hak, if_neg hv, read]
    · by_cases hk : a = k
      · subst hk
        by_cases hv : v = 0#8
        · subst hv
          simp only [write, lt_irrefl, if_false, if_true]
          by_cases hba : b = a
          · subst hba
            simp [hlow b le_rfl]
          · simp [read, hba]
        · simp only [write, lt_irrefl, if_false, if_true, if_neg hv, read]
          by_cases hba : b = a <;> simp [hba]
      · simp only [write, if_neg hak, if_neg hk, read, ih]
        by_cases hbk : b = k
        · subst hbk
          have : b ≠ a := fun e => hk e.symm
          simp [this]
        · simp [hbk]

/-- Read after write: the entry written reads the value written, every other entry reads as before. -/
theorem read_write {m : Memory} (h : wf m = true) (a b : Nat) (v : Byte) :
    read (write m a v) b = if b = a then v else read m b := read_write_of_wfAbove h a b v

/-- A write lists nothing but the entry written and what was listed before. -/
theorem mem_write {m : Memory} {a : Nat} {v : Byte} {c : Host.Cell} (h : c ∈ write m a v) : c = (a, v) ∨ c ∈ m := by
  induction m with
  | nil =>
    unfold write at h
    split at h <;> simp_all
  | cons d t ih =>
    obtain ⟨b, u⟩ := d
    unfold write at h
    split at h
    · split at h
      · exact .inr h
      · exact List.mem_cons.mp h
    · split at h
      · split at h
        · exact .inr (List.mem_cons_of_mem _ h)
        · rcases List.mem_cons.mp h with e | e
          · exact .inl e
          · exact .inr (List.mem_cons_of_mem _ e)
      · rcases List.mem_cons.mp h with e | e
        · exact .inr (e ▸ List.mem_cons_self)
        · exact (ih e).imp id (List.mem_cons_of_mem _)

theorem below_write {m : Memory} {n a : Nat} (h : below m n = true) (ha : a < n) (v : Byte) :
    below (write m a v) n = true := by
  rw [below, List.all_eq_true] at h ⊢
  intro c hc
  rcases mem_write hc with rfl | hc
  · simpa using ha
  · exact h c hc

theorem atMost_write {m : Memory} {n a : Nat} (h : atMost m n = true) {v : Byte} (hv : v.toNat ≤ n) :
    atMost (write m a v) n = true := by
  rw [atMost, List.all_eq_true] at h ⊢
  intro c hc
  rcases mem_write hc with rfl | hc
  · simpa using hv
  · exact h c hc

theorem read_le_of_atMost {m : Memory} {n : Nat} (h : atMost m n = true) (a : Nat) : (read m a).toNat ≤ n := by
  induction m with
  | nil => simp
  | cons c t ih =>
    obtain ⟨b, u⟩ := c
    simp only [atMost, List.all_cons, Bool.and_eq_true, decide_eq_true_eq] at h ih
    unfold read
    split
    · exact h.1
    · exact ih h.2

/-- An entry that does not exist reads 0. -/
theorem read_of_below {m : Memory} {n a : Nat} (h : below m n = true) (ha : n ≤ a) : read m a = 0#8 := by
  induction m with
  | nil => rfl
  | cons c t ih =>
    obtain ⟨b, u⟩ := c
    simp only [below, List.all_cons, Bool.and_eq_true, decide_eq_true_eq] at h ih
    have : a ≠ b := by omega
    simp only [read, if_neg this]
    exact ih h.2

theorem eq_of_read_of_wfAbove {m n : Memory} {lo lo' : Option Nat} (hm : wfAbove lo m = true)
    (hn : wfAbove lo' n = true) (h : ∀ a, read m a = read n a) : m = n := by
  induction m generalizing n lo lo' with
  | nil =>
    cases n with
    | nil => rfl
    | cons c t =>
      obtain ⟨b, u⟩ := c
      rw [wfAbove_cons] at hn
      have := h b
      simp only [read, if_true] at this
      exact absurd this.symm hn.2.1
  | cons c t ih =>
    obtain ⟨a, v⟩ := c
    rw [wfAbove_cons] at hm
    cases n with
    | nil =>
      have := h a
      simp only [read, if_true] at this
      exact absurd this hm.2.1
    | cons d r =>
      obtain ⟨b, u⟩ := d
      rw [wfAbove_cons] at hn
      have hab : a = b := by
        rcases lt_trichotomy a b with hlt | heq | hgt
        · have e := h a
          have : a ≠ b := by omega
          simp only [read, if_true, if_neg this, read_of_wfAbove hn.2.2 (le_of_lt hlt)] at e
          exact absurd e hm.2.1
        · exact heq
        · have e := h b
          have : b ≠ a := by omega
          simp only [read, if_true, if_neg this, read_of_wfAbove hm.2.2 (le_of_lt hgt)] at e
          exact absurd e.symm hn.2.1
      subst hab
      have huv : v = u := by simpa [read] using h a
      subst huv
      congr 1
      refine ih hm.2.2 hn.2.2 fun x => ?_
      by_cases hx : x = a
      · subst hx
        rw [read_of_wfAbove hm.2.2 le_rfl, read_of_wfAbove hn.2.2 le_rfl]
      · simpa [read, hx] using h x

/-- Two canonical memories that read alike are equal. -/
theorem eq_of_read {m n : Memory} (hm : wf m = true) (hn : wf n = true) (h : ∀ a, read m a = read n a) : m = n :=
  eq_of_read_of_wfAbove hm hn h

end Memory

/-! ### The bounded loop -/

@[simp] theorem loop_zero {α : Type} (f : Nat → α → α) (a : α) : loop 0 f a = a := rfl

theorem loop_succ {α : Type} (n : Nat) (f : Nat → α → α) (a : α) : loop (n + 1) f a = f n (loop n f a) := rfl

/-- What every round keeps, the loop keeps. -/
theorem loop_keeps {α : Type} {P : α → Prop} {n : Nat} {f : Nat → α → α} {a : α} (h0 : P a)
    (h : ∀ i, i < n → ∀ b, P b → P (f i b)) : P (loop n f a) := by
  induction n with
  | zero => exact h0
  | succ n ih => exact h n (by omega) _ (ih fun i hi => h i (by omega))

theorem loop_add {α : Type} (m n : Nat) (f : Nat → α → α) (a : α) :
    loop (m + n) f a = loop n (fun i => f (m + i)) (loop m f a) := by
  induction n with
  | zero => rfl
  | succ n ih => rw [← Nat.add_assoc, loop_succ, loop_succ, ih]

/-- Rounds of k rounds are one loop. -/
theorem loop_flatten {α : Type} (n k : Nat) (f : Nat → α → α) (a : α) :
    loop n (fun i => loop k fun j => f (k * i + j)) a = loop (k * n) f a := by
  induction n with
  | zero => rfl
  | succ n ih => rw [loop_succ, ih, Nat.mul_succ, loop_add]

theorem loop_congr {α : Type} {n : Nat} {f g : Nat → α → α} (h : ∀ i, i < n → f i = g i) (a : α) :
    loop n f a = loop n g a := by
  induction n with
  | zero => rfl
  | succ n ih => rw [loop_succ, loop_succ, ih fun i hi => h i (by omega), h n (by omega)]

/-- A loop that writes v i to entry i, i < n, leaves v there and every other entry as it was. -/
theorem wf_loop_write {m : Memory} (h : Memory.wf m = true) (n : Nat) (v : Nat → Byte) :
    Memory.wf (loop n (fun i m => Memory.write m i (v i)) m) = true :=
  loop_keeps (P := fun m => Memory.wf m = true) h fun i _ _ hb => Memory.wf_write hb i (v i)

theorem read_loop_write {m : Memory} (h : Memory.wf m = true) (n : Nat) (v : Nat → Byte) (a : Nat) :
    Memory.read (loop n (fun i m => Memory.write m i (v i)) m) a = if a < n then v a else Memory.read m a := by
  induction n with
  | zero => simp
  | succ n ih =>
    rw [loop_succ, Memory.read_write (wf_loop_write h n v), ih]
    by_cases e : a = n
    · subst e; simp
    · have : a < n + 1 ↔ a < n := by omega
      simp [e, this]

/-- Bit i of an OR-accumulated byte. -/
theorem getLsbD_bitsUpTo (n : Nat) (p : Nat → Bool) (i : Nat) :
    (bitsUpTo n p).getLsbD i = (decide (i < n) && decide (i < 8) && p i) := by
  unfold bitsUpTo
  induction n with
  | zero => simp
  | succ n ih =>
    rw [loop_succ]
    by_cases hi : i = n
    · subst hi
      cases hp : p i <;> by_cases h8 : i < 8 <;> simp_all
    · have : i < n + 1 ↔ i < n := by omega
      cases hp : p n
      · simp [ih, this]
      · simp only [if_true, BitVec.getLsbD_or, ih, BitVec.getLsbD_shiftLeft, this]
        by_cases h8 : i < 8 <;> by_cases hin : i < n <;> simp_all
        omega

theorem bitsUpTo_congr {n : Nat} {p q : Nat → Bool} (h : ∀ i, i < n → p i = q i) : bitsUpTo n p = bitsUpTo n q :=
  loop_congr (fun i hi => by simp [h i hi]) 0#8

/-- A byte whose bits n and above are 0 is below 2^n. -/
theorem toNat_bitsUpTo_lt (n : Nat) (p : Nat → Bool) : (bitsUpTo n p).toNat < 2 ^ n := by
  apply Nat.lt_pow_two_of_testBit
  intro i hi
  rw [← BitVec.getLsbD, getLsbD_bitsUpTo]
  have : ¬ i < n := by omega
  simp [this]

end Sys2Proof.Machine
end

