-- ==== Sys2Proof/Laws/State.lean ====
section
/-!
SUPPORT. One lemma per field per shared update of State, all by rfl (beginStall and setBp by cases), so that no proof
unfolds a record update.
-/

namespace Sys2Proof.Machine

/-! ### setIrq -/

@[simp] theorem setIrq_cfg (b : IrqBit) (s : State) : (setIrq b s).cfg = s.cfg := rfl
@[simp] theorem setIrq_pix (b : IrqBit) (s : State) : (setIrq b s).pix = s.pix := rfl
@[simp] theorem setIrq_errs (b : IrqBit) (s : State) : (setIrq b s).errs = s.errs := rfl
@[simp] theorem setIrq_qv (b : IrqBit) (s : State) : (setIrq b s).qv = s.qv := rfl
@[simp] theorem setIrq_bp0 (b : IrqBit) (s : State) : (setIrq b s).bp0 = s.bp0 := rfl
@[simp] theorem setIrq_bp1 (b : IrqBit) (s : State) : (setIrq b s).bp1 = s.bp1 := rfl
@[simp] theorem setIrq_sig (b : IrqBit) (s : State) : (setIrq b s).sig = s.sig := rfl
@[simp] theorem setIrq_submitPending (b : IrqBit) (s : State) : (setIrq b s).submitPending = s.submitPending := rfl
@[simp] theorem setIrq_fill (b : IrqBit) (s : State) : (setIrq b s).fill = s.fill := rfl
@[simp] theorem setIrq_txState (b : IrqBit) (s : State) : (setIrq b s).txState = s.txState := rfl
@[simp] theorem setIrq_txLed (b : IrqBit) (s : State) : (setIrq b s).txLed = s.txLed := rfl
@[simp] theorem setIrq_txBit (b : IrqBit) (s : State) : (setIrq b s).txBit = s.txBit := rfl
@[simp] theorem setIrq_txPhase (b : IrqBit) (s : State) : (setIrq b s).txPhase = s.txPhase := rfl
@[simp] theorem setIrq_timer (b : IrqBit) (s : State) : (setIrq b s).timer = s.timer := rfl
@[simp] theorem setIrq_frameCount (b : IrqBit) (s : State) : (setIrq b s).frameCount = s.frameCount := rfl
@[simp] theorem setIrq_irqStatus (b : IrqBit) (s : State) : (setIrq b s).irqStatus = s.irqStatus := rfl
@[simp] theorem setIrq_irqEnable (b : IrqBit) (s : State) : (setIrq b s).irqEnable = s.irqEnable := rfl
@[simp] theorem setIrq_errStatus (b : IrqBit) (s : State) : (setIrq b s).errStatus = s.errStatus := rfl
@[simp] theorem setIrq_errLast (b : IrqBit) (s : State) : (setIrq b s).errLast = s.errLast := rfl
@[simp] theorem setIrq_errInfo (b : IrqBit) (s : State) : (setIrq b s).errInfo = s.errInfo := rfl
@[simp] theorem setIrq_mapIn (b : IrqBit) (s : State) : (setIrq b s).mapIn = s.mapIn := rfl
@[simp] theorem setIrq_stall (b : IrqBit) (s : State) : (setIrq b s).stall = s.stall := rfl
@[simp] theorem setIrq_irqSet (b : IrqBit) (s : State) : (setIrq b s).irqSet = s.irqSet ||| b.mask := rfl
@[simp] theorem setIrq_irqClr (b : IrqBit) (s : State) : (setIrq b s).irqClr = s.irqClr := rfl
@[simp] theorem setIrq_errSet (b : IrqBit) (s : State) : (setIrq b s).errSet = s.errSet := rfl
@[simp] theorem setIrq_errClr (b : IrqBit) (s : State) : (setIrq b s).errClr = s.errClr := rfl
@[simp] theorem setIrq_dout (b : IrqBit) (s : State) : (setIrq b s).dout = s.dout := rfl
@[simp] theorem setIrq_readData (b : IrqBit) (s : State) : (setIrq b s).readData = s.readData := rfl
@[simp] theorem setIrq_cmdDraws (b : IrqBit) (s : State) : (setIrq b s).cmdDraws = s.cmdDraws := rfl
@[simp] theorem setIrq_drawCount (b : IrqBit) (s : State) : (setIrq b s).drawCount = s.drawCount := rfl
@[simp] theorem setIrq_env (b : IrqBit) (s : State) : (setIrq b s).env = s.env := rfl
@[simp] theorem setIrq_host (b : IrqBit) (s : State) : (setIrq b s).host = s.host := rfl

/-! ### raiseError -/

@[simp] theorem raiseError_cfg (e : ErrCode) (info : Word) (s : State) : (raiseError e info s).cfg = s.cfg := rfl
@[simp] theorem raiseError_pix (e : ErrCode) (info : Word) (s : State) : (raiseError e info s).pix = s.pix := rfl
@[simp] theorem raiseError_errs (e : ErrCode) (info : Word) (s : State) : (raiseError e info s).errs = s.errs := rfl
@[simp] theorem raiseError_qv (e : ErrCode) (info : Word) (s : State) : (raiseError e info s).qv = s.qv := rfl
@[simp] theorem raiseError_bp0 (e : ErrCode) (info : Word) (s : State) : (raiseError e info s).bp0 = s.bp0 := rfl
@[simp] theorem raiseError_bp1 (e : ErrCode) (info : Word) (s : State) : (raiseError e info s).bp1 = s.bp1 := rfl
@[simp] theorem raiseError_sig (e : ErrCode) (info : Word) (s : State) : (raiseError e info s).sig = s.sig := rfl
@[simp] theorem raiseError_submitPending (e : ErrCode) (info : Word) (s : State) : (raiseError e info s).submitPending = s.submitPending := rfl
@[simp] theorem raiseError_fill (e : ErrCode) (info : Word) (s : State) : (raiseError e info s).fill = s.fill := rfl
@[simp] theorem raiseError_txState (e : ErrCode) (info : Word) (s : State) : (raiseError e info s).txState = s.txState := rfl
@[simp] theorem raiseError_txLed (e : ErrCode) (info : Word) (s : State) : (raiseError e info s).txLed = s.txLed := rfl
@[simp] theorem raiseError_txBit (e : ErrCode) (info : Word) (s : State) : (raiseError e info s).txBit = s.txBit := rfl
@[simp] theorem raiseError_txPhase (e : ErrCode) (info : Word) (s : State) : (raiseError e info s).txPhase = s.txPhase := rfl
@[simp] theorem raiseError_timer (e : ErrCode) (info : Word) (s : State) : (raiseError e info s).timer = s.timer := rfl
@[simp] theorem raiseError_frameCount (e : ErrCode) (info : Word) (s : State) : (raiseError e info s).frameCount = s.frameCount := rfl
@[simp] theorem raiseError_irqStatus (e : ErrCode) (info : Word) (s : State) : (raiseError e info s).irqStatus = s.irqStatus := rfl
@[simp] theorem raiseError_irqEnable (e : ErrCode) (info : Word) (s : State) : (raiseError e info s).irqEnable = s.irqEnable := rfl
@[simp] theorem raiseError_errStatus (e : ErrCode) (info : Word) (s : State) : (raiseError e info s).errStatus = s.errStatus := rfl
@[simp] theorem raiseError_errLast (e : ErrCode) (info : Word) (s : State) : (raiseError e info s).errLast = 0x80000000 ||| e.code := rfl
@[simp] theorem raiseError_errInfo (e : ErrCode) (info : Word) (s : State) : (raiseError e info s).errInfo = info := rfl
@[simp] theorem raiseError_mapIn (e : ErrCode) (info : Word) (s : State) : (raiseError e info s).mapIn = s.mapIn := rfl
@[simp] theorem raiseError_stall (e : ErrCode) (info : Word) (s : State) : (raiseError e info s).stall = s.stall := rfl
@[simp] theorem raiseError_irqSet (e : ErrCode) (info : Word) (s : State) : (raiseError e info s).irqSet = s.irqSet ||| IrqBit.error.mask := rfl
@[simp] theorem raiseError_irqClr (e : ErrCode) (info : Word) (s : State) : (raiseError e info s).irqClr = s.irqClr := rfl
@[simp] theorem raiseError_errSet (e : ErrCode) (info : Word) (s : State) : (raiseError e info s).errSet = s.errSet ||| e.mask := rfl
@[simp] theorem raiseError_errClr (e : ErrCode) (info : Word) (s : State) : (raiseError e info s).errClr = s.errClr := rfl
@[simp] theorem raiseError_dout (e : ErrCode) (info : Word) (s : State) : (raiseError e info s).dout = s.dout := rfl
@[simp] theorem raiseError_readData (e : ErrCode) (info : Word) (s : State) : (raiseError e info s).readData = s.readData := rfl
@[simp] theorem raiseError_cmdDraws (e : ErrCode) (info : Word) (s : State) : (raiseError e info s).cmdDraws = s.cmdDraws := rfl
@[simp] theorem raiseError_drawCount (e : ErrCode) (info : Word) (s : State) : (raiseError e info s).drawCount = s.drawCount := rfl
@[simp] theorem raiseError_env (e : ErrCode) (info : Word) (s : State) : (raiseError e info s).env = s.env := rfl
@[simp] theorem raiseError_host (e : ErrCode) (info : Word) (s : State) : (raiseError e info s).host = s.host := rfl

/-! ### accept -/

@[simp] theorem accept_cfg (s : State) : (accept s).cfg = s.cfg := rfl
@[simp] theorem accept_pix (s : State) : (accept s).pix = s.pix := rfl
@[simp] theorem accept_errs (s : State) : (accept s).errs = s.errs := rfl
@[simp] theorem accept_qv (s : State) : (accept s).qv = s.qv := rfl
@[simp] theorem accept_bp0 (s : State) : (accept s).bp0 = s.bp0 := rfl
@[simp] theorem accept_bp1 (s : State) : (accept s).bp1 = s.bp1 := rfl
@[simp] theorem accept_sig (s : State) : (accept s).sig = false := rfl
@[simp] theorem accept_submitPending (s : State) : (accept s).submitPending = s.submitPending := rfl
@[simp] theorem accept_fill (s : State) : (accept s).fill = !s.fill := rfl
@[simp] theorem accept_txState (s : State) : (accept s).txState = .transmitting := rfl
@[simp] theorem accept_txLed (s : State) : (accept s).txLed = 0 := rfl
@[simp] theorem accept_txBit (s : State) : (accept s).txBit = 0 := rfl
@[simp] theorem accept_txPhase (s : State) : (accept s).txPhase = 0 := rfl
@[simp] theorem accept_timer (s : State) : (accept s).timer = s.timer := rfl
@[simp] theorem accept_frameCount (s : State) : (accept s).frameCount = s.frameCount + 1 := rfl
@[simp] theorem accept_irqStatus (s : State) : (accept s).irqStatus = s.irqStatus := rfl
@[simp] theorem accept_irqEnable (s : State) : (accept s).irqEnable = s.irqEnable := rfl
@[simp] theorem accept_errStatus (s : State) : (accept s).errStatus = s.errStatus := rfl
@[simp] theorem accept_errLast (s : State) : (accept s).errLast = s.errLast := rfl
@[simp] theorem accept_errInfo (s : State) : (accept s).errInfo = s.errInfo := rfl
@[simp] theorem accept_mapIn (s : State) : (accept s).mapIn = s.mapIn := rfl
@[simp] theorem accept_stall (s : State) : (accept s).stall = s.stall := rfl
@[simp] theorem accept_irqSet (s : State) : (accept s).irqSet = s.irqSet ||| IrqBit.fillable.mask := rfl
@[simp] theorem accept_irqClr (s : State) : (accept s).irqClr = s.irqClr := rfl
@[simp] theorem accept_errSet (s : State) : (accept s).errSet = s.errSet := rfl
@[simp] theorem accept_errClr (s : State) : (accept s).errClr = s.errClr := rfl
@[simp] theorem accept_dout (s : State) : (accept s).dout = s.dout := rfl
@[simp] theorem accept_readData (s : State) : (accept s).readData = s.readData := rfl
@[simp] theorem accept_cmdDraws (s : State) : (accept s).cmdDraws = s.cmdDraws := rfl
@[simp] theorem accept_drawCount (s : State) : (accept s).drawCount = s.drawCount := rfl
@[simp] theorem accept_env (s : State) : (accept s).env = s.env := rfl
@[simp] theorem accept_host (s : State) : (accept s).host = s.host := rfl

/-! ### dmaComplete -/

@[simp] theorem dmaComplete_cfg (s : State) : (dmaComplete s).cfg = s.cfg := rfl
@[simp] theorem dmaComplete_pix (s : State) : (dmaComplete s).pix = s.pix := rfl
@[simp] theorem dmaComplete_errs (s : State) : (dmaComplete s).errs = s.errs := rfl
@[simp] theorem dmaComplete_qv (s : State) : (dmaComplete s).qv = s.qv := rfl
@[simp] theorem dmaComplete_bp0 (s : State) : (dmaComplete s).bp0 = s.bp0 := rfl
@[simp] theorem dmaComplete_bp1 (s : State) : (dmaComplete s).bp1 = s.bp1 := rfl
@[simp] theorem dmaComplete_sig (s : State) : (dmaComplete s).sig = s.sig := rfl
@[simp] theorem dmaComplete_submitPending (s : State) : (dmaComplete s).submitPending = s.submitPending := rfl
@[simp] theorem dmaComplete_fill (s : State) : (dmaComplete s).fill = s.fill := rfl
@[simp] theorem dmaComplete_txState (s : State) : (dmaComplete s).txState = .resetWait := rfl
@[simp] theorem dmaComplete_txLed (s : State) : (dmaComplete s).txLed = 0 := rfl
@[simp] theorem dmaComplete_txBit (s : State) : (dmaComplete s).txBit = 0 := rfl
@[simp] theorem dmaComplete_txPhase (s : State) : (dmaComplete s).txPhase = 0 := rfl
@[simp] theorem dmaComplete_timer (s : State) : (dmaComplete s).timer = BitVec.ofNat 32 s.cfg.resetTicks := rfl
@[simp] theorem dmaComplete_frameCount (s : State) : (dmaComplete s).frameCount = s.frameCount := rfl
@[simp] theorem dmaComplete_irqStatus (s : State) : (dmaComplete s).irqStatus = s.irqStatus := rfl
@[simp] theorem dmaComplete_irqEnable (s : State) : (dmaComplete s).irqEnable = s.irqEnable := rfl
@[simp] theorem dmaComplete_errStatus (s : State) : (dmaComplete s).errStatus = s.errStatus := rfl
@[simp] theorem dmaComplete_errLast (s : State) : (dmaComplete s).errLast = s.errLast := rfl
@[simp] theorem dmaComplete_errInfo (s : State) : (dmaComplete s).errInfo = s.errInfo := rfl
@[simp] theorem dmaComplete_mapIn (s : State) : (dmaComplete s).mapIn = s.mapIn := rfl
@[simp] theorem dmaComplete_stall (s : State) : (dmaComplete s).stall = s.stall := rfl
@[simp] theorem dmaComplete_irqSet (s : State) : (dmaComplete s).irqSet = s.irqSet ||| IrqBit.txDone.mask := rfl
@[simp] theorem dmaComplete_irqClr (s : State) : (dmaComplete s).irqClr = s.irqClr := rfl
@[simp] theorem dmaComplete_errSet (s : State) : (dmaComplete s).errSet = s.errSet := rfl
@[simp] theorem dmaComplete_errClr (s : State) : (dmaComplete s).errClr = s.errClr := rfl
@[simp] theorem dmaComplete_dout (s : State) : (dmaComplete s).dout = s.dout := rfl
@[simp] theorem dmaComplete_readData (s : State) : (dmaComplete s).readData = s.readData := rfl
@[simp] theorem dmaComplete_cmdDraws (s : State) : (dmaComplete s).cmdDraws = s.cmdDraws := rfl
@[simp] theorem dmaComplete_drawCount (s : State) : (dmaComplete s).drawCount = s.drawCount := rfl
@[simp] theorem dmaComplete_env (s : State) : (dmaComplete s).env = s.env := rfl
@[simp] theorem dmaComplete_host (s : State) : (dmaComplete s).host = s.host := rfl

/-! ### endTick -/

@[simp] theorem endTick_cfg (s : State) : (endTick s).cfg = s.cfg := rfl
@[simp] theorem endTick_pix (s : State) : (endTick s).pix = s.pix := rfl
@[simp] theorem endTick_errs (s : State) : (endTick s).errs = s.errs := rfl
@[simp] theorem endTick_qv (s : State) : (endTick s).qv = s.qv := rfl
@[simp] theorem endTick_bp0 (s : State) : (endTick s).bp0 = s.bp0 := rfl
@[simp] theorem endTick_bp1 (s : State) : (endTick s).bp1 = s.bp1 := rfl
@[simp] theorem endTick_sig (s : State) : (endTick s).sig = s.sig := rfl
@[simp] theorem endTick_submitPending (s : State) : (endTick s).submitPending = s.submitPending := rfl
@[simp] theorem endTick_fill (s : State) : (endTick s).fill = s.fill := rfl
@[simp] theorem endTick_txState (s : State) : (endTick s).txState = s.txState := rfl
@[simp] theorem endTick_txLed (s : State) : (endTick s).txLed = s.txLed := rfl
@[simp] theorem endTick_txBit (s : State) : (endTick s).txBit = s.txBit := rfl
@[simp] theorem endTick_txPhase (s : State) : (endTick s).txPhase = s.txPhase := rfl
@[simp] theorem endTick_timer (s : State) : (endTick s).timer = s.timer := rfl
@[simp] theorem endTick_frameCount (s : State) : (endTick s).frameCount = s.frameCount := rfl
@[simp] theorem endTick_irqStatus (s : State) : (endTick s).irqStatus = updateEvents s.irqStatus s.irqClr s.irqSet := rfl
@[simp] theorem endTick_irqEnable (s : State) : (endTick s).irqEnable = s.irqEnable := rfl
@[simp] theorem endTick_errStatus (s : State) : (endTick s).errStatus = updateEvents s.errStatus s.errClr s.errSet := rfl
@[simp] theorem endTick_errLast (s : State) : (endTick s).errLast = s.errLast := rfl
@[simp] theorem endTick_errInfo (s : State) : (endTick s).errInfo = s.errInfo := rfl
@[simp] theorem endTick_mapIn (s : State) : (endTick s).mapIn = s.mapIn := rfl
@[simp] theorem endTick_stall (s : State) : (endTick s).stall = s.stall := rfl
@[simp] theorem endTick_irqSet (s : State) : (endTick s).irqSet = 0 := rfl
@[simp] theorem endTick_irqClr (s : State) : (endTick s).irqClr = 0 := rfl
@[simp] theorem endTick_errSet (s : State) : (endTick s).errSet = 0 := rfl
@[simp] theorem endTick_errClr (s : State) : (endTick s).errClr = 0 := rfl
@[simp] theorem endTick_dout (s : State) : (endTick s).dout = s.dout := rfl
@[simp] theorem endTick_readData (s : State) : (endTick s).readData = s.readData := rfl
@[simp] theorem endTick_cmdDraws (s : State) : (endTick s).cmdDraws = s.cmdDraws := rfl
@[simp] theorem endTick_drawCount (s : State) : (endTick s).drawCount = s.drawCount := rfl
@[simp] theorem endTick_env (s : State) : (endTick s).env = s.env := rfl
@[simp] theorem endTick_host (s : State) : (endTick s).host = s.host := rfl

/-! ### beginTick -/

@[simp] theorem beginTick_cfg (s : State) : (beginTick s).cfg = s.cfg := rfl
@[simp] theorem beginTick_pix (s : State) : (beginTick s).pix = s.pix := rfl
@[simp] theorem beginTick_errs (s : State) : (beginTick s).errs = s.errs := rfl
@[simp] theorem beginTick_qv (s : State) : (beginTick s).qv = s.qv := rfl
@[simp] theorem beginTick_bp0 (s : State) : (beginTick s).bp0 = s.bp0 := rfl
@[simp] theorem beginTick_bp1 (s : State) : (beginTick s).bp1 = s.bp1 := rfl
@[simp] theorem beginTick_sig (s : State) : (beginTick s).sig = s.sig := rfl
@[simp] theorem beginTick_submitPending (s : State) : (beginTick s).submitPending = s.submitPending := rfl
@[simp] theorem beginTick_fill (s : State) : (beginTick s).fill = s.fill := rfl
@[simp] theorem beginTick_txState (s : State) : (beginTick s).txState = s.txState := rfl
@[simp] theorem beginTick_txLed (s : State) : (beginTick s).txLed = s.txLed := rfl
@[simp] theorem beginTick_txBit (s : State) : (beginTick s).txBit = s.txBit := rfl
@[simp] theorem beginTick_txPhase (s : State) : (beginTick s).txPhase = s.txPhase := rfl
@[simp] theorem beginTick_timer (s : State) : (beginTick s).timer = s.timer := rfl
@[simp] theorem beginTick_frameCount (s : State) : (beginTick s).frameCount = s.frameCount := rfl
@[simp] theorem beginTick_irqStatus (s : State) : (beginTick s).irqStatus = s.irqStatus := rfl
@[simp] theorem beginTick_irqEnable (s : State) : (beginTick s).irqEnable = s.irqEnable := rfl
@[simp] theorem beginTick_errStatus (s : State) : (beginTick s).errStatus = s.errStatus := rfl
@[simp] theorem beginTick_errLast (s : State) : (beginTick s).errLast = s.errLast := rfl
@[simp] theorem beginTick_errInfo (s : State) : (beginTick s).errInfo = s.errInfo := rfl
@[simp] theorem beginTick_mapIn (s : State) : (beginTick s).mapIn = s.mapIn := rfl
@[simp] theorem beginTick_stall (s : State) : (beginTick s).stall = s.stall := rfl
@[simp] theorem beginTick_irqSet (s : State) : (beginTick s).irqSet = s.irqSet := rfl
@[simp] theorem beginTick_irqClr (s : State) : (beginTick s).irqClr = s.irqClr := rfl
@[simp] theorem beginTick_errSet (s : State) : (beginTick s).errSet = s.errSet := rfl
@[simp] theorem beginTick_errClr (s : State) : (beginTick s).errClr = s.errClr := rfl
@[simp] theorem beginTick_dout (s : State) : (beginTick s).dout = s.dout := rfl
@[simp] theorem beginTick_readData (s : State) : (beginTick s).readData = none := rfl
@[simp] theorem beginTick_cmdDraws (s : State) : (beginTick s).cmdDraws = s.cmdDraws := rfl
@[simp] theorem beginTick_drawCount (s : State) : (beginTick s).drawCount = s.drawCount := rfl
@[simp] theorem beginTick_env (s : State) : (beginTick s).env = s.env.tail := rfl
@[simp] theorem beginTick_host (s : State) : (beginTick s).host = s.host := rfl

/-! ### beginStall -/

@[simp] theorem beginStall_cfg (s : State) : (beginStall s).cfg = s.cfg := by unfold beginStall; split <;> rfl
@[simp] theorem beginStall_pix (s : State) : (beginStall s).pix = s.pix := by unfold beginStall; split <;> rfl
@[simp] theorem beginStall_errs (s : State) : (beginStall s).errs = s.errs := by unfold beginStall; split <;> rfl
@[simp] theorem beginStall_qv (s : State) : (beginStall s).qv = s.qv := by unfold beginStall; split <;> rfl
@[simp] theorem beginStall_bp0 (s : State) : (beginStall s).bp0 = s.bp0 := by unfold beginStall; split <;> rfl
@[simp] theorem beginStall_bp1 (s : State) : (beginStall s).bp1 = s.bp1 := by unfold beginStall; split <;> rfl
@[simp] theorem beginStall_sig (s : State) : (beginStall s).sig = s.sig := by unfold beginStall; split <;> rfl
@[simp] theorem beginStall_submitPending (s : State) : (beginStall s).submitPending = s.submitPending := by unfold beginStall; split <;> rfl
@[simp] theorem beginStall_fill (s : State) : (beginStall s).fill = s.fill := by unfold beginStall; split <;> rfl
@[simp] theorem beginStall_txState (s : State) : (beginStall s).txState = s.txState := by unfold beginStall; split <;> rfl
@[simp] theorem beginStall_txLed (s : State) : (beginStall s).txLed = s.txLed := by unfold beginStall; split <;> rfl
@[simp] theorem beginStall_txBit (s : State) : (beginStall s).txBit = s.txBit := by unfold beginStall; split <;> rfl
@[simp] theorem beginStall_txPhase (s : State) : (beginStall s).txPhase = s.txPhase := by unfold beginStall; split <;> rfl
@[simp] theorem beginStall_timer (s : State) : (beginStall s).timer = s.timer := by unfold beginStall; split <;> rfl
@[simp] theorem beginStall_frameCount (s : State) : (beginStall s).frameCount = s.frameCount := by unfold beginStall; split <;> rfl
@[simp] theorem beginStall_irqStatus (s : State) : (beginStall s).irqStatus = s.irqStatus := by unfold beginStall; split <;> rfl
@[simp] theorem beginStall_irqEnable (s : State) : (beginStall s).irqEnable = s.irqEnable := by unfold beginStall; split <;> rfl
@[simp] theorem beginStall_errStatus (s : State) : (beginStall s).errStatus = s.errStatus := by unfold beginStall; split <;> rfl
@[simp] theorem beginStall_errLast (s : State) : (beginStall s).errLast = s.errLast := by unfold beginStall; split <;> rfl
@[simp] theorem beginStall_errInfo (s : State) : (beginStall s).errInfo = s.errInfo := by unfold beginStall; split <;> rfl
@[simp] theorem beginStall_mapIn (s : State) : (beginStall s).mapIn = s.mapIn := by unfold beginStall; split <;> rfl
@[simp] theorem beginStall_irqSet (s : State) : (beginStall s).irqSet = s.irqSet := by unfold beginStall; split <;> rfl
@[simp] theorem beginStall_irqClr (s : State) : (beginStall s).irqClr = s.irqClr := by unfold beginStall; split <;> rfl
@[simp] theorem beginStall_errSet (s : State) : (beginStall s).errSet = s.errSet := by unfold beginStall; split <;> rfl
@[simp] theorem beginStall_errClr (s : State) : (beginStall s).errClr = s.errClr := by unfold beginStall; split <;> rfl
@[simp] theorem beginStall_dout (s : State) : (beginStall s).dout = s.dout := by unfold beginStall; split <;> rfl
@[simp] theorem beginStall_readData (s : State) : (beginStall s).readData = s.readData := by unfold beginStall; split <;> rfl
@[simp] theorem beginStall_env (s : State) : (beginStall s).env = s.env := by unfold beginStall; split <;> rfl
@[simp] theorem beginStall_host (s : State) : (beginStall s).host = s.host := by unfold beginStall; split <;> rfl

/-! ### setBp -/

@[simp] theorem setBp_cfg (s : State) (b : Bool) (m : Memory) : (s.setBp b m).cfg = s.cfg := by cases b <;> rfl
@[simp] theorem setBp_pix (s : State) (b : Bool) (m : Memory) : (s.setBp b m).pix = s.pix := by cases b <;> rfl
@[simp] theorem setBp_errs (s : State) (b : Bool) (m : Memory) : (s.setBp b m).errs = s.errs := by cases b <;> rfl
@[simp] theorem setBp_qv (s : State) (b : Bool) (m : Memory) : (s.setBp b m).qv = s.qv := by cases b <;> rfl
@[simp] theorem setBp_sig (s : State) (b : Bool) (m : Memory) : (s.setBp b m).sig = s.sig := by cases b <;> rfl
@[simp] theorem setBp_submitPending (s : State) (b : Bool) (m : Memory) : (s.setBp b m).submitPending = s.submitPending := by cases b <;> rfl
@[simp] theorem setBp_fill (s : State) (b : Bool) (m : Memory) : (s.setBp b m).fill = s.fill := by cases b <;> rfl
@[simp] theorem setBp_txState (s : State) (b : Bool) (m : Memory) : (s.setBp b m).txState = s.txState := by cases b <;> rfl
@[simp] theorem setBp_txLed (s : State) (b : Bool) (m : Memory) : (s.setBp b m).txLed = s.txLed := by cases b <;> rfl
@[simp] theorem setBp_txBit (s : State) (b : Bool) (m : Memory) : (s.setBp b m).txBit = s.txBit := by cases b <;> rfl
@[simp] theorem setBp_txPhase (s : State) (b : Bool) (m : Memory) : (s.setBp b m).txPhase = s.txPhase := by cases b <;> rfl
@[simp] theorem setBp_timer (s : State) (b : Bool) (m : Memory) : (s.setBp b m).timer = s.timer := by cases b <;> rfl
@[simp] theorem setBp_frameCount (s : State) (b : Bool) (m : Memory) : (s.setBp b m).frameCount = s.frameCount := by cases b <;> rfl
@[simp] theorem setBp_irqStatus (s : State) (b : Bool) (m : Memory) : (s.setBp b m).irqStatus = s.irqStatus := by cases b <;> rfl
@[simp] theorem setBp_irqEnable (s : State) (b : Bool) (m : Memory) : (s.setBp b m).irqEnable = s.irqEnable := by cases b <;> rfl
@[simp] theorem setBp_errStatus (s : State) (b : Bool) (m : Memory) : (s.setBp b m).errStatus = s.errStatus := by cases b <;> rfl
@[simp] theorem setBp_errLast (s : State) (b : Bool) (m : Memory) : (s.setBp b m).errLast = s.errLast := by cases b <;> rfl
@[simp] theorem setBp_errInfo (s : State) (b : Bool) (m : Memory) : (s.setBp b m).errInfo = s.errInfo := by cases b <;> rfl
@[simp] theorem setBp_mapIn (s : State) (b : Bool) (m : Memory) : (s.setBp b m).mapIn = s.mapIn := by cases b <;> rfl
@[simp] theorem setBp_stall (s : State) (b : Bool) (m : Memory) : (s.setBp b m).stall = s.stall := by cases b <;> rfl
@[simp] theorem setBp_irqSet (s : State) (b : Bool) (m : Memory) : (s.setBp b m).irqSet = s.irqSet := by cases b <;> rfl
@[simp] theorem setBp_irqClr (s : State) (b : Bool) (m : Memory) : (s.setBp b m).irqClr = s.irqClr := by cases b <;> rfl
@[simp] theorem setBp_errSet (s : State) (b : Bool) (m : Memory) : (s.setBp b m).errSet = s.errSet := by cases b <;> rfl
@[simp] theorem setBp_errClr (s : State) (b : Bool) (m : Memory) : (s.setBp b m).errClr = s.errClr := by cases b <;> rfl
@[simp] theorem setBp_dout (s : State) (b : Bool) (m : Memory) : (s.setBp b m).dout = s.dout := by cases b <;> rfl
@[simp] theorem setBp_readData (s : State) (b : Bool) (m : Memory) : (s.setBp b m).readData = s.readData := by cases b <;> rfl
@[simp] theorem setBp_cmdDraws (s : State) (b : Bool) (m : Memory) : (s.setBp b m).cmdDraws = s.cmdDraws := by cases b <;> rfl
@[simp] theorem setBp_drawCount (s : State) (b : Bool) (m : Memory) : (s.setBp b m).drawCount = s.drawCount := by cases b <;> rfl
@[simp] theorem setBp_env (s : State) (b : Bool) (m : Memory) : (s.setBp b m).env = s.env := by cases b <;> rfl
@[simp] theorem setBp_host (s : State) (b : Bool) (m : Memory) : (s.setBp b m).host = s.host := by cases b <;> rfl

@[simp] theorem setBp_bp (s : State) (b : Bool) (m : Memory) : (s.setBp b m).bp b = m := by cases b <;> rfl

@[simp] theorem setBp_bp_not (s : State) (b : Bool) (m : Memory) : (s.setBp b m).bp (!b) = s.bp (!b) := by cases b <;> rfl

@[simp] theorem bp_true (s : State) : s.bp true = s.bp1 := rfl

@[simp] theorem bp_false (s : State) : s.bp false = s.bp0 := rfl

/-! ### setPixel -/

@[simp] theorem setPixel_cfg (p : Nat) (v : Word) (s : State) : (setPixel p v s).cfg = s.cfg := rfl
@[simp] theorem setPixel_errs (p : Nat) (v : Word) (s : State) : (setPixel p v s).errs = s.errs := rfl
@[simp] theorem setPixel_qv (p : Nat) (v : Word) (s : State) : (setPixel p v s).qv = s.qv := rfl
@[simp] theorem setPixel_bp0 (p : Nat) (v : Word) (s : State) : (setPixel p v s).bp0 = s.bp0 := rfl
@[simp] theorem setPixel_bp1 (p : Nat) (v : Word) (s : State) : (setPixel p v s).bp1 = s.bp1 := rfl
@[simp] theorem setPixel_sig (p : Nat) (v : Word) (s : State) : (setPixel p v s).sig = s.sig := rfl
@[simp] theorem setPixel_submitPending (p : Nat) (v : Word) (s : State) : (setPixel p v s).submitPending = s.submitPending := rfl
@[simp] theorem setPixel_fill (p : Nat) (v : Word) (s : State) : (setPixel p v s).fill = s.fill := rfl
@[simp] theorem setPixel_txState (p : Nat) (v : Word) (s : State) : (setPixel p v s).txState = s.txState := rfl
@[simp] theorem setPixel_txLed (p : Nat) (v : Word) (s : State) : (setPixel p v s).txLed = s.txLed := rfl
@[simp] theorem setPixel_txBit (p : Nat) (v : Word) (s : State) : (setPixel p v s).txBit = s.txBit := rfl
@[simp] theorem setPixel_txPhase (p : Nat) (v : Word) (s : State) : (setPixel p v s).txPhase = s.txPhase := rfl
@[simp] theorem setPixel_timer (p : Nat) (v : Word) (s : State) : (setPixel p v s).timer = s.timer := rfl
@[simp] theorem setPixel_frameCount (p : Nat) (v : Word) (s : State) : (setPixel p v s).frameCount = s.frameCount := rfl
@[simp] theorem setPixel_irqStatus (p : Nat) (v : Word) (s : State) : (setPixel p v s).irqStatus = s.irqStatus := rfl
@[simp] theorem setPixel_irqEnable (p : Nat) (v : Word) (s : State) : (setPixel p v s).irqEnable = s.irqEnable := rfl
@[simp] theorem setPixel_errStatus (p : Nat) (v : Word) (s : State) : (setPixel p v s).errStatus = s.errStatus := rfl
@[simp] theorem setPixel_errLast (p : Nat) (v : Word) (s : State) : (setPixel p v s).errLast = s.errLast := rfl
@[simp] theorem setPixel_errInfo (p : Nat) (v : Word) (s : State) : (setPixel p v s).errInfo = s.errInfo := rfl
@[simp] theorem setPixel_mapIn (p : Nat) (v : Word) (s : State) : (setPixel p v s).mapIn = s.mapIn := rfl
@[simp] theorem setPixel_stall (p : Nat) (v : Word) (s : State) : (setPixel p v s).stall = s.stall := rfl
@[simp] theorem setPixel_irqSet (p : Nat) (v : Word) (s : State) : (setPixel p v s).irqSet = s.irqSet := rfl
@[simp] theorem setPixel_irqClr (p : Nat) (v : Word) (s : State) : (setPixel p v s).irqClr = s.irqClr := rfl
@[simp] theorem setPixel_errSet (p : Nat) (v : Word) (s : State) : (setPixel p v s).errSet = s.errSet := rfl
@[simp] theorem setPixel_errClr (p : Nat) (v : Word) (s : State) : (setPixel p v s).errClr = s.errClr := rfl
@[simp] theorem setPixel_dout (p : Nat) (v : Word) (s : State) : (setPixel p v s).dout = s.dout := rfl
@[simp] theorem setPixel_readData (p : Nat) (v : Word) (s : State) : (setPixel p v s).readData = s.readData := rfl
@[simp] theorem setPixel_cmdDraws (p : Nat) (v : Word) (s : State) : (setPixel p v s).cmdDraws = s.cmdDraws := rfl
@[simp] theorem setPixel_drawCount (p : Nat) (v : Word) (s : State) : (setPixel p v s).drawCount = s.drawCount := rfl
@[simp] theorem setPixel_env (p : Nat) (v : Word) (s : State) : (setPixel p v s).env = s.env := rfl
@[simp] theorem setPixel_host (p : Nat) (v : Word) (s : State) : (setPixel p v s).host = s.host := rfl

/-! ### andThen -/

@[simp] theorem andThen_next (s : State) (f : State → Host.Outcome State Fault Refusal) : andThen (.next s) f = f s := rfl

@[simp] theorem andThen_fault (r : Fault) (f : State → Host.Outcome State Fault Refusal) :
    andThen (.fault r) f = .fault r := rfl

@[simp] theorem andThen_refused (r : Refusal) (f : State → Host.Outcome State Fault Refusal) :
    andThen (.refused r) f = .refused r := rfl

/-- A sequence gives a next state exactly when both its parts do. -/
theorem andThen_eq_next {o : Host.Outcome State Fault Refusal} {f : State → Host.Outcome State Fault Refusal} {t : State} :
    andThen o f = .next t ↔ ∃ s, o = .next s ∧ f s = .next t := by
  cases o <;> simp [andThen]

end Sys2Proof.Machine
end

