-- ==== Sys2Proof/Laws/Commands.lean ====
section
/-!
SUPPORT. What the loops of CLEAR, PROCESS and ENCODE leave in the memories, entry by entry, said once.
-/

namespace Sys2Proof.Machine

/-! ### Entries -/

@[simp] theorem chanKey_ofIndex {p i : Nat} (h : i < 3) : chanKey p (Channel.ofIndex i) = 3 * p + i := by
  interval_cases i <;> rfl

theorem chanKey_lt {p n : Nat} (h : p < n) (c : Channel) : chanKey p c < 3 * n := by
  cases c <;> simp [chanKey, Channel.index] <;> omega

theorem planeKey_lt {led n k : Nat} (h : led < n) (hk : k < 24) : planeKey led k < 24 * n := by
  unfold planeKey; omega

/-! ### CLEAR -/

/-- CLEAR is one loop of writes of 0. -/
theorem clear_eq_loop (n : Nat) (m : Memory) :
    loop n clearPixel m = loop (3 * n) (fun a m => Memory.write m a 0#8) m := by
  rw [← loop_flatten]
  rfl

/-! ### PROCESS -/

/-- The value of a channel after the optional gamma step (R171). -/
def gammaValue (c : Config) (g : Bool) (v : Byte) : Byte := if g then gammaStep c v else v

/-- PROCESS is one loop over the entries. -/
theorem processAll_eq_loop (c : Config) (g d : Bool) (m : ColorMem) :
    processAll c g d m = loop (3 * c.numPix) (processEntry c g d) m := by
  unfold processAll
  rw [← loop_flatten]
  refine loop_congr (fun p _ => ?_) m
  funext m'
  exact loop_congr (fun i hi => by rw [chanKey_ofIndex hi]) m'

/-- The three memories of PROCESS are in canonical form. -/
abbrev ColorMem.wf (m : ColorMem) : Prop := Memory.wf m.pix = true ∧ Memory.wf m.errs = true ∧ Memory.wf m.qv = true

theorem processEntry_wf {m : ColorMem} (h : m.wf) (c : Config) (g d : Bool) (a : Nat) : (processEntry c g d a m).wf := by
  cases d <;> simp [processEntry, ColorMem.wf, Memory.wf_write, h.1, h.2.1, h.2.2]

theorem processLoop_wf {m : ColorMem} (h : m.wf) (c : Config) (g d : Bool) (n : Nat) :
    (loop n (processEntry c g d) m).wf := loop_keeps h fun i _ _ hb => processEntry_wf hb c g d i

/-- What PROCESS leaves at every entry: the processed channel below n, the old entry from n on. -/
theorem processLoop_read {m : ColorMem} (h : m.wf) (c : Config) (g d : Bool) (n a : Nat) :
    let r := loop n (processEntry c g d) m
    let v := gammaValue c g (Memory.read m.pix a)
    let x := ditherStep v ((Memory.read m.errs a).getLsbD 0)
    (Memory.read r.pix a = if a < n then (if d then x.out else v) else Memory.read m.pix a) ∧
      (Memory.read r.errs a = if a < n ∧ d = true then errByte x.err else Memory.read m.errs a) ∧
      (Memory.read r.qv a = if a < n ∧ d = true then x.q else Memory.read m.qv a) := by
  induction n with
  | zero => simp
  | succ n ih =>
    have hw := processLoop_wf h c g d n
    simp only [loop_succ] at ih ⊢
    generalize loop n (processEntry c g d) m = r at hw ih ⊢
    obtain ⟨i1, i2, i3⟩ := ih
    by_cases e : a = n
    · subst e
      cases d <;>
        simp_all [processEntry, Memory.read_write hw.1, Memory.read_write hw.2.1, Memory.read_write hw.2.2, gammaValue]
    · have : a < n + 1 ↔ a < n := by omega
      cases d <;>
        simp_all [processEntry, Memory.read_write hw.1, Memory.read_write hw.2.1, Memory.read_write hw.2.2, gammaValue]

/-- With D = 0 PROCESS leaves the dither state as it was (R175). -/
theorem processLoop_noDither (c : Config) (g : Bool) (n : Nat) (m : ColorMem) :
    (loop n (processEntry c g false) m).errs = m.errs ∧ (loop n (processEntry c g false) m).qv = m.qv := by
  induction n with
  | zero => exact ⟨rfl, rfl⟩
  | succ n ih => exact ih

/-! ### ENCODE -/

/-- ENCODE is one loop of writes over the byte sequence of R127. -/
theorem encodePlanes_eq_loop (s : State) :
    encodePlanes s =
      loop (24 * s.cfg.leds) (fun a m => Memory.write m a (planeByte s (a / 24) (a % 24))) (s.bp s.fill) := by
  unfold encodePlanes
  rw [← loop_flatten]
  refine loop_congr (fun led _ => ?_) _
  funext m
  refine loop_congr (fun k hk => ?_) m
  funext n
  have h1 : (24 * led + k) / 24 = led := by omega
  have h2 : (24 * led + k) % 24 = k := by omega
  simp only [planeKey, h1, h2]

/-- What ENCODE leaves at every entry of the buffer. -/
theorem encodePlanes_read {s : State} (h : Memory.wf (s.bp s.fill) = true) (a : Nat) :
    Memory.read (encodePlanes s) a =
      if a < 24 * s.cfg.leds then planeByte s (a / 24) (a % 24) else Memory.read (s.bp s.fill) a := by
  rw [encodePlanes_eq_loop, read_loop_write h]

theorem encodePlanes_wf {s : State} (h : Memory.wf (s.bp s.fill) = true) : Memory.wf (encodePlanes s) = true := by
  rw [encodePlanes_eq_loop]
  exact wf_loop_write h _ _

/-- Bit y of a plane byte (R212). -/
theorem getLsbD_planeByte (s : State) (led k y : Nat) :
    (planeByte s led k).getLsbD y = (decide (y < s.cfg.strips) && decide (y < 8) && planeBit s led k y) :=
  getLsbD_bitsUpTo _ _ _

/-! ### The configuration's bounds -/

/-- A well-formed configuration meets every bound of R7. -/
theorem bounds_of_wellFormed {c : Config} (h : c.wellFormed = true) :
    (1 ≤ c.strips ∧ c.strips ≤ 8) ∧ (1 ≤ c.matrixW ∧ c.matrixW ≤ 255) ∧ (1 ≤ c.matrixH ∧ c.matrixH ≤ 255) ∧
      (1 ≤ c.matricesPerStrip ∧ c.matricesPerStrip ≤ 255) ∧ c.leds ≤ 8192 ∧
      (1 ≤ c.tileCols ∧ 1 ≤ c.tileRows ∧ c.tileCols * c.tileRows = c.strips * c.matricesPerStrip) ∧
      (c.width ≤ 65535 ∧ c.height ≤ 65535 ∧ c.numPix ≤ 65536) ∧
      (1 ≤ c.t0h ∧ c.t0h < c.t1h ∧ c.t1h < c.tBit ∧ c.tBit ≤ 65535) ∧
      (1 ≤ c.resetTicks ∧ c.resetTicks ≤ 4294967295) ∧ c.base % 0x200000 = 0 := by
  simp only [Config.wellFormed, Config.stripsOk, Config.tileSizeOk, Config.ledsOk, Config.tilesOk, Config.sizeOk,
    Config.pulsesOk, Config.resetTicksOk, Config.platformOk, Bool.and_eq_true, decide_eq_true_eq, beq_iff_eq] at h
  tauto

end Sys2Proof.Machine
end

