-- ==== Sys2Proof/Laws/HostPort.lean ====
section
/-!
SUPPORT. The address map of R81 as one chain of cases, a legal write at an offset, and the words of ERR_INFO for a bad
access.
-/

namespace Sys2Proof.Machine

/-- The address map, region by region in ascending order (R81). -/
theorem locate_eq (c : Config) (off : Nat) :
    locate c off =
      if off ≤ 0x4F then (regMap[off / 4]?).map .reg
      else if off ≤ 0x3FF then none
      else if off ≤ 0x7FF then some (.gamma ((off - 0x400) / 4))
      else if off ≤ 0x27FF then (if (off - 0x800) / 4 < c.numTiles then some (.tile ((off - 0x800) / 4)) else none)
      else if off ≤ 0x3FFFF then none
      else if off ≤ 0x7FFFF then (if (off - 0x40000) / 4 < c.numPix then some (.pix ((off - 0x40000) / 4)) else none)
      else if off ≤ 0xBFFFF then (if (off - 0x80000) / 4 < c.numPix then some (.dither ((off - 0x80000) / 4)) else none)
      else if off ≤ 0xFFFFF then none
      else if off ≤ 0x13FFFF then
        (if (off - 0x100000) / 4 < 6 * c.leds then some (.plane false ((off - 0x100000) / 4)) else none)
      else if off ≤ 0x17FFFF then
        (if (off - 0x140000) / 4 < 6 * c.leds then some (.plane true ((off - 0x140000) / 4)) else none)
      else none := by
  unfold locate regionMap
  simp only [List.find?_cons]
  by_cases h1 : off ≤ 0x4F
  · have : off / 4 < 20 := by omega
    simp [h1, validEntries, entryOf, this]
  by_cases h2 : off ≤ 0x3FF
  · simp [h1, h2, validEntries, show 80 ≤ off by omega]
  by_cases h3 : off ≤ 0x7FF
  · have : (off - 1024) / 4 < 256 := by omega
    simp [h1, h2, h3, validEntries, entryOf, show 1024 ≤ off by omega, this]
  by_cases h4 : off ≤ 0x27FF
  · simp [h1, h2, h3, h4, validEntries, entryOf, show 2048 ≤ off by omega]
    rfl
  by_cases h5 : off ≤ 0x3FFFF
  · simp [h1, h2, h3, h4, h5, validEntries, show 10240 ≤ off by omega]
  by_cases h6 : off ≤ 0x7FFFF
  · simp [h1, h2, h3, h4, h5, h6, validEntries, entryOf, show 0x40000 ≤ off by omega]
    rfl
  by_cases h7 : off ≤ 0xBFFFF
  · simp [h1, h2, h3, h4, h5, h6, h7, validEntries, entryOf, show 0x80000 ≤ off by omega]
    rfl
  by_cases h8 : off ≤ 0xFFFFF
  · simp [h1, h2, h3, h4, h5, h6, h7, h8, validEntries, show 0xC0000 ≤ off by omega]
  by_cases h9 : off ≤ 0x13FFFF
  · simp [h1, h2, h3, h4, h5, h6, h7, h8, h9, validEntries, entryOf, show 0x100000 ≤ off by omega]
    rfl
  by_cases h10 : off ≤ 0x17FFFF
  · simp [h1, h2, h3, h4, h5, h6, h7, h8, h9, h10, validEntries, entryOf, show 0x140000 ≤ off by omega]
    rfl
  by_cases h11 : off ≤ 0x1FFFFF
  · simp [h1, h2, h3, h4, h5, h6, h7, h8, h9, h10, h11, validEntries, show 0x180000 ≤ off by omega]
  · simp [h1, h2, h3, h4, h5, h6, h7, h8, h9, h10, h11]

/-- The registers (R81). -/
theorem locate_register (c : Config) {off : Nat} (h : off ≤ 0x4F) : locate c off = (regMap[off / 4]?).map .reg := by
  rw [locate_eq, if_pos h]

/-- A pixel word is one of the pixels there are (R81). -/
theorem lt_of_locate_pix {c : Config} {off p : Nat} (h : locate c off = some (.pix p)) : p < c.numPix := by
  unfold locate at h
  split at h
  · cases h
  · rename_i row _
    dsimp only at h
    split at h
    · rename_i hv
      cases hr : row.region <;> rw [hr] at h hv <;> simp [entryOf] at h
      subst h
      exact hv
    · cases h

/-- From offset 0x40000 on there are only the words of the memories, each in its window (R81). -/
theorem locate_memory (c : Config) {off : Nat} (h : 0x40000 ≤ off) :
    locate c off = none ∨ (off ≤ 0x7FFFF ∧ ∃ p, locate c off = some (.pix p)) ∨
      (0x80000 ≤ off ∧ off ≤ 0xBFFFF ∧ ∃ p, locate c off = some (.dither p)) ∨
      (0x100000 ≤ off ∧ off ≤ 0x13FFFF ∧ ∃ j, locate c off = some (.plane false j)) ∨
      (0x140000 ≤ off ∧ off ≤ 0x17FFFF ∧ ∃ j, locate c off = some (.plane true j)) := by
  rw [locate_eq, if_neg (by omega), if_neg (by omega), if_neg (by omega), if_neg (by omega), if_neg (by omega)]
  by_cases h6 : off ≤ 0x7FFFF
  · rw [if_pos h6]
    by_cases hj : (off - 0x40000) / 4 < c.numPix
    · exact .inr (.inl ⟨h6, _, if_pos hj⟩)
    · exact .inl (if_neg hj)
  rw [if_neg h6]
  by_cases h7 : off ≤ 0xBFFFF
  · rw [if_pos h7]
    by_cases hj : (off - 0x80000) / 4 < c.numPix
    · exact .inr (.inr (.inl ⟨by omega, h7, _, if_pos hj⟩))
    · exact .inl (if_neg hj)
  rw [if_neg h7]
  by_cases h8 : off ≤ 0xFFFFF
  · exact .inl (if_pos h8)
  rw [if_neg h8]
  by_cases h9 : off ≤ 0x13FFFF
  · rw [if_pos h9]
    by_cases hj : (off - 0x100000) / 4 < 6 * c.leds
    · exact .inr (.inr (.inr (.inl ⟨by omega, h9, _, if_pos hj⟩)))
    · exact .inl (if_neg hj)
  rw [if_neg h9]
  by_cases h10 : off ≤ 0x17FFFF
  · rw [if_pos h10]
    by_cases hj : (off - 0x140000) / 4 < 6 * c.leds
    · exact .inr (.inr (.inr (.inr ⟨by omega, h10, _, if_pos hj⟩)))
    · exact .inl (if_neg hj)
  exact .inl (if_neg h10)

/-- The legal accesses (R84), spelled out. -/
theorem legal_iff (a : BusAccess) : a.legal = true ↔ a.width = .word ∧ a.lanes = 0xF ∧ a.addr % 4 = 0 := by
  simp [BusAccess.legal, and_assoc, and_comm]

/-- The address BASE + off has the offset off (R80). -/
theorem offsetOf_base_add (c : Config) (off : BitVec 21) : offsetOf c (c.base + off.toNat) = some off := by
  have := off.isLt
  unfold offsetOf
  rw [if_pos (by omega), Nat.add_sub_cancel_left, BitVec.ofNat_toNat, BitVec.setWidth_eq]

/-- A legal access in the window is MemRead or MemWrite at its offset, and any other one there is a bad access (R84 to
R86). -/
theorem hostAccess_of_offset {a : BusAccess} {off : BitVec 21} {s : State} (h : offsetOf s.cfg a.addr = some off) :
    hostAccess a s =
      if a.legal then (if a.write then memWrite off a.data s else .next (memRead off s))
      else .next (badAccess a.write off s) := by
  unfold hostAccess
  rw [h]

/-- A legal write at an offset of the window is MemWrite at that offset (R80, R86). -/
theorem hostAccess_writeAccess {s : State} {c : Config} {off : Nat} {v : Word} (hs : s.cfg = c) (h : off < 0x200000)
    (h4 : off % 4 = 0) (hc : c.wellFormed = true) :
    hostAccess (writeAccess (c.base + off) v) s = memWrite (BitVec.ofNat 21 off) v s := by
  subst hs
  obtain ⟨_, _, _, _, _, _, _, _, _, hb⟩ := bounds_of_wellFormed hc
  have ho : offsetOf s.cfg (s.cfg.base + off) = some (BitVec.ofNat 21 off) := by
    have := offsetOf_base_add s.cfg (BitVec.ofNat 21 off)
    rwa [BitVec.toNat_ofNat, Nat.mod_eq_of_lt h] at this
  have hl : (writeAccess (s.cfg.base + off) v).legal = true :=
    (legal_iff _).mpr ⟨rfl, rfl, show (s.cfg.base + off) % 4 = 0 by omega⟩
  rw [hostAccess_of_offset (show offsetOf s.cfg (writeAccess (s.cfg.base + off) v).addr = _ from ho), if_pos hl]
  rfl

/-- A read gives a word in every case (R85). -/
theorem memRead_readData (off : BitVec 21) (s : State) : ∃ x, (memRead off s).readData = some x := by
  unfold memRead
  split
  · exact ⟨_, rfl⟩
  · exact ⟨0, rfl⟩

/-- A field of a word from its bits. -/
theorem extractLsb'_eq_of_bits {n : Nat} {x : BitVec n} {w : Word} {lo : Nat}
    (h : ∀ i, i < n → w.getLsbD (lo + i) = x.getLsbD i) : w.extractLsb' lo n = x := by
  apply BitVec.eq_of_getLsbD_eq
  intro i hi
  rw [BitVec.getLsbD_extractLsb', h i hi]
  simp [hi]

/-- ERR_INFO of a bad read (R280). -/
theorem accessInfo_read (off : BitVec 21) : accessInfo false off = off.setWidth 32 := by
  apply BitVec.eq_of_getLsbD_eq
  intro i hi
  simp only [accessInfo, BitVec.getLsbD_append, BitVec.getLsbD_setWidth]
  interval_cases i <;> simp

/-- ERR_INFO of a bad write: bit 31 set (R280). -/
theorem accessInfo_write (off : BitVec 21) : accessInfo true off = 0x80000000#32 ||| off.setWidth 32 := by
  apply BitVec.eq_of_getLsbD_eq
  intro i hi
  simp only [accessInfo, BitVec.getLsbD_append, BitVec.getLsbD_or, BitVec.getLsbD_setWidth]
  interval_cases i <;> simp

end Sys2Proof.Machine
end

