-- ==== Sys2Proof/Laws/Transmitter.lean ====
section
/-!
SUPPORT. What the transmitter's phase of a tick can do, said once, guards included (R254 to R262), and the arithmetic of
the transmit position (R61, R257).
-/

namespace Sys2Proof.Machine

/-- A TRANSMITTING tick is TransmitStep (R255). -/
theorem transmitPhase_transmitting {r : Bool} {s : State} (h : s.txState = .transmitting) :
    transmitPhase r s = transmitStep s := by simp only [transmitPhase, h]

/-- A RESET_WAIT tick is a re-trigger or one step of the timer (R259, R262). -/
theorem transmitPhase_resetWait {r : Bool} {s : State} (h : s.txState = .resetWait) :
    transmitPhase r s = .next (if r then retrigger { s with dout := 0 } else timerStep { s with dout := 0 }) := by
  simp only [transmitPhase, h]

theorem txState_cases (s : State) :
    s.txState = .idle ∨ s.txState = .transmitting ∨ s.txState = .resetWait := by cases s.txState <;> simp

/-- Every way the advance of the position can go (R255, R258). -/
theorem advance_cases (s : State) :
    (s.txPhase.toNat < s.cfg.tBit - 1 ∧ advance s = { s with txPhase := s.txPhase + 1 }) ∨
      (s.cfg.tBit - 1 ≤ s.txPhase.toNat ∧ s.txBit.toNat < 23 ∧
        advance s = { s with txPhase := 0, txBit := s.txBit + 1 }) ∨
      (s.cfg.tBit - 1 ≤ s.txPhase.toNat ∧ 23 ≤ s.txBit.toNat ∧ s.txLed.toNat < s.cfg.leds - 1 ∧
        advance s = { s with txPhase := 0, txBit := 0, txLed := s.txLed + 1 }) ∨
      (s.cfg.tBit - 1 ≤ s.txPhase.toNat ∧ 23 ≤ s.txBit.toNat ∧ s.cfg.leds - 1 ≤ s.txLed.toNat ∧
        advance s = dmaComplete s) := by
  unfold advance
  by_cases h1 : s.txPhase.toNat < s.cfg.tBit - 1
  · exact .inl ⟨h1, if_pos h1⟩
  by_cases h2 : s.txBit.toNat < 23
  · exact .inr (.inl ⟨by omega, h2, by rw [if_neg h1, if_pos h2]⟩)
  by_cases h3 : s.txLed.toNat < s.cfg.leds - 1
  · exact .inr (.inr (.inl ⟨by omega, by omega, h3, by rw [if_neg h1, if_neg h2, if_pos h3]⟩))
  · exact .inr (.inr (.inr ⟨by omega, by omega, by omega, by rw [if_neg h1, if_neg h2, if_neg h3]⟩))

/-- Every way a step of the timer can go (R259, R260, R240). -/
theorem timerStep_cases (s : State) :
    (s.timer - 1 ≠ 0 ∧ timerStep s = { s with timer := s.timer - 1 }) ∨
      (s.timer - 1 = 0 ∧ s.submitPending = false ∧
        timerStep s = setIrq .resetDone { s with timer := s.timer - 1, txState := .idle, sig := true }) ∨
      (s.timer - 1 = 0 ∧ s.submitPending = true ∧
        timerStep s =
          accept { setIrq .resetDone { s with timer := s.timer - 1, txState := .idle, sig := true } with
            submitPending := false }) := by
  unfold timerStep timerExpire
  by_cases h : s.timer - 1 = 0
  · by_cases hp : s.submitPending = true
    · exact .inr (.inr ⟨h, hp, (if_pos h).trans (if_pos hp)⟩)
    · exact .inr (.inl ⟨h, by simpa using hp, (if_pos h).trans (if_neg hp)⟩)
  · exact .inl ⟨h, if_neg h⟩

/-- Every way the transmitter's phase can give a next state (R270). -/
theorem transmitPhase_cases {r : Bool} {s t : State} (h : transmitPhase r s = .next t) :
    (s.txState = .idle ∧ t = { s with dout := 0 }) ∨
      (s.txState = .transmitting ∧ s.positionOk = true ∧ t = advance { s with dout := drivePins s }) ∨
      (s.txState = .resetWait ∧ r = true ∧ t = retrigger { s with dout := 0 }) ∨
      (s.txState = .resetWait ∧ r = false ∧ t = timerStep { s with dout := 0 }) := by
  rcases txState_cases s with e | e | e
  · simp only [transmitPhase, e] at h
    cases h
    exact .inl ⟨e, by simp only [e]⟩
  · rw [transmitPhase_transmitting e] at h
    unfold transmitStep at h
    split at h
    · rename_i hp
      cases h
      exact .inr (.inl ⟨e, hp, rfl⟩)
    · cases h
  · rw [transmitPhase_resetWait e] at h
    cases h
    cases r
    · exact .inr (.inr (.inr ⟨e, rfl, rfl⟩))
    · exact .inr (.inr (.inl ⟨e, rfl, rfl⟩))

/-- From T1H on every pin of a slot is low (R251, R256). -/
theorem drivePins_low {s : State} (hp : s.cfg.t1h ≤ s.txPhase.toNat) (h0 : s.cfg.t0h < s.cfg.t1h) : drivePins s = 0 := by
  unfold drivePins
  apply BitVec.eq_of_getLsbD_eq
  intro i hi
  rw [getLsbD_bitsUpTo]
  have : ¬ s.txPhase.toNat < highTicks s.cfg ((planeByteAt s s.txBuf s.txLed.toNat s.txBit.toNat).getLsbD i) := by
    unfold highTicks; split <;> omega
  simp [this]

/-- The increment of a 16-bit counter that stays in range. -/
theorem toNat_succ16 {a : BitVec 16} {n : Nat} (h : a.toNat < n) (hn : n ≤ 65535) : (a + 1#16).toNat = a.toNat + 1 := by
  rw [BitVec.toNat_add]; simp; omega

/-- The last tick of a frame of L LEDs and T ticks a bit is the last tick of the last bit of the last LED (R257). -/
theorem last_position {l b p L T : Nat} (hl : l < L) (hb : b ≤ 23) (hp : p < T) :
    (24 * l + b) * T + p + 1 = 24 * L * T ↔ p = T - 1 ∧ b = 23 ∧ l = L - 1 := by
  constructor
  · intro h
    have e : 24 * l + b = 24 * L - 1 := by
      by_contra hne
      have le : (24 * l + b + 1 + 1) * T ≤ 24 * L * T := Nat.mul_le_mul_right _ (by omega)
      have : (24 * l + b + 1 + 1) * T = (24 * l + b) * T + T + T := by ring
      omega
    have : 24 * L * T = (24 * l + b) * T + T := by
      rw [show 24 * L = 24 * l + b + 1 by omega]; ring
    omega
  · rintro ⟨rfl, rfl, rfl⟩
    have : 24 * L * T = (24 * (L - 1) + 23) * T + T := by
      rw [show 24 * L = 24 * (L - 1) + 23 + 1 by omega]; ring
    omega

/-- While a frame is sent, fewer than N of its ticks have been sent (R61, R257). -/
theorem ticksSent_lt {s : State} (h : s.PositionOk) (ht : s.txState = .transmitting) : s.ticksSent < s.cfg.frameTicks := by
  obtain ⟨q1, q2, q3⟩ := h.2 ht
  unfold State.ticksSent Config.frameTicks
  calc _ < (24 * s.txLed.toNat + s.txBit.toNat) * s.cfg.tBit + s.cfg.tBit := by omega
    _ = (24 * s.txLed.toNat + s.txBit.toNat + 1) * s.cfg.tBit := by ring
    _ ≤ _ := Nat.mul_le_mul_right _ (by omega)

end Sys2Proof.Machine
end

