-- ==== Sys2Proof/Laws/Invariant.lean ====
section
/-!
SUPPORT. The commands, the host's phase and the transmitter's phase each give a next state and keep the part of the
invariant that holds within a tick (R64).
-/

namespace Sys2Proof.Machine

theorem raiseError_midInv {s : State} (h : s.MidInv) (e : ErrCode) (info : Word) : (raiseError e info s).MidInv := by
  obtain ⟨h1, h2, h3, h4, h5, h6, h7, h8, -⟩ := h
  refine ⟨h1, h2, h3, h4, h5, h6, h7, h8, ?_⟩
  show _ ∨ _
  cases e <;> simp [raiseError, setIrq, ErrCode.code]

theorem beginStall_midInv {s : State} (h : s.MidInv) : (beginStall s).MidInv := by
  unfold beginStall
  split <;> exact h

/-- Accept keeps the invariant where it is made: from IDLE, with no submit pending (R233). -/
theorem accept_midInv {s : State} (h : s.MidInv) (ht : s.txState = .idle) (hs : s.submitPending = false) :
    (accept s).MidInv := by
  obtain ⟨h1, h2, h3, h4, h5, h6, h7, h8, h9⟩ := h
  obtain ⟨_, ⟨w1, _⟩, ⟨w2, _⟩, ⟨w3, _⟩, _, _, _, ⟨_, _, _, _⟩, _⟩ := bounds_of_wellFormed h1
  have hL : 0 < s.cfg.leds := by unfold Config.leds; positivity
  refine ⟨h1, h2, h3, h4, ⟨by simp, by simp⟩, ⟨by simp, fun _ => h6.2 (by simp [ht])⟩, ⟨by simp, fun _ => ?_⟩, h8, h9⟩
  exact ⟨hL, by simp, by show 0 < s.cfg.tBit; omega⟩

/-- The entries PROCESS writes keep what INV6 says of them (R64, R176). -/
theorem processEntry_bounds {c : Config} {g d : Bool} {a : Nat} {m : ColorMem}
    (h : Memory.atMost m.errs 1 = true ∧ Memory.atMost m.qv 128 = true) :
    Memory.atMost (processEntry c g d a m).errs 1 = true ∧ Memory.atMost (processEntry c g d a m).qv 128 = true := by
  have he : ∀ e, (errByte e).toNat ≤ 1 := by decide
  cases d
  · exact h
  · refine ⟨Memory.atMost_write h.1 (he _), Memory.atMost_write h.2 ?_⟩
    simp only [ditherStep, BitVec.toNat_ofNat]
    generalize (if g = true then _ else _ : Byte) = v
    generalize (Memory.read m.errs a).getLsbD 0 = e
    have := v.isLt
    cases e <;> simp <;> omega

theorem processEntry_below {c : Config} {g d : Bool} {a n : Nat} {m : ColorMem} (ha : a < n)
    (h : Memory.below m.pix n = true ∧ Memory.below m.errs n = true ∧ Memory.below m.qv n = true) :
    let r := processEntry c g d a m
    Memory.below r.pix n = true ∧ Memory.below r.errs n = true ∧ Memory.below r.qv n = true := by
  cases d
  · exact ⟨Memory.below_write h.1 ha _, h.2⟩
  · exact ⟨Memory.below_write h.1 ha _, Memory.below_write h.2.1 ha _, Memory.below_write h.2.2 ha _⟩

/-- Every command gives a next state and keeps the invariant. -/
theorem exec_midInv {s : State} (h : s.MidInv) (i : Instr) : ∃ t, exec i s = .next t ∧ t.MidInv := by
  have h0 := h
  obtain ⟨h1, ⟨a1, a2, a3, a4, a5, a6, a7, a8, a9, a10⟩, h3, h4, h5, h6, h7, h8, h9⟩ := h
  cases i with
  | nop => exact ⟨_, rfl, h0⟩
  | clear =>
    refine ⟨_, rfl, beginStall_midInv ⟨h1, ⟨?_, a2, a3, a4, a5, ?_, a7, a8, a9, a10⟩, h3, h4, h5, h6, h7, h8, h9⟩⟩
    · show Memory.wf (loop _ _ _) = true
      rw [clear_eq_loop]
      exact wf_loop_write a1 _ _
    · show Memory.below (loop _ _ _) _ = true
      rw [clear_eq_loop]
      exact loop_keeps (P := fun m => Memory.below m (3 * s.cfg.numPix) = true) a6 fun i hi b hb =>
        Memory.below_write hb hi _
  | process g d =>
    refine ⟨_, rfl, beginStall_midInv ?_⟩
    rw [processAll_eq_loop]
    have hw := processLoop_wf (m := ⟨s.pix, s.errs, s.qv⟩) ⟨a1, a2, a3⟩ s.cfg g d (3 * s.cfg.numPix)
    have hb := loop_keeps (P := fun m : ColorMem => Memory.below m.pix (3 * s.cfg.numPix) = true ∧
        Memory.below m.errs (3 * s.cfg.numPix) = true ∧ Memory.below m.qv (3 * s.cfg.numPix) = true)
      (f := processEntry s.cfg g d) (a := ⟨s.pix, s.errs, s.qv⟩) ⟨a6, a7, a8⟩ fun i hi _ hb => processEntry_below hi hb
    have hm := loop_keeps (P := fun m : ColorMem => Memory.atMost m.errs 1 = true ∧ Memory.atMost m.qv 128 = true)
      (n := 3 * s.cfg.numPix) (f := processEntry s.cfg g d) (a := ⟨s.pix, s.errs, s.qv⟩) h3 fun i hi _ hb =>
        processEntry_bounds hb
    exact ⟨h1, ⟨hw.1, hw.2.1, hw.2.2, a4, a5, hb.1, hb.2.1, hb.2.2, a9, a10⟩, hm, h4, h5, h6, h7, h8, h9⟩
  | encode =>
    simp only [exec, execEncode]
    split
    · exact ⟨_, rfl, raiseError_midInv h0 _ _⟩
    · refine ⟨_, rfl, beginStall_midInv ?_⟩
      have w : Memory.wf (s.bp s.fill) = true := by unfold State.bp; split <;> assumption
      have b : Memory.below (s.bp s.fill) (24 * s.cfg.leds) = true := by unfold State.bp; split <;> assumption
      have m : Memory.atMost (s.bp s.fill) (2 ^ s.cfg.strips - 1) = true := by
        unfold State.bp
        split
        · exact h4.2
        · exact h4.1
      have w' := encodePlanes_wf w
      have b' : Memory.below (encodePlanes s) (24 * s.cfg.leds) = true := by
        rw [encodePlanes_eq_loop]
        exact loop_keeps (P := fun m => Memory.below m (24 * s.cfg.leds) = true) b fun i hi _ hb =>
          Memory.below_write hb hi _
      have m' : Memory.atMost (encodePlanes s) (2 ^ s.cfg.strips - 1) = true := by
        rw [encodePlanes_eq_loop]
        refine loop_keeps (P := fun m => Memory.atMost m (2 ^ s.cfg.strips - 1) = true) m fun i _ _ hb =>
          Memory.atMost_write hb ?_
        have := toNat_bitsUpTo_lt s.cfg.strips (planeBit s (i / 24) (i % 24))
        unfold planeByte
        omega
      unfold State.setBp
      split
      · exact ⟨h1, ⟨a1, a2, a3, a4, w', a6, a7, a8, a9, b'⟩, h3, ⟨h4.1, m'⟩, h5, h6, h7, h8, h9⟩
      · exact ⟨h1, ⟨a1, a2, a3, w', a5, a6, a7, a8, b', a10⟩, h3, ⟨m', h4.2⟩, h5, h6, h7, h8, h9⟩
  | submit =>
    simp only [exec, execSubmit]
    split
    · exact ⟨_, rfl, raiseError_midInv h0 _ _⟩
    · rename_i hp
      split
      · rename_i hs
        exact ⟨_, rfl, accept_midInv h0 (h5.1.1 hs) (by simpa using hp)⟩
      · rename_i hs
        refine ⟨_, rfl, h1, ⟨a1, a2, a3, a4, a5, a6, a7, a8, a9, a10⟩, h3, h4, ⟨h5.1, fun _ => ?_⟩, h6, h7, h8, h9⟩
        rcases txState_cases s with e | e | e
        · exact absurd (h5.1.2 e) hs
        · exact .inl e
        · exact .inr e

theorem badAccess_midInv {s : State} (h : s.MidInv) (w : Bool) (off : BitVec 21) : (badAccess w off s).MidInv := by
  unfold badAccess
  apply raiseError_midInv
  split <;> exact h

theorem setPixel_midInv {s : State} (h : s.MidInv) {p : Nat} (hp : p < s.cfg.numPix) (v : Word) : (setPixel p v s).MidInv := by
  obtain ⟨h1, ⟨a1, a2, a3, a4, a5, a6, a7, a8, a9, a10⟩, h3, h4, h5, h6, h7, h8, h9⟩ := h
  refine ⟨h1, ⟨?_, a2, a3, a4, a5, ?_, a7, a8, a9, a10⟩, h3, h4, h5, h6, h7, h8, h9⟩
  · exact Memory.wf_write (Memory.wf_write (Memory.wf_write a1 _ _) _ _) _ _
  · exact Memory.below_write (Memory.below_write (Memory.below_write a6 (chanKey_lt hp _) _) (chanKey_lt hp _) _)
      (chanKey_lt hp _) _

/-- Every host access gives a next state and keeps the invariant. -/
theorem hostAccess_midInv {s : State} (h : s.MidInv) (a : BusAccess) : ∃ t, hostAccess a s = .next t ∧ t.MidInv := by
  unfold hostAccess
  split
  · exact ⟨_, rfl, h⟩
  · split
    · split
      · unfold memWrite
        split
        · unfold issueCommand
          split
          · exact exec_midInv h _
          · exact ⟨_, rfl, raiseError_midInv h _ _⟩
        · exact ⟨_, rfl, h⟩
        · exact ⟨_, rfl, h⟩
        · exact ⟨_, rfl, h⟩
        · exact ⟨_, rfl, h⟩
        · rename_i hp
          exact ⟨_, rfl, setPixel_midInv h (lt_of_locate_pix hp) _⟩
        · exact ⟨_, rfl, badAccess_midInv h _ _⟩
      · refine ⟨_, rfl, ?_⟩
        unfold memRead
        split
        · exact h
        · exact badAccess_midInv h _ _
    · exact ⟨_, rfl, badAccess_midInv h _ _⟩

/-- The host's phase gives a next state and keeps the invariant. -/
theorem hostPhase_midInv {s : State} (h : s.MidInv) : ∃ t, hostPhase s = .next t ∧ t.MidInv := by
  unfold hostPhase
  split
  · exact ⟨_, rfl, h⟩
  · split
    · exact ⟨_, rfl, h⟩
    · exact ⟨_, rfl, h⟩
    · exact hostAccess_midInv (by exact h) _
    · rename_i off _ _ _ _
      obtain ⟨t, ht, hm⟩ := hostAccess_midInv h (readAccess (s.cfg.base + off.toNat))
      unfold hostWaitStep
      rw [ht]
      simp only [andThen]
      split <;> exact ⟨_, rfl, hm⟩

theorem toNat_resetTicks {c : Config} (h : c.wellFormed = true) : (BitVec.ofNat 32 c.resetTicks).toNat = c.resetTicks := by
  obtain ⟨_, _, _, _, _, _, _, _, ⟨_, _⟩, _⟩ := bounds_of_wellFormed h
  rw [BitVec.toNat_ofNat]
  omega

/-- The transmitter's phase gives a next state and keeps the invariant, in each TX_STATE. -/
theorem transmitPhase_midInv {s : State} (h : s.MidInv) (r : Bool) : ∃ t, transmitPhase r s = .next t ∧ t.MidInv := by
  obtain ⟨h1, h2, h3, h4, h5, h6, h7, h8, h9⟩ := h
  have hR := toNat_resetTicks h1
  obtain ⟨_, _, _, _, _, _, _, ⟨_, _, _, _⟩, ⟨_, _⟩, _⟩ := bounds_of_wellFormed h1
  have pins0 : (0#8).toNat < 2 ^ s.cfg.strips := by simp
  rcases txState_cases s with ht | ht | ht
  · refine ⟨{ s with dout := 0 }, by simp only [transmitPhase, ht], h1, h2, h3, h4, h5, h6, ⟨fun x => ?_, h7.2⟩, pins0, h9⟩
    have := h7.1 x
    exact ⟨this.1, this.2.1, this.2.2.1, rfl⟩
  · obtain ⟨q1, q2, q3⟩ := h7.2 ht
    have hpos : s.positionOk = true := by simp [State.positionOk, q1, q2]
    rw [transmitPhase_transmitting ht, transmitStep, if_pos hpos]
    refine ⟨_, rfl, ?_⟩
    have pins : (drivePins s).toNat < 2 ^ s.cfg.strips := toNat_bitsUpTo_lt _ _
    rcases advance_cases { s with dout := drivePins s } with ⟨c1, e⟩ | ⟨c1, c2, e⟩ | ⟨c1, c2, c3, e⟩ | ⟨c1, c2, c3, e⟩ <;>
      rw [e] <;> simp only at c1
    · refine ⟨h1, h2, h3, h4, h5, h6, ⟨fun x => absurd ht x, fun _ => ⟨q1, q2, ?_⟩⟩, pins, h9⟩
      show (s.txPhase + 1#16).toNat < s.cfg.tBit
      rw [toNat_succ16 c1 (by omega)]
      omega
    · refine ⟨h1, h2, h3, h4, h5, h6, ⟨fun x => absurd ht x, fun _ => ⟨q1, ?_, ?_⟩⟩, pins, h9⟩
      · show (s.txBit + 1#5).toNat ≤ 23
        simp only at c2
        rw [BitVec.toNat_add]
        simp
        omega
      · show 0 < s.cfg.tBit
        omega
    · refine ⟨h1, h2, h3, h4, h5, h6, ⟨fun x => absurd ht x, fun _ => ⟨?_, by simp, ?_⟩⟩, pins, h9⟩
      · show (s.txLed + 1#16).toNat < s.cfg.leds
        simp only at c3
        rw [toNat_succ16 c3 (by omega)]
        omega
      · show 0 < s.cfg.tBit
        omega
    · have low : drivePins s = 0 := drivePins_low (by omega) (by omega)
      refine ⟨h1, h2, h3, h4, ⟨?_, fun _ => .inr rfl⟩, ⟨fun _ => ?_, fun x => absurd rfl x⟩,
        ⟨fun _ => ⟨rfl, rfl, rfl, low⟩, fun x => by cases x⟩, pins, h9⟩
      · have := h5.1
        rw [ht] at this
        show s.sig = true ↔ TxState.resetWait = .idle
        simpa using this
      · show 1 ≤ (BitVec.ofNat 32 s.cfg.resetTicks).toNat ∧ (BitVec.ofNat 32 s.cfg.resetTicks).toNat ≤ s.cfg.resetTicks
        omega
  · rw [transmitPhase_resetWait ht]
    refine ⟨_, rfl, ?_⟩
    obtain ⟨q1, q2⟩ := h6.1 ht
    have pos0 := h7.1 (by simp [ht])
    have pos : ∀ p, p → s.txLed = 0 ∧ s.txBit = 0 ∧ s.txPhase = 0 ∧ (0#8 : Byte) = 0 := fun _ _ =>
      ⟨pos0.1, pos0.2.1, pos0.2.2.1, rfl⟩
    split
    · refine ⟨h1, h2, h3, h4, h5, ⟨fun _ => ?_, fun x => absurd ht x⟩, ⟨pos _, fun x => absurd x (by simp [retrigger, ht])⟩,
        pins0, h9⟩
      show 1 ≤ (BitVec.ofNat 32 s.cfg.resetTicks).toNat ∧ (BitVec.ofNat 32 s.cfg.resetTicks).toNat ≤ s.cfg.resetTicks
      omega
    · have tt : (s.timer - 1#32).toNat = s.timer.toNat - 1 := by
        rw [BitVec.toNat_sub]
        simp
        omega
      rcases timerStep_cases { s with dout := 0 } with ⟨c1, e⟩ | ⟨c1, c2, e⟩ | ⟨c1, c2, e⟩ <;> rw [e]
      · refine ⟨h1, h2, h3, h4, h5, ⟨fun _ => ?_, fun x => absurd ht x⟩, ⟨pos _, fun x => absurd x (by simp [ht])⟩, pins0, h9⟩
        have : (s.timer - 1#32).toNat ≠ 0 := fun e => c1 (BitVec.eq_of_toNat_eq (by simpa using e))
        show 1 ≤ (s.timer - 1#32).toNat ∧ (s.timer - 1#32).toNat ≤ s.cfg.resetTicks
        omega
      · have c2 : s.submitPending = false := c2
        refine ⟨h1, h2, h3, h4, ⟨by simp, fun x => ?_⟩, ⟨by simp, fun _ => c1⟩, ⟨pos _, by simp⟩, pins0, h9⟩
        exact absurd (c2.symm.trans x) (by simp)
      · refine accept_midInv ?_ rfl rfl
        exact ⟨h1, h2, h3, h4, ⟨by simp, by simp⟩, ⟨by simp, fun _ => c1⟩, ⟨pos _, by simp⟩, pins0, h9⟩

end Sys2Proof.Machine
end

