-- ==== Sys2Proof/Laws/Layout.lean ====
section
/-!
SUPPORT. The arithmetic of the layout mapper: the flips are their own inverses (R191, R192), a mixed-radix number gives
back its digits, and TILE_ORDER and its inverse undo each other (R8, R193).
-/

namespace Sys2Proof.Machine

theorem flipRow_lt {c : Config} {r : Nat} (h : r < c.matrixH) : flipRow c r < c.matrixH := by
  unfold flipRow; split <;> omega

theorem flipRow_flipRow {c : Config} {r : Nat} (h : r < c.matrixH) : flipRow c (flipRow c r) = r := by
  unfold flipRow; split <;> omega

theorem flipCol_lt {c : Config} {pr x : Nat} (h : x < c.matrixW) : flipCol c pr x < c.matrixW := by
  unfold flipCol; split <;> omega

theorem flipCol_flipCol {c : Config} {pr x : Nat} (h : x < c.matrixW) : flipCol c pr (flipCol c pr x) = x := by
  unfold flipCol; split <;> omega

/-- The high digit of a × w + b in radix w. -/
theorem div_of_digits {w a b : Nat} (h : b < w) : (a * w + b) / w = a := by
  rw [Nat.mul_comm a w, Nat.mul_add_div (by omega), Nat.div_eq_of_lt h, Nat.add_zero]

/-- The low digit of a × w + b in radix w. -/
theorem mod_of_digits {w a b : Nat} (h : b < w) : (a * w + b) % w = b := by
  rw [Nat.mul_comm a w, Nat.mul_add_mod, Nat.mod_eq_of_lt h]

theorem lt_of_digits {w a b n : Nat} (ha : a < n) (h : b < w) : a * w + b < n * w :=
  calc a * w + b < a * w + w := by omega
    _ = (a + 1) * w := by ring
    _ ≤ n * w := Nat.mul_le_mul_right _ ha

/-- L is M tiles of W × H LEDs (R6). -/
theorem leds_eq (c : Config) : c.leds = c.matricesPerStrip * (c.matrixW * c.matrixH) := by
  unfold Config.leds; ring

/-- The conditions of R8, spelled out. -/
theorem tileOrder_conditions {c : Config} (h : c.wellFormed = true) :
    c.tileOrder.length = c.numTiles ∧ (∀ e ∈ c.tileOrder, e.strip < c.strips ∧ e.m < c.matricesPerStrip) ∧
      c.tileOrder.Nodup ∧
      ∀ y, y < c.strips → ∀ m, m < c.matricesPerStrip → ({ strip := y, m := m } : TileSlot) ∈ c.tileOrder := by
  have h' : c.tileOrderOk = true := by
    simp only [Config.wellFormed, Bool.and_eq_true] at h
    tauto
  simp only [Config.tileOrderOk, Bool.and_eq_true, beq_iff_eq, List.all_eq_true, decide_eq_true_eq, List.mem_range,
    List.contains_iff_mem] at h'
  exact ⟨h'.1.1.1, h'.1.1.2, h'.1.2, h'.2⟩

/-- The placement of a tile is inside, and TILE_ORDER⁻¹ gives the tile back (R8, R193). -/
theorem tileOf_tileAt {c : Config} (h : c.wellFormed = true) {t : Nat} (ht : t < c.numTiles) :
    (c.tileAt t).strip < c.strips ∧ (c.tileAt t).m < c.matricesPerStrip ∧
      tileOf c (c.tileAt t).strip (c.tileAt t).m = t := by
  obtain ⟨hl, hi, hn, _⟩ := tileOrder_conditions h
  have htl : t < c.tileOrder.length := by omega
  have e : c.tileAt t = c.tileOrder[t] := by simp [Config.tileAt, htl]
  have hm := hi _ (List.getElem_mem htl)
  rw [e]
  exact ⟨hm.1, hm.2, hn.idxOf_getElem t htl⟩

/-- Every placement has its tile (R8, R193). -/
theorem tileAt_tileOf {c : Config} (h : c.wellFormed = true) {y m : Nat} (hy : y < c.strips)
    (hm : m < c.matricesPerStrip) :
    tileOf c y m < c.numTiles ∧ c.tileAt (tileOf c y m) = { strip := y, m := m } := by
  obtain ⟨hl, _, _, hc⟩ := tileOrder_conditions h
  have hlt : tileOf c y m < c.tileOrder.length := List.idxOf_lt_length_of_mem (hc y hy m hm)
  refine ⟨by omega, ?_⟩
  simp only [Config.tileAt, List.getD_eq_getElem?_getD, List.getElem?_eq_getElem hlt, Option.getD_some]
  exact List.getElem_idxOf hlt

end Sys2Proof.Machine
end

