-- ==== Sys2Proof/Laws/PerInstr.lean ====
section
/-!
SUPPORT. A statement about every command as syntax, one lemma per constructor: its word meets the four conditions of R123.
-/

/-- The command is well formed and so is its word (R121, R123). -/
def Sys2Proof.Laws.Encoding.Statement (i : Sys2Proof.Instr) : Prop :=
  i.wellFormed = true ∧ Sys2Proof.wordWellFormed (Sys2Proof.encode i) = true

theorem Sys2Proof.Laws.Encoding.nop : Sys2Proof.Laws.Encoding.Statement .nop := by
  unfold Sys2Proof.Laws.Encoding.Statement; decide

theorem Sys2Proof.Laws.Encoding.clear : Sys2Proof.Laws.Encoding.Statement .clear := by
  unfold Sys2Proof.Laws.Encoding.Statement; decide

theorem Sys2Proof.Laws.Encoding.process (g d : Bool) : Sys2Proof.Laws.Encoding.Statement (.process g d) := by
  unfold Sys2Proof.Laws.Encoding.Statement
  cases g <;> cases d <;> decide

theorem Sys2Proof.Laws.Encoding.encode : Sys2Proof.Laws.Encoding.Statement .encode := by
  unfold Sys2Proof.Laws.Encoding.Statement; decide

theorem Sys2Proof.Laws.Encoding.submit : Sys2Proof.Laws.Encoding.Statement .submit := by
  unfold Sys2Proof.Laws.Encoding.Statement; decide
end

