-- ==== Sys2Proof/Laws/Tick.lean ====
section
/-!
SUPPORT. What the host's phase can do to the transmitter's side of the state, said once; how a step splits into its phases;
and runs of several ticks.
-/

namespace Sys2Proof.Machine

/-! ### The host's phase, seen from the transmitter -/

/-- What no host access changes, and the events it only adds to. -/
structure HostKeeps (s t : State) : Prop where
  cfg : t.cfg = s.cfg
  dout : t.dout = s.dout
  env : t.env = s.env
  timer : t.timer = s.timer
  irqStatus : t.irqStatus = s.irqStatus
  irqSet : ∀ b, s.irqSet.getLsbD b = true → t.irqSet.getLsbD b = true

/-- A host access that is no accepted SUBMIT: the scheduler is as before, but for a submit that may now wait, and the
buffer that is being sent is as before. -/
structure HostRenders (s t : State) : Prop where
  sig : t.sig = s.sig
  fill : t.fill = s.fill
  txState : t.txState = s.txState
  txLed : t.txLed = s.txLed
  txBit : t.txBit = s.txBit
  txPhase : t.txPhase = s.txPhase
  frameCount : t.frameCount = s.frameCount
  pending : s.submitPending = true → t.submitPending = true
  sending : t.bp (!s.fill) = s.bp (!s.fill)

/-- An accepted SUBMIT (R231, R233). -/
structure HostAccepts (s t : State) : Prop where
  sig : s.sig = true
  pending : s.submitPending = false
  fill : t.fill = !s.fill
  txState : t.txState = .transmitting
  txLed : t.txLed = 0
  txBit : t.txBit = 0
  txPhase : t.txPhase = 0
  frameCount : t.frameCount = s.frameCount + 1

/-- Everything a host access can do to the transmitter's side. -/
def HostEffect (s t : State) : Prop := HostKeeps s t ∧ (HostRenders s t ∨ HostAccepts s t)

/-- The effect depends on the transmitter's side of the two states only. -/
theorem HostEffect.of_eq {s s' t t' : State} (h : HostEffect s t) (hs : SameScheduler s s') (ht : SameScheduler t t')
    (cs : s'.cfg = s.cfg ∧ s'.dout = s.dout ∧ s'.env = s.env ∧ s'.irqStatus = s.irqStatus ∧ s'.irqSet = s.irqSet ∧
      s'.bp0 = s.bp0 ∧ s'.bp1 = s.bp1)
    (ct : t'.cfg = t.cfg ∧ t'.dout = t.dout ∧ t'.env = t.env ∧ t'.irqStatus = t.irqStatus ∧ t'.irqSet = t.irqSet ∧
      t'.bp0 = t.bp0 ∧ t'.bp1 = t.bp1) : HostEffect s' t' := by
  obtain ⟨s1, s2, s3, s4, s5, s6, s7, s8, s9⟩ := hs
  obtain ⟨t1, t2, t3, t4, t5, t6, t7, t8, t9⟩ := ht
  obtain ⟨c1, c2, c3, c4, c5, c6, c7⟩ := cs
  obtain ⟨d1, d2, d3, d4, d5, d6, d7⟩ := ct
  obtain ⟨k, r | a⟩ := h
  · refine ⟨⟨by rw [c1, d1, k.cfg], by rw [c2, d2, k.dout], by rw [c3, d3, k.env], by rw [s8, t8, k.timer],
      by rw [c4, d4, k.irqStatus], by rw [c5, d5]; exact k.irqSet⟩, .inl ?_⟩
    have hb := r.sending
    refine ⟨by rw [s1, t1, r.sig], by rw [s3, t3, r.fill], by rw [s4, t4, r.txState], by rw [s5, t5, r.txLed],
      by rw [s6, t6, r.txBit], by rw [s7, t7, r.txPhase], by rw [s9, t9, r.frameCount], by rw [s2, t2]; exact r.pending, ?_⟩
    unfold State.bp at hb ⊢
    rw [s3, c6, c7, d6, d7]
    exact hb
  · exact ⟨⟨by rw [c1, d1, k.cfg], by rw [c2, d2, k.dout], by rw [c3, d3, k.env], by rw [s8, t8, k.timer],
      by rw [c4, d4, k.irqStatus], by rw [c5, d5]; exact k.irqSet⟩, .inr ⟨by rw [s1, a.sig], by rw [s2, a.pending],
      by rw [s3, t3, a.fill], by rw [t4, a.txState], by rw [t5, a.txLed], by rw [t6, a.txBit], by rw [t7, a.txPhase],
      by rw [s9, t9, a.frameCount]⟩⟩

theorem HostEffect.refl (s : State) : HostEffect s s :=
  ⟨⟨rfl, rfl, rfl, rfl, rfl, fun _ h => h⟩, .inl ⟨rfl, rfl, rfl, rfl, rfl, rfl, rfl, id, rfl⟩⟩

/-- An update of the host's side only. -/
theorem HostEffect.of_host_side {s t : State} (h : SameScheduler s t)
    (c : t.cfg = s.cfg ∧ t.dout = s.dout ∧ t.env = s.env ∧ t.irqStatus = s.irqStatus ∧ t.irqSet = s.irqSet ∧
      t.bp0 = s.bp0 ∧ t.bp1 = s.bp1) : HostEffect s t :=
  (HostEffect.refl s).of_eq ⟨rfl, rfl, rfl, rfl, rfl, rfl, rfl, rfl, rfl⟩ h ⟨rfl, rfl, rfl, rfl, rfl, rfl, rfl⟩ c

theorem HostEffect.raise (e : ErrCode) (info : Word) (s : State) : HostEffect s (raiseError e info s) :=
  ⟨⟨rfl, rfl, rfl, rfl, rfl, fun b h => by simp [h]⟩, .inl ⟨rfl, rfl, rfl, rfl, rfl, rfl, rfl, id, rfl⟩⟩

theorem HostEffect.beginStall {s t : State} (h : HostEffect s t) : HostEffect s (beginStall t) := by
  unfold Machine.beginStall
  split <;>
    exact h.of_eq ⟨rfl, rfl, rfl, rfl, rfl, rfl, rfl, rfl, rfl⟩ ⟨rfl, rfl, rfl, rfl, rfl, rfl, rfl, rfl, rfl⟩
      ⟨rfl, rfl, rfl, rfl, rfl, rfl, rfl⟩ ⟨rfl, rfl, rfl, rfl, rfl, rfl, rfl⟩

/-- Everything a command can do to the transmitter's side. -/
theorem exec_hostEffect {i : Instr} {s t : State} (h : exec i s = .next t) : HostEffect s t := by
  cases i with
  | nop => cases h; exact .refl s
  | clear =>
    cases h
    exact .beginStall (.of_host_side ⟨rfl, rfl, rfl, rfl, rfl, rfl, rfl, rfl, rfl⟩ ⟨rfl, rfl, rfl, rfl, rfl, rfl, rfl⟩)
  | process g d =>
    cases h
    exact .beginStall (.of_host_side ⟨rfl, rfl, rfl, rfl, rfl, rfl, rfl, rfl, rfl⟩ ⟨rfl, rfl, rfl, rfl, rfl, rfl, rfl⟩)
  | encode =>
    simp only [exec, execEncode] at h
    split at h
    · cases h; exact .raise _ _ _
    · cases h
      apply HostEffect.beginStall
      unfold State.setBp
      split
      · rename_i hf
        exact ⟨⟨rfl, rfl, rfl, rfl, rfl, fun _ h => h⟩,
          .inl ⟨rfl, rfl, rfl, rfl, rfl, rfl, rfl, id, by simp [hf, State.bp]⟩⟩
      · rename_i hf
        exact ⟨⟨rfl, rfl, rfl, rfl, rfl, fun _ h => h⟩,
          .inl ⟨rfl, rfl, rfl, rfl, rfl, rfl, rfl, id, by simp [hf, State.bp]⟩⟩
  | submit =>
    simp only [exec, execSubmit] at h
    split at h
    · cases h; exact .raise _ _ _
    · rename_i hp
      split at h
      · rename_i hs
        cases h
        exact ⟨⟨rfl, rfl, rfl, rfl, rfl, fun b h => by simp [h]⟩,
          .inr ⟨hs, by simpa using hp, rfl, rfl, rfl, rfl, rfl, rfl⟩⟩
      · cases h
        exact ⟨⟨rfl, rfl, rfl, rfl, rfl, fun _ h => h⟩, .inl ⟨rfl, rfl, rfl, rfl, rfl, rfl, rfl, fun _ => rfl, rfl⟩⟩

theorem HostEffect.bad (w : Bool) (off : BitVec 21) (s : State) : HostEffect s (badAccess w off s) := by
  unfold badAccess
  cases w
  · exact (HostEffect.raise .badAccess (accessInfo false off) { s with readData := some 0 }).of_eq
      ⟨rfl, rfl, rfl, rfl, rfl, rfl, rfl, rfl, rfl⟩ ⟨rfl, rfl, rfl, rfl, rfl, rfl, rfl, rfl, rfl⟩
      ⟨rfl, rfl, rfl, rfl, rfl, rfl, rfl⟩ ⟨rfl, rfl, rfl, rfl, rfl, rfl, rfl⟩
  · exact HostEffect.raise _ _ _

/-- Everything a host access can do to the transmitter's side. -/
theorem hostAccess_hostEffect {a : BusAccess} {s t : State} (h : hostAccess a s = .next t) : HostEffect s t := by
  unfold hostAccess at h
  split at h
  · cases h; exact .refl s
  · split at h
    · split at h
      · unfold memWrite at h
        split at h
        · unfold issueCommand at h
          split at h
          · exact exec_hostEffect h
          · cases h; exact .raise _ _ _
        all_goals
          cases h
          first
          | exact HostEffect.bad _ _ _
          | exact .of_host_side ⟨rfl, rfl, rfl, rfl, rfl, rfl, rfl, rfl, rfl⟩ ⟨rfl, rfl, rfl, rfl, rfl, rfl, rfl⟩
      · cases h
        unfold memRead
        split
        · exact .of_host_side ⟨rfl, rfl, rfl, rfl, rfl, rfl, rfl, rfl, rfl⟩ ⟨rfl, rfl, rfl, rfl, rfl, rfl, rfl⟩
        · exact HostEffect.bad _ _ _
    · cases h; exact HostEffect.bad _ _ _

/-- Everything the host's phase can do to the transmitter's side. -/
theorem hostPhase_hostEffect {s t : State} (h : hostPhase s = .next t) : HostEffect s t := by
  unfold hostPhase at h
  split at h
  · cases h
    exact .of_host_side ⟨rfl, rfl, rfl, rfl, rfl, rfl, rfl, rfl, rfl⟩ ⟨rfl, rfl, rfl, rfl, rfl, rfl, rfl⟩
  · split at h
    · cases h; exact .refl s
    · cases h
      exact .of_host_side ⟨rfl, rfl, rfl, rfl, rfl, rfl, rfl, rfl, rfl⟩ ⟨rfl, rfl, rfl, rfl, rfl, rfl, rfl⟩
    · exact (hostAccess_hostEffect h).of_eq ⟨rfl, rfl, rfl, rfl, rfl, rfl, rfl, rfl, rfl⟩
        ⟨rfl, rfl, rfl, rfl, rfl, rfl, rfl, rfl, rfl⟩ ⟨rfl, rfl, rfl, rfl, rfl, rfl, rfl⟩
        ⟨rfl, rfl, rfl, rfl, rfl, rfl, rfl⟩
    · obtain ⟨u, hu, h⟩ := andThen_eq_next.mp h
      split at h <;> cases h
      · exact (hostAccess_hostEffect hu).of_eq ⟨rfl, rfl, rfl, rfl, rfl, rfl, rfl, rfl, rfl⟩
          ⟨rfl, rfl, rfl, rfl, rfl, rfl, rfl, rfl, rfl⟩ ⟨rfl, rfl, rfl, rfl, rfl, rfl, rfl⟩
          ⟨rfl, rfl, rfl, rfl, rfl, rfl, rfl⟩
      · exact hostAccess_hostEffect hu

/-! ### The phases of a step -/

/-- A step without rst is its two phases and the end-of-tick updates (R270). -/
theorem step_phases {s t : State} (hr : s.envNow.rst = false) (h : step s = .next t) :
    ∃ s1 s2, transmitPhase s.envNow.retrigger (beginTick s) = .next s1 ∧ hostPhase s1 = .next s2 ∧ t = endTick s2 := by
  unfold step at h
  split at h
  · simp only [tick, hr, Bool.false_eq_true, if_false] at h
    obtain ⟨s1, h1, h⟩ := andThen_eq_next.mp h
    obtain ⟨s2, h2, h⟩ := andThen_eq_next.mp h
    cases h
    exact ⟨s1, s2, h1, h2, rfl⟩
  · cases h

/-- Phase 1 keeps the configuration, the stall and the host's list. -/
theorem transmitPhase_keeps_host {r : Bool} {s t : State} (h : transmitPhase r s = .next t) :
    t.cfg = s.cfg ∧ t.stall = s.stall ∧ t.host = s.host := by
  unfold transmitPhase at h
  split at h
  · cases h; exact ⟨rfl, rfl, rfl⟩
  · unfold transmitStep at h
    split at h
    · cases h; unfold advance; split <;> [skip; split <;> [skip; split]] <;> exact ⟨rfl, rfl, rfl⟩
    · cases h
  · cases h
    split
    · exact ⟨rfl, rfl, rfl⟩
    · unfold timerStep timerExpire; dsimp only; split <;> [split; skip] <;> exact ⟨rfl, rfl, rfl⟩

/-- A step without rst whose phase 1 gives s1 is the host's phase on s1 and the end-of-tick updates (R270). -/
theorem step_of_transmitPhase {s s1 : State} (hc : s.cfg.wellFormed = true) (hr : s.envNow.rst = false)
    (h : transmitPhase s.envNow.retrigger (beginTick s) = .next s1) :
    step s = andThen (hostPhase s1) fun s2 => .next (endTick s2) := by
  simp only [step, hc, if_true, tick, hr, Bool.false_eq_true, if_false]
  rw [h]
  rfl

/-- The host's phase without a stall, by the host's next action (R270, R132). -/
theorem hostPhase_of_no_stall {s : State} (h : s.stall = 0) :
    hostPhase s =
      match s.host with
      | [] => .next s
      | .idle :: rest => .next { s with host := rest }
      | .access a :: rest => hostAccess a { s with host := rest }
      | .waitUntil off mask value :: rest => hostWaitStep off mask value rest s := by
  unfold hostPhase
  refine (if_neg (by simpa using h)).trans ?_
  rcases s.host with _ | ⟨a, rest⟩
  · rfl
  · cases a <;> rfl

/-! ### Several ticks -/

theorem runTicks_succ {s t : State} (n : Nat) (h : step s = .next t) : s.runTicks (n + 1) = t.runTicks n := by
  show andThen (step s) _ = _
  rw [h]
  rfl

theorem runTicks_one (s : State) : s.runTicks 1 = step s := by
  show andThen (step s) _ = _
  cases step s <;> rfl

/-- A run of m + n ticks is a run of m and then one of n. -/
theorem runTicks_add {s t : State} {m : Nat} (n : Nat) (h : s.runTicks m = .next t) :
    s.runTicks (m + n) = t.runTicks n := by
  induction m generalizing s with
  | zero => cases h; rw [Nat.zero_add]
  | succ m ih =>
    obtain ⟨u, hu, h⟩ := andThen_eq_next.mp (show andThen (step s) (State.runTicks m) = .next t from h)
    rw [show m + 1 + n = (m + n) + 1 by omega, runTicks_succ _ hu]
    exact ih h

/-- The first of n + 1 ticks without rst, and the n after it. -/
theorem noReset_succ {s : State} {n : Nat} (h : s.noReset (n + 1) = true) :
    s.envNow.rst = false ∧ ∀ t : State, t.env = s.env.tail → t.noReset n = true := by
  unfold State.noReset at h
  cases he : s.env with
  | nil => exact ⟨by simp [State.envNow, he], fun t ht => by simp [State.noReset, ht]⟩
  | cons e l =>
    rw [he] at h
    simp only [List.take_succ_cons, List.all_cons, Bool.and_eq_true] at h
    exact ⟨by simpa [State.envNow, he] using h.1, fun t ht => by rw [State.noReset, ht]; exact h.2⟩

/-- The first of n + 1 quiet ticks, and the n after it. -/
theorem quiet_succ {s : State} {n : Nat} (h : s.quiet (n + 1) = true) :
    s.envNow.rst = false ∧ s.envNow.retrigger = false ∧ ∀ t : State, t.env = s.env.tail → t.quiet n = true := by
  unfold State.quiet at h
  cases he : s.env with
  | nil => exact ⟨by simp [State.envNow, he], by simp [State.envNow, he], fun t ht => by simp [State.quiet, ht]⟩
  | cons e l =>
    rw [he] at h
    simp only [List.take_succ_cons, List.all_cons, Bool.and_eq_true] at h
    exact ⟨by simpa [State.envNow, he] using h.1.1, by simpa [State.envNow, he] using h.1.2,
      fun t ht => by rw [State.quiet, ht]; exact h.2⟩

theorem noReset_mono {s : State} {m n : Nat} (h : s.noReset n = true) (hm : m ≤ n) : s.noReset m = true := by
  unfold State.noReset at h ⊢
  rw [List.all_eq_true] at h ⊢
  exact fun x hx => h x ((List.take_prefix_take_left hm).sublist.subset hx)

theorem quiet_mono {s : State} {m n : Nat} (h : s.quiet n = true) (hm : m ≤ n) : s.quiet m = true := by
  unfold State.quiet at h ⊢
  rw [List.all_eq_true] at h ⊢
  exact fun x hx => h x ((List.take_prefix_take_left hm).sublist.subset hx)

theorem noReset_of_quiet {s : State} {n : Nat} (h : s.quiet n = true) : s.noReset n = true := by
  unfold State.noReset State.quiet at *
  rw [List.all_eq_true] at h ⊢
  intro x hx
  have := h x hx
  simp only [Bool.and_eq_true] at this
  exact this.1

/-- After k ticks the coming n of the k + n are still without rst. -/
theorem noReset_drop {s t : State} {k n : Nat} (h : s.noReset (k + n) = true) (ht : t.env = s.env.drop k) :
    t.noReset n = true := by
  unfold State.noReset at h ⊢
  rw [List.all_eq_true] at h ⊢
  intro x hx
  rw [ht] at hx
  exact h x (by rw [List.take_add]; exact List.mem_append_right _ hx)

theorem quiet_drop {s t : State} {k n : Nat} (h : s.quiet (k + n) = true) (ht : t.env = s.env.drop k) :
    t.quiet n = true := by
  unfold State.quiet at h ⊢
  rw [List.all_eq_true] at h ⊢
  intro x hx
  rw [ht] at hx
  exact h x (by rw [List.take_add]; exact List.mem_append_right _ hx)

end Sys2Proof.Machine
end

