-- ==== Sys2Proof/Tests/Slice0.lean ====
section
/-!
SUPPORT. The model's own tests: words written out bit by bit (R120, R121), ill-formed terms each check refuses, one-step
tests whose expected values are those of 95_test_vectors.md, and for every obligation with hypotheses a named witness that
meets them. Sources: V1 to V51 of 95_test_vectors.md, or hand calculation from the rule a comment names.
-/

namespace Sys2Proof.Tests

open Sys2Proof Sys2Proof.Machine

set_option maxRecDepth 20000

/-! ### Decoding (V2) -/

theorem test_decode_nop : decodeWord 0b00000000000000000000000000000000 = .command .nop := by decide
theorem test_decode_clear : decodeWord 0b00000000000000000000000000000001 = .command .clear := by decide
theorem test_decode_process_gd : decodeWord 0b00000000000000000000001100000010 = .command (.process true true) := by decide
theorem test_decode_process_g : decodeWord 0b00000000000000000000000100000010 = .command (.process true false) := by decide
theorem test_decode_process_d : decodeWord 0b00000000000000000000001000000010 = .command (.process false true) := by decide
theorem test_decode_process_none : decodeWord 0b00000000000000000000000000000010 = .command (.process false false) := by
  decide
theorem test_decode_encode : decodeWord 0b00000000000000000000000000000011 = .command .encode := by decide
theorem test_decode_submit : decodeWord 0b00000000000000000000000000000100 = .command .submit := by decide

/-- The illegal words of V2, each with its reason. -/
theorem test_decode_illegal :
    decodeWord 0x00000005 = .illegal .opReserved ∧ decodeWord 0x0000000F = .illegal .opReserved ∧
      decodeWord 0x00000010 = .illegal .midBitsReserved ∧ decodeWord 0x00000312 = .illegal .midBitsReserved ∧
      decodeWord 0x00000100 = .illegal .flagsReserved ∧ decodeWord 0x00000103 = .illegal .flagsReserved ∧
      decodeWord 0x00000204 = .illegal .flagsReserved ∧ decodeWord 0x00000400 = .illegal .highBitsReserved ∧
      decodeWord 0x80000002 = .illegal .highBitsReserved ∧ decodeWord 0xFFFFFFFF = .illegal .highBitsReserved := by
  decide

/-- A command is exactly four bytes, lane 0 first (R88, R129). -/
theorem test_decode_bytes :
    decodeBytes [0x02, 0x01, 0x00, 0x00] = .command (.process true false) ∧ decodeBytes [0x04] = .illegal .notOneWord ∧
      decodeBytes [0x00, 0x00, 0x00, 0x04] = .illegal .highBitsReserved ∧
      decodeBytes [0x04, 0x00, 0x00, 0x00, 0x00] = .illegal .notOneWord := by
  decide

/-- The host's reading of the decoder, row by row of the opcode table. -/
theorem test_decodeTableWord :
    decodeTableWord 32 0x000 = some .nop ∧ decodeTableWord 32 0x001 = some .clear ∧
      decodeTableWord 32 0x302 = some (.process true true) ∧ decodeTableWord 32 0x003 = some .encode ∧
      decodeTableWord 32 0x004 = some .submit ∧ decodeTableWord 32 0x005 = none := by
  decide

/-- Assembler lines (R131). -/
theorem test_assembler :
    Instr.ofAsm "PROCESS g=1, d=0" = some (.process true false) ∧ Instr.ofAsm "SUBMIT" = some .submit ∧
      Instr.ofAsm "PROCESS" = none := by
  decide

/-! ### Well-formedness: each check refuses an ill-formed term -/

theorem smoke_opOk : opOk 0x5 = false ∧ wordWellFormed 0x5 = false := by decide
theorem smoke_midBitsOk : midBitsOk 0x10 = false ∧ wordWellFormed 0x10 = false := by decide
theorem smoke_highBitsOk : highBitsOk 0x400 = false ∧ wordWellFormed 0x400 = false := by decide
theorem smoke_flagBitsOk : flagBitsOk 0x103 = false ∧ wordWellFormed 0x103 = false := by decide
theorem smoke_instr : (Instr.all.map Instr.wellFormed).all id = true ∧ (Instr.all.map fun i => wordWellFormed (encode i)).all id = true := by
  decide

/-- The test configuration TA (95_test_vectors.md section 0) is well formed. -/
theorem testA_wellFormed : Config.testA.wellFormed = true := by decide

theorem smoke_strips : ({ Config.testA with strips := 9 } : Config).stripsOk = false := by decide
theorem smoke_tileSize : ({ Config.testA with matrixW := 256 } : Config).tileSizeOk = false := by decide
theorem smoke_leds :
    ({ Config.testA with matrixW := 255, matrixH := 255, matricesPerStrip := 1 } : Config).ledsOk = false := by decide
theorem smoke_tiles : ({ Config.testA with tileRows := 2 } : Config).tilesOk = false := by decide
theorem smoke_size : ({ Config.testA with tileCols := 40000 } : Config).sizeOk = false := by decide
theorem smoke_pulses : ({ Config.testA with t0h := 2 } : Config).pulsesOk = false := by decide
theorem smoke_resetTicks : ({ Config.testA with resetTicks := 4294967296 } : Config).resetTicksOk = false := by decide

/-- Not injective; not onto; an entry outside. -/
theorem smoke_tileOrder :
    ({ Config.testA with tileOrder := [⟨0, 0⟩, ⟨0, 0⟩] } : Config).tileOrderOk = false ∧
      ({ Config.testA with tileOrder := [⟨0, 0⟩] } : Config).tileOrderOk = false ∧
      ({ Config.testA with tileOrder := [⟨0, 0⟩, ⟨1, 1⟩] } : Config).tileOrderOk = false := by decide

/-- GT[0] not 0; a table of the wrong length; a table that falls. -/
theorem smoke_gamma :
    ({ Config.testA with gt := List.replicate 256 255 } : Config).gammaOk = false ∧
      ({ Config.testA with gt := [0, 255] } : Config).gammaOk = false ∧
      ({ Config.testA with gt := 0 :: 2 :: 1 :: List.replicate 253 255 } : Config).gammaOk = false := by decide
theorem smoke_platform : ({ Config.testA with base := 4 } : Config).platformOk = false := by decide

/-- GT of V1 is R9 at γ = 14/5, entry by entry, by exact integer arithmetic. -/
theorem test_gamma_table : ∀ i, i < 256 → Config.isRounded 14 5 i (Config.testA.gtAt i).toNat = true := by decide

/-! ### States the tests start from -/

/-- TA after reset, with every command's duration drawn as one tick (95_test_vectors.md section 0). -/
def base : State := { State.reset with cmdDraws := [0, 0] }

/-- Right after an accept. -/
def sending : State := { base with sig := false, fill := true, txState := .transmitting, frameCount := 1 }

/-- Right after an accept, with a second submit waiting. -/
def pending : State := { sending with submitPending := true }

/-- The last tick of a frame is next: LED 3, plane 23, phase 3 of TA. -/
def lastTick : State := { sending with txLed := 3, txBit := 23, txPhase := 3 }

/-- The reset window has just begun. -/
def waiting : State := { sending with txState := .resetWait, timer := 5 }

/-- The expiry tick is next, with no submit waiting. -/
def expiring : State := { waiting with timer := 1 }

/-- The expiry tick is next, and a submit waits. -/
def expiringPending : State := { expiring with submitPending := true }

/-- The block of TA with a write to an offset as the host's next action. -/
def writes (s : State) (off : Nat) (v : Word) : State := { s with host := [hostWrite Config.testA off v] }

/-- A command's stall still lasts two ticks after this one. -/
def stalled : State := { writes base 0x020 0x3 with stall := 2 }

/-- A tick with rst = 1 is next, while a frame is sent. -/
def resetting : State := { sending with env := [{ rst := true, retrigger := false }] }

/-- The host reads STATUS in that tick. -/
def resettingRead : State := { resetting with host := [hostRead Config.testA 0x024] }

/-- A frame has just been accepted; its reset window will be re-triggered. -/
def sendingRetriggered : State :=
  { sending with
    env := List.replicate 386 { rst := false, retrigger := false : EnvTick } ++ [{ rst := false, retrigger := true }] }

/-- A configuration that breaks R7. -/
def badConfig : State := State.resetOf { Config.testA with strips := 0 }

/-- The next state, where there is one. -/
def next? (o : Host.Outcome State Fault Refusal) : Option State :=
  match o with
  | .next s => some s
  | .fault _ => none
  | .refused _ => none

/-- The next state of a command on a state. -/
def run (i : Instr) (s : State) : Option State := next? (exec i s)

theorem inv_base : base.Inv := by decide
theorem inv_sending : sending.Inv := by decide
theorem inv_pending : pending.Inv := by decide
theorem inv_lastTick : lastTick.Inv := by decide
theorem inv_waiting : waiting.Inv := by decide

/-! ### One step each -/

/-- V2, R155: a NOP written to CMD changes no register and stores nothing. -/
theorem test_nop : (next? (step (base.withFetchWord 32 0x0))).map (fun t => (statusWord t, t.pix, t.errStatus)) =
    some (0x9, [], 0) := by decide

/-- V4: CLEAR blacks out PIX[5] and keeps DITHER[5]. -/
theorem test_clear :
    (run .clear { (setPixel 5 0x123456 base) with errs := [(15, 1), (16, 1), (17, 1)], qv := [(15, 18), (16, 57), (17, 127)] }).map
      (fun t => (pixelWord t 5, ditherWord t 5, t.pix)) = some (0x0, 0x0712397F, []) := by decide

/-- V3, row 1. -/
theorem test_process_gamma_dither :
    (run (.process true true) (setPixel 0 0x80C0FF base)).map (fun t => (pixelWord t 0, ditherWord t 0)) =
      some (0x2472FE, 0x0712397F) := by decide

/-- V3, row 6, the second time: saturation at 255. -/
theorem test_process_saturates :
    (run (.process false true) { (setPixel 0 0xFFFFFF base) with errs := [(0, 1), (1, 1), (2, 1)] }).map
      (fun t => (pixelWord t 0, ditherWord t 0)) = some (0xFFFFFF, 0x00808080) := by decide

/-- V20: the single lit pixel of TA. -/
theorem test_encode :
    (run .encode (setPixel 0 0xFF0000 base)).map (fun t => ((List.range 24).map (planeWord t false), t.bp1)) =
      some (List.replicate 20 0 ++ [0x01010101, 0x01010101] ++ List.replicate 2 0, []) := by decide

/-- T8 of 95_test_vectors.md section 0. -/
def testT8 : Config :=
  { Config.testA with
    strips := 8, matrixW := 1, matrixH := 1, tileCols := 8, tileOrder := Config.defaultTileOrder 1 8 }

/-- V21: eight strips. -/
theorem test_encode_eight_strips :
    (run .encode
      ((setPixel 0 0x0080FF ∘ setPixel 1 0x014000 ∘ setPixel 2 0x0220FF ∘ setPixel 3 0x031000 ∘ setPixel 4 0x0408FF ∘
        setPixel 5 0x050400 ∘ setPixel 6 0x0602FF ∘ setPixel 7 0x070100) { State.resetOf testT8 with cmdDraws := [0] })).map
      (fun t => (List.range 6).map (planeWord t false)) =
      some [0x08040201, 0x80402010, 0x00000000, 0xAACCF000, 0x55555555, 0x55555555] := by decide

/-- V30: the first SUBMIT, through the host's write to CMD. -/
theorem test_submit :
    (next? (step (base.withFetchWord 32 0x4))).map
      (fun t => (readReg t .status, readReg t .frameCount, readReg t .irqStatus)) = some (0x14, 0x1, 0x4) := by decide

/-- V33: SUBMIT while one is pending. -/
theorem test_submit_rejected :
    (next? (step (pending.withFetchWord 32 0x4))).map
      (fun t => (readReg t .errStatus, readReg t .errLast, readReg t .errInfo, readReg t .status)) =
      some (0x4, 0x80000002, 0x4, 0x16) := by decide

/-- V50: a word that is no command, through the host's write to CMD. -/
theorem test_illegal_command :
    (next? (step (base.withFetchWord 32 0x5))).map
      (fun t => (readReg t .errStatus, readReg t .errLast, readReg t .errInfo, readReg t .irqStatus)) =
      some (0x1, 0x80000000, 0x5, 0x8) := by decide

/-- V50: a byte write at 0x021 decodes no command. -/
theorem test_byte_write :
    (next? (hostAccess { addr := 0x21, write := true, width := .byte, lanes := 0b0010, data := 0 } base)).map
      (fun t => (t.errLast, t.errInfo)) = some (0x80000003, 0x80000021) := by decide

/-- V50: reads and writes that hit and miss. -/
theorem test_bad_accesses :
    (memRead 0x040020 base).errInfo = 0x00040020 ∧ (memRead 0x050 base).errInfo = 0x00000050 ∧
      (memRead 0x40010 base).errLast = 0 ∧ (next? (memWrite 0x100000 1 base)).map (·.errInfo) = some 0x80100000 ∧
      (next? (memWrite 0x02C 0xFFFFFFF0 base)).map (fun t => (t.irqEnable, t.errLast)) = some (0, 0) := by decide

/-- V51: the configuration registers of TA, and STATUS and MAP_OUT after reset. -/
theorem test_reset_reads :
    [Reg.id, .cfg0, .cfg1, .cfg2, .cfg3, .tcfg0, .tcfg1, .tcfg2, .status, .mapOut].map (readReg State.reset) =
      [0x55504E47, 0x01020212, 0x00010002, 0x00020004, 0x00000004, 0x00000004, 0x00020001, 0x00000005, 0x00000009,
        0x80000003] := by decide

/-- V10: the map of TA. -/
theorem test_map :
    [(0, 0), (1, 0), (2, 0), (3, 0), (0, 1), (1, 1), (2, 1), (3, 1)].map (fun p => mapPixel Config.testA p.1 p.2) =
      [⟨0, 3⟩, ⟨0, 2⟩, ⟨1, 3⟩, ⟨1, 2⟩, ⟨0, 0⟩, ⟨0, 1⟩, ⟨1, 0⟩, ⟨1, 1⟩] := by decide

/-- TD of 95_test_vectors.md section 0. -/
def testD : Config :=
  { Config.testA with
    strips := 1, matrixW := 3, matricesPerStrip := 2, tileCols := 1, tileRows := 2, bottomUp := false,
    tileOrder := Config.defaultTileOrder 2 2 }

theorem testD_wellFormed : testD.wellFormed = true := by decide

/-- V12: the map of TD, odd width and BOTTOM_UP = 0, row by row. -/
theorem test_map_top_down :
    (List.range 12).map (fun p => mapPixel testD (p % 3) (p / 3)) =
      [⟨0, 0⟩, ⟨0, 1⟩, ⟨0, 2⟩, ⟨0, 5⟩, ⟨0, 4⟩, ⟨0, 3⟩, ⟨0, 6⟩, ⟨0, 7⟩, ⟨0, 8⟩, ⟨0, 11⟩, ⟨0, 10⟩, ⟨0, 9⟩] := by decide

/-- V40: a slot of a 1 on strip 0 and a 0 on strip 1 (T1H = 2, T0H = 1, T_BIT = 4). -/
theorem test_slot :
    [0, 1, 2, 3].map (fun p => drivePins { sending with bp0 := [(80, 1)], txLed := 3, txBit := 8, txPhase := p }) =
      [0b11, 0b01, 0b00, 0b00] := by decide

/-- V42: set wins over clear in the DmaComplete tick. -/
theorem test_set_wins :
    (next? (step (writes { lastTick with irqStatus := 0x4 } 0x028 0x1))).map
      (fun t => (readReg t .irqStatus, readReg t .timer, readReg t .status)) = some (0x5, 5, 0x24) := by decide

/-- V41: a re-trigger reloads the timer. -/
theorem test_retrigger :
    (next? (step { waiting with timer := 4, env := [{ rst := false, retrigger := true }] })).map
      (fun t => (t.timer, t.irqStatus)) = some (5, 0x1) := by decide

/-- V31: the expiry tick with a submit waiting. -/
theorem test_expiry_accepts :
    (next? (step expiringPending)).map
      (fun t => (readReg t .status, readReg t .frameCount, readReg t .irqStatus)) = some (0x18, 2, 0x6) := by decide

/-- R310: a write in a tick with rst = 1 is ignored, a read of it returns 0. -/
theorem test_reset_tick :
    (next? (step resettingRead)).map
      (fun t => (statusWord t, t.readData, t.host)) = some (0x9, some 0, []) := by decide

/-! ### Witnesses: states and operands that meet the hypotheses of each statement, all together -/

theorem witness_DecodeAcceptsTheWellFormedWords : decodeWord 0x102 = .command (.process true false) := by decide
theorem witness_ClearBlackensEveryPixel :
    Memory.wf (setPixel 5 0x123456 base).pix = true ∧ 5 < base.cfg.numPix ∧ 3 * base.cfg.numPix ≤ 24 := by decide
theorem witness_ProcessAppliesGammaThenDither :
    (setPixel 0 0x80C0FF base).MemoryOk ∧ 0 < base.cfg.numPix ∧ 7 < base.cfg.numPix := by decide
theorem witness_ProcessWithoutFlagsChangesNothing : Memory.wf (setPixel 7 0xFFFFFF base).pix = true := by decide
theorem witness_EncodeTransposesThePixels :
    Memory.wf (base.bp base.fill) = true ∧ base.submitPending = false ∧ 0 < base.cfg.leds ∧ 3 < base.cfg.leds := by decide
/-- A rejected command, and one that executes, in both columns of the table of R152. -/
theorem witness_EncodeAndSubmitAreRejectedWhilePending :
    pending.submitPending = true ∧ (pending.submitPending = true → Instr.clear ≠ .encode ∧ Instr.clear ≠ .submit) ∧
      (base.submitPending = true → Instr.encode ≠ .encode ∧ Instr.encode ≠ .submit) := by decide
theorem witness_SubmitAcceptsOrWaits :
    (base.submitPending = false ∧ base.sig = true) ∧ (sending.submitPending = false ∧ sending.sig = false) := by decide

/-- Both sides of the equivalence: a command that records an error, and one that does not. -/
theorem witness_AcceptanceDependsOnPendingOnly :
    (pending.errSet = 0 ∧ ∃ t, exec .encode pending = .next t ∧ t.errSet ≠ 0) ∧
      (base.errSet = 0 ∧ ∃ t, exec .clear base = .next t ∧ t.errSet = 0) :=
  ⟨⟨rfl, _, rfl, by decide⟩, rfl, _, rfl, rfl⟩
theorem witness_OnlySubmitWritesTheScheduler :
    (Instr.encode ≠ .submit ∧ ∃ t, exec .encode pending = .next t) ∧
      (Instr.clear ≠ .submit ∧ ∃ t, exec .clear base = .next t) := ⟨⟨by decide, _, rfl⟩, by decide, _, rfl⟩

/-- Each command, at offsets next to the windows it stores to. -/
theorem witness_CommandsKeepEveryOtherByte :
    (∀ i ∈ Instr.all, (run i base).isSome = true) ∧
      storesTo .nop base 0x40000 = false ∧ storesTo .clear base 0x80000 = false ∧
      storesTo (.process true true) base 0xC0000 = false ∧ storesTo (.process true false) base 0x80000 = false ∧
      storesTo .encode base 0xFFFFF = false ∧ storesTo .encode base 0x140000 = false ∧
      storesTo .encode sending 0x13FFFF = false ∧ storesTo .submit base 0x1FFFFF = false := by decide
theorem witness_ConstantInputAlternates :
    (254 : Byte).toNat % 2 = 0 ∧ ((253 : Byte).toNat % 2 = 1 ∧ (253 : Byte).toNat ≤ 253) ∧ (255 : Byte) = 255 := by decide

/-- V5: the outputs of frames 1 and 2 for v = 37 and v = 255 from e = 0. -/
theorem test_constant_input :
    [ditherRun 37 false 0, ditherRun 37 false 1, ditherRun 255 false 0, ditherRun 255 false 1] = [36, 38, 254, 255] := by
  decide
theorem witness_GammaTableIsMonotone : Config.testA.wellFormed = true ∧ 254 ≤ 255 ∧ 255 < 256 :=
  ⟨testA_wellFormed, by decide, by decide⟩
theorem witness_LayoutIsABijection :
    Config.testA.wellFormed = true ∧ (3 < Config.testA.width ∧ 1 < Config.testA.height) ∧
      (1 < Config.testA.strips ∧ 3 < Config.testA.leds) := ⟨testA_wellFormed, by decide⟩

/-- The coordinate in a MAP_IN word (R49). -/
def coordOf (v : Word) : Nat × Nat := ((v.extractLsb' 0 16).toNat, (v.extractLsb' 16 16).toNat)

theorem test_coords :
    [0x00000000, 0x00010003, 0x00000004, 0x00030002, 0x00040000].map coordOf = [(0, 0), (3, 1), (4, 0), (2, 3), (0, 4)] := by
  decide

/-- For both values of BOTTOM_UP (TA is 4 × 2, TD 3 × 4): the corners (0, 0) and (3, 1), (2, 3), on even and odd physical rows,
and the coordinates (4, 0) and (0, 4) just outside. -/
theorem witness_MapOutLooksUpTheLayout :
    (Config.testA.wellFormed = true ∧ testD.wellFormed = true) ∧
      (0 < Config.testA.tileCols * Config.testA.matrixW ∧ 0 < Config.testA.tileRows * Config.testA.matrixH) ∧
      (3 < Config.testA.tileCols * Config.testA.matrixW ∧ 1 < Config.testA.tileRows * Config.testA.matrixH) ∧
      (2 < testD.tileCols * testD.matrixW ∧ 3 < testD.tileRows * testD.matrixH) ∧
      ¬4 < Config.testA.tileCols * Config.testA.matrixW ∧ ¬4 < testD.tileRows * testD.matrixH :=
  ⟨⟨testA_wellFormed, testD_wellFormed⟩, by decide⟩
theorem witness_EncoderFormulationsAgree : Memory.wf (base.bp base.fill) = true := by decide
theorem witness_PinsFollowThePlaneByte :
    sending.txState = .transmitting ∧ ∃ t, transmitPhase false sending = .next t :=
  ⟨rfl, by simp [transmitPhase, sending, transmitStep, State.positionOk, base, State.reset, State.resetOf, Config.testA, Config.leds]⟩
theorem witness_IdleTransmitterChangesNothing : base.txState = .idle := by decide
theorem witness_PositionAdvancesByOneTick :
    sending.MidInv ∧ sending.txState = .transmitting ∧ sending.ticksSent + 1 < sending.cfg.frameTicks :=
  ⟨inv_sending.1, by decide⟩
theorem witness_DmaCompletionArmsTheTimer :
    lastTick.MidInv ∧ lastTick.txState = .transmitting ∧ lastTick.ticksSent + 1 = lastTick.cfg.frameTicks :=
  ⟨inv_lastTick.1, by decide⟩
theorem witness_ResetTimerCountsDown :
    (waiting.txState = .resetWait ∧ waiting.timer ≠ 0 ∧ waiting.timer ≠ 1) ∧ (expiring.txState = .resetWait ∧ expiring.timer = 1) := by decide
theorem witness_ExpiryReleasesTheSignal :
    (expiring.txState = .resetWait ∧ expiring.timer = 1 ∧ expiring.submitPending = false) ∧
    expiringPending.txState = .resetWait ∧ expiringPending.submitPending = true ∧ expiringPending.timer = 1 := by decide
theorem witness_RetriggerRearmsTheTimer : waiting.txState = .resetWait ∧ sending.txState ≠ .resetWait := by decide
theorem witness_TransmitterKeepsTheRenderSide :
    (∃ t, transmitPhase false base = .next t) ∧ ∃ t, transmitPhase true waiting = .next t := ⟨⟨_, rfl⟩, _, rfl⟩
theorem witness_SetWinsOverClear :
    (writes lastTick 0x028 0x1).Inv ∧ (writes lastTick 0x028 0x1).txState = .transmitting ∧
      (writes lastTick 0x028 0x1).ticksSent + 1 = (writes lastTick 0x028 0x1).cfg.frameTicks ∧
      (writes lastTick 0x028 0x1).envNow.rst = false ∧ (writes lastTick 0x028 0x1).stall = 0 ∧
      (writes lastTick 0x028 0x1).host = hostWrite (writes lastTick 0x028 0x1).cfg 0x028 0x1 :: [] := by decide
theorem witness_EventBitsUpdate : 0 < 4 ∧ 3 < 4 := by decide

/-- The map at the edges of every window (TA has 8 pixels, 4 LEDs and 2 tiles). -/
theorem witness_AddressMapPlacesEveryWord :
    [0x0, 0x4F, 0x50, 0x3FF, 0x400, 0x7FF, 0x800, 0x807, 0x808, 0x27FF, 0x2800, 0x3FFFF].map (locate Config.testA) =
        [some (.reg .id), some (.reg .mapOut), none, none, some (.gamma 0), some (.gamma 255), some (.tile 0),
          some (.tile 1), none, none, none, none] ∧
      [0x40000, 0x4001F, 0x40020, 0x7FFFF, 0x80000, 0x8001F, 0x80020, 0xBFFFF, 0xC0000].map (locate Config.testA) =
        [some (.pix 0), some (.pix 7), none, none, some (.dither 0), some (.dither 7), none, none, none] ∧
      [0xFFFFF, 0x100000, 0x10005F, 0x100060, 0x13FFFF, 0x140000, 0x14005F, 0x140060, 0x180000, 0x1FFFFF].map
          (locate Config.testA) =
        [none, some (.plane false 0), some (.plane false 23), none, none, some (.plane true 0), some (.plane true 23), none,
          none, none] := by decide

/-- The 20 registers at the offsets of 10_state.md section 2. -/
theorem test_register_offsets :
    (List.range 20).map (fun j => locate Config.testA (4 * j)) =
      [Reg.id, .cfg0, .cfg1, .cfg2, .cfg3, .tcfg0, .tcfg1, .tcfg2, .cmd, .status, .irqStatus, .irqEnable, .errStatus,
        .errLast, .errInfo, .frameCount, .timer, .txPos, .mapIn, .mapOut].map fun r => some (.reg r) := by decide

/-- A register, an unmapped word, the last tile, both ends of GT, and the first and last lane of a plane word. -/
theorem witness_ReadsHaveNoSideEffect :
    locate base.cfg (0x024 : BitVec 21).toNat = some (.reg .status) ∧ locate base.cfg (0x40020 : BitVec 21).toNat = none ∧
      base.ConfigOk ∧ base.cfg.tileOrder[1]? = some { strip := 1, m := 0 } ∧ base.cfg.gt[0]? = some 0 ∧
      base.cfg.gt[255]? = some 255 ∧ 0 < 4 ∧ 3 < 4 := ⟨by decide, by decide, testA_wellFormed, by decide⟩

/-- R124, R125, R127 and R122: one word of each format, calculated by hand. -/
theorem test_word_formats :
    readEntry { base with errs := [(3, 1), (5, 1)], qv := [(3, 0x12), (4, 0x34), (5, 0x56)] } (.dither 1) = 0x05123456 ∧
      readEntry base (.tile 1) = 0x00010000 ∧
      readEntry { base with bp1 := [(28, 0x01), (31, 0x02)] } (.plane true 7) = 0x02000001 ∧
      readEntry base (.gamma 128) = 0x25 := by decide

/-- The offsets of the registers a write reaches, a register it does not, and a pixel just beyond the last. -/
theorem witness_WritesElsewhereAreBadAccesses :
    ((0x020 : BitVec 21).toNat % 4 = 0 ∧ (0x020 : BitVec 21).toNat = 0x020) ∧
      ((0x028 : BitVec 21).toNat % 4 = 0 ∧ (0x028 : BitVec 21).toNat = 0x028) ∧
      ((0x02C : BitVec 21).toNat % 4 = 0 ∧ (0x02C : BitVec 21).toNat = 0x02C) ∧
      ((0x030 : BitVec 21).toNat % 4 = 0 ∧ (0x030 : BitVec 21).toNat = 0x030) ∧
      ((0x048 : BitVec 21).toNat % 4 = 0 ∧ (0x048 : BitVec 21).toNat = 0x048) ∧
      ((0x4001C : BitVec 21).toNat % 4 = 0 ∧ Memory.wf base.pix = true ∧ (0x4001C : BitVec 21).toNat = 0x40000 + 4 * 7 ∧
        7 < base.cfg.numPix ∧ (0x4001C : BitVec 21).toNat ≤ 0x7FFFF ∧ 0 / 3 ≠ 7) ∧
      ∀ off ∈ [(0x000 : BitVec 21).toNat, (0x40020 : BitVec 21).toNat],
        off % 4 = 0 ∧ off ≠ 0x020 ∧ off ≠ 0x028 ∧ off ≠ 0x02C ∧ off ≠ 0x030 ∧ off ≠ 0x048 ∧
          ¬(0x40000 ≤ off ∧ (off - 0x40000) / 4 < base.cfg.numPix ∧ off ≤ 0x7FFFF) := by decide
theorem witness_PixelWriteReadsBack :
    Memory.wf base.pix = true ∧ 0x40000 ≤ (0x4001C : BitVec 21).toNat ∧ (0x4001C : BitVec 21).toNat ≤ 0x7FFFF ∧
      ((0x4001C : BitVec 21).toNat - 0x40000) / 4 < base.cfg.numPix ∧ 24 / 3 ≠ ((0x4001C : BitVec 21).toNat - 0x40000) / 4 := by
  decide

/-- One access for each of the three ways to be illegal, at the last byte of the window too. -/
theorem witness_IllegalAccessesOnlyRecordAnError :
    (offsetOf base.cfg 0x21 = some 0x21 ∧ AccessWidth.byte ≠ .word) ∧
      (offsetOf base.cfg 0x20 = some 0x20 ∧ (0b0111 : BitVec 4) ≠ 0xF) ∧
      (offsetOf base.cfg 0x1FFFFF = some 0x1FFFFF ∧ 0x1FFFFF % 4 ≠ 0) := by decide
theorem witness_ConfigurationRegistersReport : base.ConfigOk := testA_wellFormed

/-- The host's next action is a, of a block of TA with base address 0. -/
def acts (a : HostAction) : State := { base with host := [a] }

/-- Whatever the host's action, no stall is in progress, rst is 0 and phase 1 gives a state. -/
theorem acts_ready (a : HostAction) :
    (acts a).ConfigOk ∧ (acts a).envNow.rst = false ∧ (acts a).stall = 0 ∧
      ∃ s1, transmitPhase (acts a).envNow.retrigger (beginTick (acts a)) = .next s1 :=
  ⟨testA_wellFormed, rfl, rfl, _, rfl⟩

/-- For each clause an action that meets it: a legal command and an illegal word written to CMD; a legal read, a legal write
and a byte write at the ends of the window; an address just outside it; an aligned and an unaligned WAIT; an idle tick; the
end of the list. -/
theorem witness_StepIssuesTheDecodedCommand :
    ((acts (hostWrite Config.testA 0x020 0x3)).host = [hostWrite base.cfg 0x020 0x3] ∧
        decodeWord 0x3 = .command .encode ∧ decodeWord 0x5 = .illegal .opReserved) ∧
      (offsetOf base.cfg (readAccess 0x0).addr = some 0x0 ∧ (readAccess 0x0).legal = true ∧
        offsetOf base.cfg (writeAccess 0x1FFFFC 0x1).addr = some 0x1FFFFC ∧ (writeAccess 0x1FFFFC 0x1).legal = true) ∧
      (offsetOf base.cfg 0x1FFFFF = some 0x1FFFFF ∧ ¬0x1FFFFF % 4 = 0) ∧
      ¬(base.cfg.base ≤ 0x200000 ∧ 0x200000 ≤ base.cfg.base + 0x1FFFFF) ∧
      ((acts hostWaitFill).host = [hostWait 0x024 0x2 0x0] ∧ (0x024 : BitVec 21).toNat % 4 = 0) ∧
      ((acts (hostWait 0x025 0x2 0x0)).host = [hostWait 0x025 0x2 0x0] ∧ (0x025 : BitVec 21).toNat % 4 ≠ 0) ∧
      (acts .idle).host = [.idle] ∧ base.host = [] := by decide

/-- R132: a WAIT that its read does not satisfy stays at the head of the host's list, and one that it does is done. -/
theorem test_wait :
    (next? (step (acts (hostWait 0x024 0x1 0x0)))).map (·.host) = some [hostWait 0x024 0x1 0x0] ∧
      (next? (step (acts hostWaitIdle))).map (fun t => (t.host, t.readData)) = some ([], some 0x9) := by decide

/-- A stall in progress, and for its beginning a long command whose duration is drawn, one whose duration is the free value,
and a rejected one. -/
theorem witness_StalledHostIssuesNothing :
    (base.cmdDraws = 0 :: [0] ∧ State.reset.cmdDraws = [] ∧ pending.submitPending = true) ∧
      stalled.ConfigOk ∧ stalled.envNow.rst = false ∧ stalled.stall ≠ 0 ∧
      ∃ s1, transmitPhase stalled.envNow.retrigger (beginTick stalled) = .next s1 :=
  ⟨by decide, testA_wellFormed, rfl, by decide, _, rfl⟩

/-- ENCODE in a RESET_WAIT tick, and CLEAR in an expiry tick that accepts the submit that waits. -/
theorem witness_StalledCommandsCommuteWithTheTransmitter :
    (waiting.submitPending = false ∧ (∃ s1, transmitPhase false waiting = .next s1) ∧ ∃ t, exec .encode waiting = .next t) ∧
      (∃ s1, transmitPhase false expiringPending = .next s1) ∧ ∃ t, exec .clear expiringPending = .next t :=
  ⟨⟨rfl, ⟨_, rfl⟩, _, rfl⟩, ⟨_, rfl⟩, _, rfl⟩
theorem witness_BadConfigurationIsRefused : ¬1 ≤ badConfig.cfg.strips := by decide
theorem witness_ConfigurationNeverChanges : (next? (step base)).isSome = true := by decide
theorem witness_ResetTickRestoresEveryValue :
    resettingRead.ConfigOk ∧ resettingRead.envNow.rst = true ∧ resettingRead.stall = 0 ∧
      resettingRead.host = hostRead resettingRead.cfg 0x024 :: [] := ⟨testA_wellFormed, rfl, rfl, rfl⟩

/-- In a stall; an access, an idle tick and both kinds of WAIT, without one. -/
theorem witness_ResetTickUsesUpTheHostsAction :
    (resetting.ConfigOk ∧ resetting.envNow.rst = true) ∧
      ({ resetting with stall := 2 } : State).stall ≠ 0 ∧ resetting.stall = 0 ∧
      resettingRead.host = [.access (readAccess 0x24)] ∧ ({ resetting with host := [.idle] } : State).host = [.idle] ∧
      ({ resetting with host := [hostWaitFill] } : State).host = [hostWait 0x024 0x2 0x0] ∧
      ({ resetting with host := [hostWaitIdle] } : State).host = [hostWait 0x024 0x33 0x1] :=
  ⟨⟨testA_wellFormed, rfl⟩, by decide⟩
theorem witness_InvariantHoldsAfterReset : Config.testA.wellFormed = true := testA_wellFormed
theorem witness_EveryStepKeepsTheInvariant : lastTick.Inv ∧ (next? (step lastTick)).isSome = true :=
  ⟨inv_lastTick, by decide⟩
theorem witness_StepsFromTheInvariantComplete : pending.Inv := inv_pending

/-- A tick that accepts, a tick of a frame, and an idle tick. -/
theorem witness_FrameCountCountsAccepts :
    ((writes base 0x020 0x4).Inv ∧ (writes base 0x020 0x4).envNow.rst = false ∧
        (next? (step (writes base 0x020 0x4))).map (·.frameCount) = some 1) ∧
      (sending.Inv ∧ sending.envNow.rst = false ∧ (next? (step sending)).map (·.frameCount) = some 1) ∧
      (base.Inv ∧ base.envNow.rst = false ∧ (next? (step base)).map (·.frameCount) = some 0) :=
  ⟨by decide, by decide, by decide⟩

/-- The host encodes into the other buffer while this one is sent. -/
theorem witness_TransmittedBufferIsFrozen :
    (writes (setPixel 0 0xFF0000 sending) 0x020 0x3).Inv ∧
      (writes (setPixel 0 0xFF0000 sending) 0x020 0x3).txState = .transmitting ∧
      (writes (setPixel 0 0xFF0000 sending) 0x020 0x3).envNow.rst = false ∧
      (next? (step (writes (setPixel 0 0xFF0000 sending) 0x020 0x3))).map (·.bp1.length) = some 8 := by decide

/-- At both ends of a frame. -/
theorem witness_FrameLastsExactlyN :
    (sending.Inv ∧ sending.txState = .transmitting ∧ sending.noReset (sending.cfg.frameTicks - sending.ticksSent) = true) ∧
      (lastTick.Inv ∧ lastTick.txState = .transmitting ∧
        lastTick.noReset (lastTick.cfg.frameTicks - lastTick.ticksSent) = true) :=
  ⟨⟨inv_sending, by decide⟩, inv_lastTick, by decide⟩
theorem witness_FrameWaveform :
    sending.Inv ∧ sending.txState = .transmitting ∧ sending.ticksSent = 0 ∧ sending.noReset sending.cfg.frameTicks = true ∧
      0 < sending.cfg.frameTicks ∧ 383 < sending.cfg.frameTicks := ⟨inv_sending, by decide⟩
theorem witness_ResetWindowLastsTheTimer :
    (waiting.Inv ∧ waiting.txState = .resetWait ∧ waiting.quiet waiting.timer.toNat = true) ∧
      (expiringPending.Inv ∧ expiringPending.txState = .resetWait ∧
        expiringPending.quiet expiringPending.timer.toNat = true ∧ expiringPending.submitPending = true) :=
  ⟨⟨inv_waiting, by decide⟩, by decide⟩
theorem witness_RetriggerIsIdempotent :
    waiting.ConfigOk ∧ waiting.txState = .resetWait ∧
      ∃ t u, transmitPhase true waiting = .next t ∧ transmitPhase true t = .next u :=
  ⟨testA_wellFormed, rfl, _, _, rfl, rfl⟩

/-- With a re-trigger on the way. -/
theorem witness_AcceptsAreFarApart :
    sendingRetriggered.Inv ∧ sendingRetriggered.txState = .transmitting ∧ sendingRetriggered.ticksSent = 0 ∧
      sendingRetriggered.noReset (sendingRetriggered.cfg.frameTicks + sendingRetriggered.cfg.resetTicks) = true ∧
      388 < sendingRetriggered.cfg.frameTicks + sendingRetriggered.cfg.resetTicks := by decide
theorem witness_PinsStayLowBetweenFrames :
    sending.Inv ∧ sending.txState = .transmitting ∧ sending.ticksSent = 0 ∧
      sending.noReset (sending.cfg.frameTicks + sending.cfg.resetTicks) = true ∧
      (sending.cfg.frameTicks - (sending.cfg.tBit - sending.cfg.t1h) ≤ 382 ∧
        388 < sending.cfg.frameTicks + sending.cfg.resetTicks) := ⟨inv_sending, by decide⟩
theorem witness_PendingSubmitIsAcceptedInTime :
    pending.Inv ∧ pending.submitPending = true ∧ pending.quiet (pending.cfg.frameTicks + pending.cfg.resetTicks) = true :=
  ⟨inv_pending, by decide⟩

end Sys2Proof.Tests
end

section
/-!
PROOFS. The family 00_scope.md: the configuration the step accepts (R7, R8).
-/

namespace Sys2Proof.Machine

/-- The check of R7 stands before everything else a step does. -/
theorem step_of_not_configOk {s : State} (h : ¬s.ConfigOk) : step s = .refused .configurationError := if_neg h

/-- Settles O44: the bounds of R7 and the conditions of R8 follow from the check, so a configuration that breaks one of
them fails it. -/
theorem badConfigurationIsRefused : Obligations.BadConfigurationIsRefused := by
  intro s hbad
  refine step_of_not_configOk fun hok => hbad ?_
  obtain ⟨⟨hS1, hS8⟩, ⟨hW1, hW⟩, ⟨hH1, hH⟩, ⟨hM1, hM⟩, hL, ⟨hTC, hTR, hTiles⟩, ⟨hWidth, hHeight, hPix⟩,
    ⟨h0, h01, h1B, hB⟩, ⟨hR1, hR⟩, _⟩ := bounds_of_wellFormed hok
  obtain ⟨hLength, hInside, hNodup, hOnto⟩ := tileOrder_conditions hok
  exact ⟨hS1, hS8, hW1, hW, hH1, hH, hM1, hM, hL, hTC, hTR, hTiles, hWidth, hHeight, hPix, h0, h01, h1B, hB, hR1, hR,
    hLength, hInside, hNodup, hOnto⟩

end Sys2Proof.Machine
end

section
/-!
PROOFS. The family 20_memory.md: what MemWrite does at each offset (R86) and what an illegal access does (R84).
-/

namespace Sys2Proof.Machine

/-! ### Bad accesses -/

/-- The whole effect of a bad access (R84, R280, R282). -/
theorem badAccess_eq (write : Bool) (off : BitVec 21) (s : State) :
    badAccess write off s =
      { s with
        readData := if write then s.readData else some 0
        errSet := s.errSet ||| 0b1000
        errLast := 0x80000003
        errInfo := if write then 0x80000000 ||| off.setWidth 32 else off.setWidth 32
        irqSet := s.irqSet ||| 0b1000 } := by
  unfold badAccess
  cases write with
  | false => rw [accessInfo_read]; rfl
  | true => rw [accessInfo_write]; rfl

/-- Settles O38: an access that fails one condition of R84 is not legal, and the host port answers it with
a bad access. -/
theorem illegalAccessesOnlyRecordAnError : Obligations.IllegalAccessesOnlyRecordAnError := by
  intro a off s hoff hbad
  have hillegal : ¬a.legal = true := by
    rw [legal_iff]
    rintro ⟨hwidth, hlanes, haddr⟩
    obtain h | h | h := hbad
    · exact h hwidth
    · exact h hlanes
    · exact h haddr
  rw [hostAccess_of_offset hoff, if_neg hillegal, badAccess_eq]

/-! ### Writes to the registers -/

/-- A write to CMD issues the word (R86, R150). -/
theorem memWrite_cmd {off : BitVec 21} (h : off.toNat = 0x020) (v : Word) (s : State) :
    memWrite off v s = issueCommand v s := by
  rw [memWrite, h, locate_register _ (by decide)]; rfl

/-- A write to IRQ_STATUS sets the tick's clear mask (R86, R285). -/
theorem memWrite_irqStatus {off : BitVec 21} (h : off.toNat = 0x028) (v : Word) (s : State) :
    memWrite off v s = .next (clearIrq v s) := by
  rw [memWrite, h, locate_register _ (by decide)]; rfl

/-- A write to IRQ_ENABLE replaces its four bits (R86). -/
theorem memWrite_irqEnable {off : BitVec 21} (h : off.toNat = 0x02C) (v : Word) (s : State) :
    memWrite off v s = .next { s with irqEnable := v.extractLsb' 0 4 } := by
  rw [memWrite, h, locate_register _ (by decide)]; rfl

/-- A write to ERR_STATUS sets the tick's clear mask (R86, R285). -/
theorem memWrite_errStatus {off : BitVec 21} (h : off.toNat = 0x030) (v : Word) (s : State) :
    memWrite off v s = .next (clearErr v s) := by
  rw [memWrite, h, locate_register _ (by decide)]; rfl

/-- A write to MAP_IN replaces it (R86). -/
theorem memWrite_mapIn {off : BitVec 21} (h : off.toNat = 0x048) (v : Word) (s : State) :
    memWrite off v s = .next { s with mapIn := v } := by
  rw [memWrite, h, locate_register _ (by decide)]; rfl

/-! ### Writes to the pixels -/

/-- A write to a pixel's word stores the pixel (R81, R86). -/
theorem memWrite_pix {off : BitVec 21} {s : State} {p : Nat} (h : off.toNat = 0x40000 + 4 * p) (hp : p < s.cfg.numPix)
    (hwindow : off.toNat ≤ 0x7FFFF) (v : Word) : memWrite off v s = .next (setPixel p v s) := by
  have hlocate : locate s.cfg off.toNat = some (.pix p) := by
    have hindex : (off.toNat - 0x40000) / 4 = p := by omega
    rw [locate_eq, if_neg (by omega), if_neg (by omega), if_neg (by omega), if_neg (by omega), if_neg (by omega),
      if_pos hwindow, hindex, if_pos hp]
  rw [memWrite, hlocate]

/-- PIX after a pixel is stored, entry by entry (R86, R122). -/
theorem read_setPixel_pix {s : State} (h : Memory.wf s.pix = true) (p : Nat) (v : Word) (a : Nat) :
    Memory.read (setPixel p v s).pix a =
      if a = chanKey p .b then v.extractLsb' 0 8
      else if a = chanKey p .g then v.extractLsb' 8 8
      else if a = chanKey p .r then v.extractLsb' 16 8
      else Memory.read s.pix a := by
  have hr := Memory.wf_write h (chanKey p .r) (v.extractLsb' 16 8)
  have hg := Memory.wf_write hr (chanKey p .g) (v.extractLsb' 8 8)
  rw [setPixel, Memory.read_write hg, Memory.read_write hr, Memory.read_write h]

/-- The pixel stored reads as the three bytes of the word (R122). -/
theorem pixel_setPixel {s : State} (h : Memory.wf s.pix = true) (p : Nat) (v : Word) :
    pixel (setPixel p v s) p .r = v.extractLsb' 16 8 ∧ pixel (setPixel p v s) p .g = v.extractLsb' 8 8 ∧
      pixel (setPixel p v s) p .b = v.extractLsb' 0 8 := by
  simp [pixel, read_setPixel_pix h, chanKey, Channel.index]

/-- Storing a pixel leaves every other pixel's entries as they were (R86). -/
theorem read_setPixel_pix_of_ne {s : State} (h : Memory.wf s.pix = true) {p a : Nat} (ha : a / 3 ≠ p) (v : Word) :
    Memory.read (setPixel p v s).pix a = Memory.read s.pix a := by
  have hkey : ∀ c : Channel, a ≠ chanKey p c := by
    intro c
    cases c <;> simp only [chanKey, Channel.index] <;> omega
  rw [read_setPixel_pix h, if_neg (hkey .b), if_neg (hkey .g), if_neg (hkey .r)]

/-! ### Writes elsewhere -/

/-- The words a write reaches: five registers and the pixels (R86). -/
def Entry.writable : Entry → Bool
  | .reg r => r ∈ [Reg.cmd, .irqStatus, .irqEnable, .errStatus, .mapIn]
  | .pix _ => true
  | _ => false

/-- MemWrite to a word that is unmapped or that a write does not reach is a bad access (R86). -/
theorem memWrite_of_not_writable {off : BitVec 21} {s : State}
    (h : ∀ e, locate s.cfg off.toNat = some e → e.writable = false) (v : Word) :
    memWrite off v s = .next (badAccess true off s) := by
  unfold memWrite
  cases hl : locate s.cfg off.toNat with
  | none => rfl
  | some e =>
    have hw := h e hl
    cases e with
    | reg r => cases r <;> cases hw <;> rfl
    | pix p => cases hw
    | gamma j => rfl
    | tile j => rfl
    | dither p => rfl
    | plane b j => rfl

/-- The region an entry belongs to (R81). -/
def Entry.region : Entry → Region
  | .reg _ => .registers
  | .gamma _ => .gamma
  | .tile _ => .tileMap
  | .pix _ => .pix
  | .dither _ => .dither
  | .plane false _ => .bp0
  | .plane true _ => .bp1

theorem region_of_entryOf {j : Nat} {g : Region} {e : Entry} (h : entryOf j g = some e) : g = e.region := by
  cases g with
  | registers =>
    obtain ⟨_, _, rfl⟩ := Option.map_eq_some_iff.mp h
    rfl
  | reserved => cases h
  | _ => cases h; rfl

/-- A mapped word lies in the row of its region, and is a valid entry of it (R81). -/
theorem row_of_locate {c : Config} {off : Nat} {e : Entry} (h : locate c off = some e) :
    ∃ row ∈ regionMap, row.region = e.region ∧ row.start ≤ off ∧ off ≤ row.stop ∧
      (off - row.start) / 4 < validEntries c e.region := by
  unfold locate at h
  split at h
  · cases h
  · rename_i row hrow
    have hin := List.find?_some hrow
    simp only [Bool.and_eq_true, decide_eq_true_eq] at hin
    obtain ⟨hstart, hstop⟩ := hin
    obtain ⟨hvalid, he⟩ := Option.ite_none_right_eq_some.mp h
    have hregion := region_of_entryOf he
    exact ⟨row, List.mem_of_find?_eq_some hrow, hregion, hstart, hstop, hregion ▸ hvalid⟩

/-- A register word is in the registers' row, at its place in the register map (R81). -/
theorem offset_of_locate_reg {c : Config} {off : Nat} {r : Reg} (h : locate c off = some (.reg r)) :
    off ≤ 0x4F ∧ regMap[off / 4]? = some r := by
  obtain ⟨row, hrow, hregion, -, hstop, -⟩ := row_of_locate h
  have hlast : ∀ row ∈ regionMap, row.region = .registers → row.stop = 0x4F := by decide
  have hoff : off ≤ 0x4F := hlast row hrow hregion ▸ hstop
  rw [locate_register c hoff, Option.map_eq_some_iff] at h
  obtain ⟨_, hr, he⟩ := h
  cases he
  exact ⟨hoff, hr⟩

/-- A pixel word is in the pixels' row, and it is one of the pixels there are (R81). -/
theorem offset_of_locate_pix {c : Config} {off p : Nat} (h : locate c off = some (.pix p)) :
    0x40000 ≤ off ∧ (off - 0x40000) / 4 < c.numPix ∧ off ≤ 0x7FFFF := by
  obtain ⟨row, hrow, hregion, hstart, hstop, hvalid⟩ := row_of_locate h
  have hbounds : ∀ row ∈ regionMap, row.region = .pix → row.start = 0x40000 ∧ row.stop = 0x7FFFF := by decide
  obtain ⟨hfirst, hlast⟩ := hbounds row hrow hregion
  rw [hfirst] at hstart hvalid
  exact ⟨hstart, hvalid, hlast ▸ hstop⟩

/-- The aligned offsets of the five registers a write reaches (10_state.md section 2). -/
theorem offset_of_writable_register {off : Nat} {r : Reg} (h4 : off % 4 = 0) (hoff : off ≤ 0x4F)
    (h : regMap[off / 4]? = some r) (hw : (Entry.reg r).writable = true) :
    off = 0x020 ∨ off = 0x028 ∨ off = 0x02C ∨ off = 0x030 ∨ off = 0x048 := by
  obtain ⟨j, rfl⟩ := Nat.dvd_of_mod_eq_zero h4
  rw [Nat.mul_div_cancel_left j (by decide)] at h
  have hregs : ∀ j < 20, (regMap[j]?).any (fun r => (Entry.reg r).writable) = true →
      4 * j = 0x020 ∨ 4 * j = 0x028 ∨ 4 * j = 0x02C ∨ 4 * j = 0x030 ∨ 4 * j = 0x048 := by decide
  exact hregs j (by omega) (by rw [h]; exact hw)

/-- The aligned offsets of the words a write reaches (R81, R86). -/
theorem offset_of_writable {c : Config} {off : Nat} {e : Entry} (h4 : off % 4 = 0) (h : locate c off = some e)
    (hw : e.writable = true) :
    (off = 0x020 ∨ off = 0x028 ∨ off = 0x02C ∨ off = 0x030 ∨ off = 0x048) ∨
      (0x40000 ≤ off ∧ (off - 0x40000) / 4 < c.numPix ∧ off ≤ 0x7FFFF) := by
  cases e with
  | reg r =>
    obtain ⟨hoff, hr⟩ := offset_of_locate_reg h
    exact .inl (offset_of_writable_register h4 hoff hr hw)
  | pix p => exact .inr (offset_of_locate_pix h)
  | gamma j => cases hw
  | tile j => cases hw
  | dither p => cases hw
  | plane b j => cases hw

/-- Settles O36: one rule per register a write reaches, the rule of a pixel's word, and everywhere else no word that a
write reaches, so a bad access. -/
theorem writesElsewhereAreBadAccesses : Obligations.WritesElsewhereAreBadAccesses := by
  intro off v s h4
  refine ⟨fun h => memWrite_cmd h v s, fun h => memWrite_irqStatus h v s, fun h => memWrite_irqEnable h v s,
    fun h => memWrite_errStatus h v s, fun h => memWrite_mapIn h v s, ?pixel, ?elsewhere⟩
  case pixel =>
    intro p hwf hoff hp hwindow
    obtain ⟨hred, hgreen, hblue⟩ := pixel_setPixel hwf p v
    exact ⟨setPixel p v s, memWrite_pix hoff hp hwindow v, rfl, hred, hgreen, hblue,
      fun a ha => read_setPixel_pix_of_ne hwf ha v⟩
  case elsewhere =>
    intro hcmd hirqStatus hirqEnable herrStatus hmapIn hpix
    have hnot : ∀ e, locate s.cfg off.toNat = some e → e.writable = false := by
      intro e he
      refine Bool.eq_false_iff.mpr fun hw => ?_
      obtain (h | h | h | h | h) | h := offset_of_writable h4 he hw
      · exact hcmd h
      · exact hirqStatus h
      · exact hirqEnable h
      · exact herrStatus h
      · exact hmapIn h
      · exact hpix h
    rw [memWrite_of_not_writable hnot, badAccess_eq]
    rfl

end Sys2Proof.Machine
end

section
/-!
PROOFS. The family 30_encoding.md: the words that decode to a command, and to which one (R120, R121, R123).
-/

namespace Sys2Proof

/-- OP of a command, by the table of R121. -/
def Instr.opcode : Instr → BitVec 4
  | .nop => 0
  | .clear => 1
  | .process _ _ => 2
  | .encode => 3
  | .submit => 4

/-- What a command asks of w[9:8]: PROCESS has G in w[8] and D in w[9], every other command zeros (R120, R123). -/
def Instr.FlagsIn (w : Word) : Instr → Prop
  | .process g d => g = w.getLsbD 8 ∧ d = w.getLsbD 9
  | .nop | .clear | .encode | .submit => w.extractLsb' 8 2 = 0

/-- Every command meets the first condition of R123. -/
theorem Instr.opcode_le_four (i : Instr) : i.opcode.toNat ≤ 4 := by
  cases i <;> simp [opcode]

/-- The first condition of R123 leaves only the OPs of the table of R121. -/
theorem opcode_cases_of_le_four {op : BitVec 4} : op.toNat ≤ 4 → op = 0 ∨ op = 1 ∨ op = 2 ∨ op = 3 ∨ op = 4 := by
  revert op; decide

/-- The flag condition of R123 leaves w[9:8] free for PROCESS only. -/
theorem Instr.FlagsIn.process_or_zero {w : Word} {i : Instr} (h : i.FlagsIn w) :
    i.opcode = 2 ∨ w.extractLsb' 8 2 = 0 := by
  cases i with
  | process g d => exact .inl rfl
  | nop | clear | encode | submit => exact .inr h

theorem decodePlain_eq_command_iff {w : Word} {i j : Instr} :
    decodePlain w j = .command i ↔ w.extractLsb' 8 2 = 0 ∧ j = i := by
  rw [decodePlain, ite_eq_iff]
  simp

/-- A command without flags is decoded at its own OP only, with w[9:8] = 0 (R121, R123). -/
theorem opcode_and_flags_of_decodePlain {w : Word} {i j : Instr} (h : decodePlain w j = .command i)
    (hop : w.extractLsb' 0 4 = j.opcode) (hj : j.FlagsIn w ↔ w.extractLsb' 8 2 = 0) :
    w.extractLsb' 0 4 = i.opcode ∧ i.FlagsIn w := by
  obtain ⟨hflags, rfl⟩ := decodePlain_eq_command_iff.mp h
  exact ⟨hop, hj.mpr hflags⟩

/-- The whole of Decode's command half (R123): the reserved bits are 0, OP names the command and the flag bits are its
own. -/
theorem decodeWord_eq_command_iff {w : Word} {i : Instr} :
    decodeWord w = .command i ↔
      w.extractLsb' 10 22 = 0 ∧ w.extractLsb' 4 4 = 0 ∧ w.extractLsb' 0 4 = i.opcode ∧ i.FlagsIn w := by
  constructor
  · intro h
    simp only [decodeWord, ne_eq, ite_not] at h
    split_ifs at h with hhigh hmid h0 h1 h2 h3 h4 <;> refine ⟨hhigh, hmid, ?_⟩
    · exact opcode_and_flags_of_decodePlain h h0 .rfl
    · exact opcode_and_flags_of_decodePlain h h1 .rfl
    · cases h
      exact ⟨h2, rfl, rfl⟩
    · exact opcode_and_flags_of_decodePlain h h3 .rfl
    · exact opcode_and_flags_of_decodePlain h h4 .rfl
  · rintro ⟨hhigh, hmid, hop, hflags⟩
    cases i with
    | process g d =>
      obtain ⟨rfl, rfl⟩ := hflags
      simp [decodeWord, hhigh, hmid, hop, Instr.opcode]
    | nop | clear | encode | submit =>
      have hzero : w.extractLsb' 8 2 = 0 := hflags
      simp [decodeWord, hhigh, hmid, hop, Instr.opcode, decodePlain, hzero]

/-- The words that decode to some command are the well-formed ones (R123). -/
theorem exists_decodeWord_eq_command_iff {w : Word} :
    (∃ i, decodeWord w = .command i) ↔
      (w.extractLsb' 0 4).toNat ≤ 4 ∧ w.extractLsb' 4 4 = 0 ∧ w.extractLsb' 10 22 = 0 ∧
        (w.extractLsb' 0 4 = 2 ∨ w.extractLsb' 8 2 = 0) := by
  simp only [decodeWord_eq_command_iff]
  constructor
  · rintro ⟨i, hhigh, hmid, hop, hflags⟩
    rw [hop]
    exact ⟨i.opcode_le_four, hmid, hhigh, hflags.process_or_zero⟩
  · rintro ⟨hle, hmid, hhigh, hflags⟩
    have hzero (hne : w.extractLsb' 0 4 ≠ 2) : w.extractLsb' 8 2 = 0 := hflags.resolve_left hne
    obtain h | h | h | h | h := opcode_cases_of_le_four hle
    · exact ⟨.nop, hhigh, hmid, h, hzero (by simp [h])⟩
    · exact ⟨.clear, hhigh, hmid, h, hzero (by simp [h])⟩
    · exact ⟨.process _ _, hhigh, hmid, h, rfl, rfl⟩
    · exact ⟨.encode, hhigh, hmid, h, hzero (by simp [h])⟩
    · exact ⟨.submit, hhigh, hmid, h, hzero (by simp [h])⟩

/-- Settles O3: all three parts are read off the command half of Decode. -/
theorem decodeAcceptsTheWellFormedWords : Obligations.DecodeAcceptsTheWellFormedWords := by
  intro w
  refine ⟨exists_decodeWord_eq_command_iff, ?opcode, ?flags⟩
  case opcode =>
    intro i hi
    obtain ⟨-, -, hop, -⟩ := decodeWord_eq_command_iff.mp hi
    cases i <;> exact hop
  case flags =>
    intro g d hi
    obtain ⟨-, -, -, hflags⟩ := decodeWord_eq_command_iff.mp hi
    exact hflags

end Sys2Proof
end

section
/-!
PROOFS. The family 40_command_interface.md: which commands are rejected, and with which error (R152).
-/

namespace Sys2Proof.Machine

theorem ErrCode.mask_ne_zero (e : ErrCode) : e.mask ≠ 0 := by cases e <;> decide

/-- A raised error is among the tick's error events (R282). -/
theorem raiseError_errSet_ne_zero {s : State} (h : s.errSet = 0) (e : ErrCode) (info : Word) :
    (raiseError e info s).errSet ≠ 0 := by
  simpa [h] using e.mask_ne_zero

theorem exec_encode_of_pending {s : State} (h : s.submitPending = true) :
    exec .encode s = .next (raiseError .encodeRejected (encode .encode) s) := if_pos h

theorem exec_encode_of_not_pending {s : State} (h : ¬s.submitPending = true) :
    exec .encode s = .next (beginStall (s.setBp s.fill (encodePlanes s))) := if_neg h

theorem exec_submit_of_pending {s : State} (h : s.submitPending = true) :
    exec .submit s = .next (raiseError .submitRejected (encode .submit) s) := if_pos h

theorem exec_submit_of_not_pending {s : State} (h : ¬s.submitPending = true) :
    exec .submit s = .next (if s.sig then accept s else { s with submitPending := true }) :=
  (if_neg h).trans (apply_ite _ _ _ _).symm

/-- The rejected entries of the table of R152, each with its own error and its own word. -/
theorem exec_of_rejected {i : Instr} {s : State} (hpending : s.submitPending = true) (hi : i = .encode ∨ i = .submit) :
    exec i s = .next (raiseError (if i = .encode then .encodeRejected else .submitRejected) (encode i) s) := by
  obtain rfl | rfl := hi
  · exact exec_encode_of_pending hpending
  · exact exec_submit_of_pending hpending

/-- The executed entries of the table of R152 leave the error record alone. -/
theorem exec_keeps_errors {i : Instr} {s t : State} (hi : ¬(s.submitPending = true ∧ (i = .encode ∨ i = .submit)))
    (h : exec i s = .next t) : SameErrors s t := by
  cases i with
  | nop => cases h; exact ⟨rfl, rfl, rfl, rfl, rfl⟩
  | clear => cases h; simp [SameErrors]
  | process g d => cases h; simp [SameErrors]
  | encode =>
    rw [exec_encode_of_not_pending fun hp => hi ⟨hp, .inl rfl⟩] at h
    cases h
    simp [SameErrors]
  | submit =>
    rw [exec_submit_of_not_pending fun hp => hi ⟨hp, .inr rfl⟩] at h
    cases h
    split <;> exact ⟨rfl, rfl, rfl, rfl, rfl⟩

/-- Settles O12: a rejected command raises its error, whose ERR_STATUS bit is not 0, and an executed command raises
none. -/
theorem acceptanceDependsOnPendingOnly : Obligations.AcceptanceDependsOnPendingOnly := by
  intro i s t herr h
  by_cases hi : s.submitPending = true ∧ (i = .encode ∨ i = .submit)
  case pos =>
    obtain ⟨hpending, hcommand⟩ := hi
    rw [exec_of_rejected hpending hcommand] at h
    cases h
    exact ⟨iff_of_true (raiseError_errSet_ne_zero herr _ _) ⟨hpending, hcommand⟩, fun _ => rfl⟩
  case neg =>
    obtain ⟨-, -, -, hset, -⟩ := exec_keeps_errors hi h
    have hnone : ¬t.errSet ≠ 0 := not_not_intro (hset.trans herr)
    exact ⟨iff_of_false hnone hi, fun hsome => absurd hsome hnone⟩

end Sys2Proof.Machine
end

section
/-!
PROOFS. The family 41_gamma_dither_engine.md: what PROCESS leaves in the pixel buffer and the dither state (R171 to R175).
-/

namespace Sys2Proof.Machine

/-! ### The dither step in numbers -/

/-- R172: q = s div 2 fits a byte, so narrowing it loses nothing. -/
theorem ditherStep_q_toNat (v : Byte) (e : Bool) : (ditherStep v e).q.toNat = (v.toNat + e.toNat) / 2 := by
  have hv := v.isLt
  have he := e.toNat_le
  simp only [ditherStep, BitVec.toNat_ofNat]
  omega

/-- R173: DitherOut saturates at 255, so narrowing it loses nothing. -/
theorem ditherStep_out_toNat (v : Byte) (e : Bool) :
    (ditherStep v e).out.toNat = min (2 * ((v.toNat + e.toNat) / 2)) 255 := by
  simp only [ditherStep, ditherOut, BitVec.toNat_ofNat]
  omega

/-- R172: the new error is the remainder of s by 2. -/
theorem ditherStep_err_toNat (v : Byte) (e : Bool) :
    (ditherStep v e).err.toNat = v.toNat + e.toNat - 2 * ((v.toNat + e.toNat) / 2) := by
  simp only [ditherStep]
  obtain h | h : v.toNat + e.toNat - 2 * ((v.toNat + e.toNat) / 2) = 0 ∨
      v.toNat + e.toNat - 2 * ((v.toNat + e.toNat) / 2) = 1 := by omega
  · rw [h]; rfl
  · rw [h]; rfl

/-- A stored error reads back (R54). -/
@[simp] theorem errByte_getLsbD_zero (e : Bool) : (errByte e).getLsbD 0 = e := by cases e <;> rfl

/-! ### The command stall and the frame -/

@[simp] theorem pixel_beginStall (s : State) (p : Nat) (c : Channel) : pixel (beginStall s) p c = pixel s p c := by
  simp [pixel]

@[simp] theorem errBit_beginStall (s : State) (p : Nat) (c : Channel) : errBit (beginStall s) p c = errBit s p c := by
  simp [errBit]

@[simp] theorem quantized_beginStall (s : State) (p : Nat) (c : Channel) :
    quantized (beginStall s) p c = quantized s p c := by
  simp [quantized]

theorem SameButMemories.refl (s : State) : SameButMemories s s := by
  simp [SameButMemories, SameScheduler, SameErrors, SameInterrupts, SameRest, SameOutside]

/-- The stall is no part of the frame of CLEAR, PROCESS and ENCODE. -/
theorem SameButMemories.beginStall {s t : State} (h : SameButMemories s t) : SameButMemories s (beginStall t) := by
  unfold Machine.beginStall
  split <;> exact h

/-! ### The state after PROCESS -/

/-- The memories PROCESS leaves, as one loop over the entries of the pixels (R171). -/
def processed (g d : Bool) (s : State) : ColorMem :=
  loop (3 * s.cfg.numPix) (processEntry s.cfg g d) { pix := s.pix, errs := s.errs, qv := s.qv }

/-- PROCESS replaces the pixel buffer and the dither state, then the host stalls (R171, R153). -/
theorem exec_process (g d : Bool) (s : State) :
    exec (.process g d) s = .next (beginStall
      { s with pix := (processed g d s).pix, errs := (processed g d s).errs, qv := (processed g d s).qv }) := by
  simp only [processed, ← processAll_eq_loop]
  rfl

/-- With D = 0 the dither state is kept (R175). -/
theorem processed_noDither (g : Bool) (s : State) :
    (processed g false s).errs = s.errs ∧ (processed g false s).qv = s.qv := processLoop_noDither ..

/-- What PROCESS leaves for channel c of pixel p: with D = 0 the value after the gamma step, with D = 1 what the dither
step gives for it (R171). -/
theorem read_processed {s : State} (h : s.MemoryOk) (g d : Bool) {p : Nat} (hp : p < s.cfg.numPix) (c : Channel) :
    let v := gammaValue s.cfg g (pixel s p c)
    let x := ditherStep v (errBit s p c)
    Memory.read (processed g d s).pix (chanKey p c) = (if d then x.out else v) ∧
      (d = true → Memory.read (processed g d s).errs (chanKey p c) = errByte x.err ∧
        Memory.read (processed g d s).qv (chanKey p c) = x.q) := by
  obtain ⟨hpix, herrs, hqv, -⟩ := h
  have hkey := chanKey_lt hp c
  obtain ⟨rpix, rerrs, rqv⟩ :=
    processLoop_read (m := ⟨s.pix, s.errs, s.qv⟩) ⟨hpix, herrs, hqv⟩ s.cfg g d (3 * s.cfg.numPix) (chanKey p c)
  rw [if_pos hkey] at rpix
  exact ⟨rpix, fun hd => ⟨rerrs.trans (if_pos ⟨hkey, hd⟩), rqv.trans (if_pos ⟨hkey, hd⟩)⟩⟩

/-- Settles O7: every channel's entry is the gamma and the dither step of its old one, the dither step in numbers is that
of R172 and R173, and the rest is PROCESS's frame. -/
theorem processAppliesGammaThenDither : Obligations.ProcessAppliesGammaThenDither := by
  intro g d s h
  refine ⟨_, exec_process g d s, fun p hp c => ?channels, ?noDither, beginStall_bp0 _, beginStall_bp1 _,
    .beginStall ?frame⟩
  case channels =>
    obtain ⟨hpix, hdither⟩ := read_processed h g d hp c
    simp only [pixel_beginStall, errBit_beginStall, quantized_beginStall]
    cases d with
    | false => exact hpix
    | true =>
      obtain ⟨herrs, hqv⟩ := hdither rfl
      refine ⟨?_, ?_, ?_⟩
      · exact (congrArg BitVec.toNat hpix).trans (ditherStep_out_toNat _ _)
      · rw [errBit, herrs, errByte_getLsbD_zero]
        exact ditherStep_err_toNat _ _
      · exact (congrArg BitVec.toNat hqv).trans (ditherStep_q_toNat _ _)
  case noDither =>
    rintro rfl
    simpa using processed_noDither g s
  case frame => exact .refl s

end Sys2Proof.Machine
end

section
/-!
PROOFS. The family 43_bitplane_transposer.md: the acceptance table of the commands (R152, R216) and what ENCODE leaves in
the fillable buffer (R210 to R212).
-/

namespace Sys2Proof.Machine

/-! ### The acceptance table -/

/-- R152: a command is rejected or executed, and either way the state goes on. -/
theorem exists_exec_eq_next (i : Instr) (s : State) : ∃ t, exec i s = .next t := by
  cases i with
  | nop | clear | process g d => exact ⟨_, rfl⟩
  | encode =>
    by_cases hp : s.submitPending = true
    · exact ⟨_, exec_encode_of_pending hp⟩
    · exact ⟨_, exec_encode_of_not_pending hp⟩
  | submit =>
    by_cases hp : s.submitPending = true
    · exact ⟨_, exec_submit_of_pending hp⟩
    · exact ⟨_, exec_submit_of_not_pending hp⟩

/-- An accepted frame raises FILLABLE, which is not the ERROR event (R41, R233). -/
theorem accept_keeps_errorEvent (s : State) : (accept s).irqSet.getLsbD 3 = s.irqSet.getLsbD 3 := by
  simp [IrqBit.mask]

/-- The executed entries of the table of R152 raise no ERROR event. -/
theorem exec_keeps_errorEvent {i : Instr} {s t : State} (hi : ¬(s.submitPending = true ∧ (i = .encode ∨ i = .submit)))
    (h : exec i s = .next t) : t.irqSet.getLsbD 3 = s.irqSet.getLsbD 3 := by
  cases i with
  | nop => cases h; rfl
  | clear => cases h; simp
  | process g d => cases h; simp
  | encode =>
    rw [exec_encode_of_not_pending fun hp => hi ⟨hp, .inl rfl⟩] at h
    cases h
    simp
  | submit =>
    rw [exec_submit_of_not_pending fun hp => hi ⟨hp, .inr rfl⟩] at h
    cases h
    split
    · exact accept_keeps_errorEvent s
    · rfl

/-- Settles O10: a rejected command is its raised error, and every other command executes without one. -/
theorem encodeAndSubmitAreRejectedWhilePending : Obligations.EncodeAndSubmitAreRejectedWhilePending := by
  refine ⟨fun s hpending => ⟨exec_encode_of_pending hpending, exec_submit_of_pending hpending⟩, fun i s h => ?executed⟩
  have hi : ¬(s.submitPending = true ∧ (i = .encode ∨ i = .submit)) := fun ⟨hpending, hcommand⟩ =>
    hcommand.elim (h hpending).1 (h hpending).2
  obtain ⟨t, ht⟩ := exists_exec_eq_next i s
  exact ⟨t, ht, exec_keeps_errors hi ht, exec_keeps_errorEvent hi ht⟩

/-! ### The buffer after ENCODE -/

@[simp] theorem beginStall_bp (s : State) (b : Bool) : (beginStall s).bp b = s.bp b := by simp [State.bp]

/-- A buffer is one of the memories, so replacing it is within the frame of ENCODE. -/
theorem SameButMemories.setBp (s : State) (b : Bool) (m : Memory) : SameButMemories s (s.setBp b m) := by
  cases b <;> exact .refl s

/-- The on-wire order of R126 by planes: green, red, blue, eight planes each. -/
theorem wire_div_eight (k : Nat) : wire (k / 8) = if k < 8 then .g else if k < 16 then .r else .b := by
  split
  case isTrue hgreen => rw [Nat.div_eq_of_lt hgreen]; rfl
  case isFalse hgreen =>
    split
    case isTrue hred => rw [show k / 8 = 1 by omega]; rfl
    case isFalse hred =>
      obtain ⟨n, hn⟩ := Nat.exists_eq_add_of_le' (show 2 ≤ k / 8 by omega)
      rw [hn]
      rfl

/-- The bit that R212 sets, as a bit of the pixel wired to the LED (R211). -/
theorem planeBit_eq (s : State) (led k y : Nat) :
    planeBit s led k y =
      (pixel s ((unmapLed s.cfg y led).y * s.cfg.width + (unmapLed s.cfg y led).x)
        (if k < 8 then .g else if k < 16 then .r else .b)).getLsbD (7 - k % 8) := by
  rw [← wire_div_eight]
  rfl

/-- ENCODE's buffer holds plane byte k of every LED at its own entry (R127, R210). -/
theorem encodePlanes_read_planeKey {s : State} (h : Memory.wf (s.bp s.fill) = true) {led k : Nat}
    (hled : led < s.cfg.leds) (hk : k < 24) : Memory.read (encodePlanes s) (planeKey led k) = planeByte s led k := by
  have hdiv : planeKey led k / 24 = led := by unfold planeKey; omega
  have hmod : planeKey led k % 24 = k := by unfold planeKey; omega
  rw [encodePlanes_read h, if_pos (planeKey_lt hled hk), hdiv, hmod]

/-- Settles O9: the entry of every plane byte is PlaneByte, whose bits below S are those of the wired pixels, and the loop
of ENCODE writes no entry but these. -/
theorem encodeTransposesThePixels : Obligations.EncodeTransposesThePixels := by
  intro s hwf hpending
  refine ⟨_, exec_encode_of_not_pending (by simp [hpending]), ?bits, ?beyond, by simp, by simp, by simp, by simp,
    (SameButMemories.setBp s _ _).beginStall⟩
  case bits =>
    intro led hled k hk y hy
    rw [planeByteAt, beginStall_bp, setBp_bp, encodePlanes_read_planeKey hwf hled hk, getLsbD_planeByte, planeBit_eq]
    simp [hy]
  case beyond =>
    intro a ha
    rw [beginStall_bp, setBp_bp, encodePlanes_read hwf, if_neg (Nat.not_lt.mpr ha)]

end Sys2Proof.Machine
end

section
/-!
PROOFS. The family 45_dma_protocol_timer.md: the IDLE tick (R254), DMA completion (R258), the reset timer and its expiry
(R259, R260), and the re-trigger (R262).
-/

namespace Sys2Proof.Machine

/-! ### DMA completion -/

/-- At a position of the frame the step drives the pins and advances (R255, R61). -/
theorem transmitStep_of_position {s : State} (hled : s.txLed.toNat < s.cfg.leds) (hbit : s.txBit.toNat ≤ 23) :
    transmitStep s = .next (advance { s with dout := drivePins s }) :=
  if_pos (by simp [State.positionOk, hled, hbit])

/-- The advance out of the last tick of the last slot is DmaComplete (R258). -/
theorem advance_of_last_position {s : State} (hphase : s.txPhase.toNat = s.cfg.tBit - 1) (hbit : s.txBit.toNat = 23)
    (hled : s.txLed.toNat = s.cfg.leds - 1) : advance s = dmaComplete s := by
  simp only [advance, hphase, hbit, hled, Nat.lt_irrefl, if_false]

/-- Settles O25: the tick count puts the position at the last tick of the last slot, where the pins are low because
T1H < T_BIT and the advance is DmaComplete. -/
theorem dmaCompletionArmsTheTimer : Obligations.DmaCompletionArmsTheTimer := by
  intro r s hinv hsending hlast
  obtain ⟨hconfig, -, -, -, -, -, hposition, -, -⟩ := hinv
  obtain ⟨-, -, -, -, -, -, -, ⟨-, h01, h1B, -⟩, -, -⟩ := bounds_of_wellFormed hconfig
  obtain ⟨hledLt, hbitLe, hphaseLt⟩ := hposition.2 hsending
  obtain ⟨hphase, hbit, hled⟩ := (last_position hledLt hbitLe hphaseLt).mp hlast
  have hpins : drivePins s = 0 := drivePins_low (by omega) h01
  rw [transmitPhase_transmitting hsending, transmitStep_of_position hledLt hbitLe, hpins]
  exact congrArg _ (advance_of_last_position hphase hbit hled)

/-! ### The IDLE tick -/

/-- An IDLE tick only drives the pins low (R254). -/
theorem transmitPhase_idle {r : Bool} {s : State} (h : s.txState = .idle) :
    transmitPhase r s = .next { s with dout := 0 } := by simp only [transmitPhase, h]

/-- Settles O23: the IDLE arm of the transmitter's phase reads no dma_retrigger. -/
theorem idleTransmitterChangesNothing : Obligations.IdleTransmitterChangesNothing :=
  fun _ _ => transmitPhase_idle

/-! ### The reset timer -/

/-- A TIMER other than 1 is decremented and does not expire (R259). -/
theorem timerStep_of_ne_one {s : State} (h : s.timer ≠ 1) : timerStep s = { s with timer := s.timer - 1 } :=
  if_neg (sub_ne_zero.mpr h)

/-- A TIMER of 1 becomes 0 and expires in the same tick (R259). -/
theorem timerStep_of_eq_one {s : State} (h : s.timer = 1) : timerStep s = timerExpire { s with timer := 0 } := by
  have hzero : s.timer - 1 = 0 := sub_eq_zero.mpr h
  simp only [timerStep, hzero, if_true]

/-- Settles O26: TIMER − 1 is 0 exactly when TIMER is 1. -/
theorem resetTimerCountsDown : Obligations.ResetTimerCountsDown := by
  intro s hwait
  rw [transmitPhase_resetWait hwait]
  exact ⟨fun _ hne => congrArg _ (timerStep_of_ne_one hne), fun hone => congrArg _ (timerStep_of_eq_one hone)⟩

/-- With no submit pending the expiry only releases SIG (R260). -/
theorem timerExpire_of_not_pending {s : State} (h : s.submitPending = false) :
    timerExpire s = setIrq .resetDone { s with txState := .idle, sig := true } :=
  if_neg (by simp [h])

/-- With a submit pending the expiry is the release followed by that submit's accept (R260, R233). -/
theorem timerExpire_of_pending {s : State} (h : s.submitPending = true) :
    timerExpire s =
      accept { setIrq .resetDone { s with txState := .idle, sig := true } with submitPending := false } :=
  if_pos h

/-- Settles O27: the tick is the expiry with TIMER 0; a submit that waits adds the accept, whose FILLABLE event joins
RESET_DONE in the set mask. -/
theorem expiryReleasesTheSignal : Obligations.ExpiryReleasesTheSignal := by
  intro s hwait hone
  rw [(resetTimerCountsDown s hwait).2 hone]
  constructor
  · intro hnone
    exact congrArg _ (timerExpire_of_not_pending hnone)
  · intro hpending
    have hevents : s.irqSet ||| 0b0110 = s.irqSet ||| IrqBit.resetDone.mask ||| IrqBit.fillable.mask :=
      (BitVec.or_assoc s.irqSet IrqBit.resetDone.mask IrqBit.fillable.mask).symm
    rw [hevents]
    exact congrArg _ (timerExpire_of_pending hpending)

/-! ### The re-trigger -/

/-- Settles O28: the RESET_WAIT arm answers Retrigger, and no other arm reads dma_retrigger. -/
theorem retriggerRearmsTheTimer : Obligations.RetriggerRearmsTheTimer := by
  refine fun s => ⟨fun hwait => transmitPhase_resetWait hwait, fun hother => ?ignored⟩
  rcases txState_cases s with hidle | hsending | hwait
  · rw [transmitPhase_idle hidle, transmitPhase_idle hidle]
  · rw [transmitPhase_transmitting hsending, transmitPhase_transmitting hsending]
  · exact absurd hwait hother

end Sys2Proof.Machine
end

section
/-!
PROOFS. The family 60_exceptions.md: the error record (R282), the update of the event bits (R285) and the irq line (R286).
-/

namespace Sys2Proof.Machine

/-- Bit by bit, a set event wins over a clear, and a bit that is neither set nor cleared is kept (R285). -/
theorem updateEvents_getLsbD (status clr set : EventMask) {b : Nat} (hb : b < 4) :
    (updateEvents status clr set).getLsbD b = (set.getLsbD b || (status.getLsbD b && !clr.getLsbD b)) := by
  rw [updateEvents, BitVec.getLsbD_or, BitVec.getLsbD_and, BitVec.getLsbD_not, decide_eq_true hb, Bool.true_and,
    Bool.or_comm]

/-- Settles O31: what the masks collect is a rule per operation, and the end of the tick updates both status registers by
`updateEvents`. -/
theorem eventBitsUpdate : Obligations.EventBitsUpdate := by
  intro s b hb
  refine ⟨fun e => setIrq_irqSet e s, fun e info => raiseError_errSet e info s,
    fun v => ⟨memWrite_irqStatus rfl v s, memWrite_errStatus rfl v s⟩, ?irqStatus, ?errStatus, ?masks⟩
  case irqStatus => rw [endTick_irqStatus, updateEvents_getLsbD _ _ _ hb]
  case errStatus => rw [endTick_errStatus, updateEvents_getLsbD _ _ _ hb]
  case masks => exact ⟨endTick_irqSet s, endTick_irqClr s, endTick_errSet s, endTick_errClr s⟩

/-- Two event masks meet exactly when they share one of their four bits. -/
theorem EventMask.and_ne_zero_iff (m n : EventMask) :
    m &&& n ≠ 0 ↔ ∃ b, b < 4 ∧ m.getLsbD b = true ∧ n.getLsbD b = true := by
  rw [ne_eq, BitVec.ofNat_eq_ofNat, BitVec.zero_iff_eq_false, not_forall]
  refine exists_congr fun b => ?_
  rw [Bool.not_eq_false, BitVec.getLsbD_and, Bool.and_eq_true]
  exact ⟨fun ⟨hm, hn⟩ => ⟨BitVec.lt_of_getLsbD hm, hm, hn⟩, And.right⟩

/-- Settles O32: the line is the test that IRQ_STATUS and IRQ_ENABLE meet. -/
theorem irqIsTheEnabledPendingLevel : Obligations.IrqIsTheEnabledPendingLevel :=
  fun s => bne_iff_ne.trans (EventMask.and_ne_zero_iff s.irqStatus s.irqEnable)

/-- The whole effect of a raised error (R282). -/
theorem raiseError_eq (e : ErrCode) (info : Word) (s : State) :
    raiseError e info s =
      { s with
        errSet := s.errSet ||| e.mask
        errLast := 0x80000000 ||| e.code
        errInfo := info
        irqSet := s.irqSet ||| IrqBit.error.mask } := rfl

/-- Settles O33: the four codes of R280 in the record of R282. -/
theorem raiseWritesTheErrorRecord : Obligations.RaiseWritesTheErrorRecord :=
  fun info s => ⟨raiseError_eq .illegalCmd info s, raiseError_eq .encodeRejected info s,
    raiseError_eq .submitRejected info s, raiseError_eq .badAccess info s⟩

end Sys2Proof.Machine
end

section
/-!
PROOFS. The family 70_reset_and_hazards.md: the tick with rst = 1 (R310).
-/

namespace Sys2Proof.Machine

/-- A tick with rst = 1 is the reset tick, whatever the host and the transmitter would have done (R310). -/
theorem step_of_rst {s : State} (hc : s.ConfigOk) (hr : s.envNow.rst = true) :
    step s = .next (resetTick (beginTick s)) :=
  (if_pos hc).trans (if_pos hr)

/-- No word but 0 is read in a reset tick (R310). -/
theorem readInReset_eq_none_or_zero (s : State) : readInReset s = none ∨ readInReset s = some 0 := by
  unfold readInReset
  split
  · exact .inl rfl
  · split
    · exact .inl rfl
    · exact (ite_eq_or_eq _ _ _).symm

/-- Out of a stall, an action that reads the block's window reads a word in a reset tick (R310). -/
theorem readInReset_of_reads {s : State} {a : HostAction} {rest : List HostAction} (hstall : s.stall = 0)
    (hhost : s.host = a :: rest) (ha : a.reads s.cfg = true) : readInReset s = some 0 := by
  unfold readInReset
  rw [if_neg (not_not_intro hstall), hhost]
  exact if_pos ha

/-- A read at an offset inside the window reads the block's window (R80). -/
theorem hostRead_reads (c : Config) {off : Nat} (h : off < 0x200000) : (hostRead c off).reads c = true := by
  have hoff := offsetOf_base_add c (BitVec.ofNat 21 off)
  rw [BitVec.toNat_ofNat, Nat.mod_eq_of_lt h] at hoff
  exact Option.isSome_of_eq_some hoff

/-- With no event pending the irq line is low (R286). -/
theorem irq_of_irqStatus_eq_zero {s : State} (h : s.irqStatus = 0) : s.irq = false := by
  simp [State.irq, h]

/-- Settles O46: the reset tick is the reset state but for the host's read and the world outside the block, so its groups
of fields are equal as they stand; what is read is 0, and a read of the window reads. -/
theorem resetTickRestoresEveryValue : Obligations.ResetTickRestoresEveryValue := by
  intro s hc hr
  refine ⟨resetTick (beginTick s), step_of_rst hc hr, ?memories, ?scheduler, ?errors, ?interrupts, ?rest, rfl,
    irq_of_irqStatus_eq_zero rfl, readInReset_eq_none_or_zero (beginTick s), ?read⟩
  case memories => exact ⟨rfl, rfl, rfl, rfl, rfl⟩
  case scheduler => exact ⟨rfl, rfl, rfl, rfl, rfl, rfl, rfl, rfl, rfl⟩
  case errors => exact ⟨rfl, rfl, rfl, rfl, rfl⟩
  case interrupts => exact ⟨rfl, rfl, rfl, rfl⟩
  case rest => exact ⟨rfl, rfl, rfl⟩
  case read =>
    intro off rest hoff hstall hhost
    have hread : (hostRead s.cfg off).reads (beginTick s).cfg = true := hostRead_reads s.cfg hoff
    exact readInReset_of_reads (s := beginTick s) hstall hhost hread

end Sys2Proof.Machine
end

section
/-!
PROOFS. The invariant over a whole step (R64, R65): it holds after reset, every step keeps it, and from it a step completes.
-/

namespace Sys2Proof.Machine

/-! ### The phases of a tick -/

/-- A step or a phase has at most one next state. -/
theorem next_unique {o : Host.Outcome State Fault Refusal} {s t : State} (hs : o = .next s) (ht : o = .next t) : s = t :=
  Host.Outcome.next.inj (hs.symm.trans ht)

/-- Settles O48: after reset the block is IDLE with every memory, counter and event at 0. -/
theorem invariantHoldsAfterReset : Obligations.InvariantHoldsAfterReset := by
  intro c hc
  have hidle : (State.resetOf c).txState = .idle := rfl
  refine ⟨⟨hc, ?memory, ?dither, ?planes, ?scheduler, ?timer, ?position, ?pins, .inl rfl⟩, rfl, rfl, rfl, rfl⟩
  case memory => exact ⟨rfl, rfl, rfl, rfl, rfl, rfl, rfl, rfl, rfl, rfl⟩
  case dither => exact ⟨rfl, rfl⟩
  case planes => exact ⟨rfl, rfl⟩
  case scheduler => exact ⟨iff_of_true rfl hidle, fun h => nomatch h⟩
  case timer => exact ⟨fun h => (nomatch hidle.symm.trans h), fun _ => rfl⟩
  case position => exact ⟨fun _ => ⟨rfl, rfl, rfl, rfl⟩, fun h => nomatch hidle.symm.trans h⟩
  case pins => exact Nat.two_pow_pos c.strips

/-- The reset tick restores the reset state, and the invariant says nothing of the world outside the block (R310). -/
theorem resetTick_inv {s : State} (hc : s.ConfigOk) : (resetTick s).Inv := invariantHoldsAfterReset s.cfg hc

/-- Taking the inputs of a tick keeps the invariant. -/
theorem beginTick_midInv {s : State} (h : s.MidInv) : (beginTick s).MidInv := h

/-- The end-of-tick updates empty the masks and touch nothing the invariant speaks of besides (R285). -/
theorem endTick_inv {s : State} (h : s.MidInv) : (endTick s).Inv := ⟨h, rfl, rfl, rfl, rfl⟩

/-- From the invariant a step gives a next state that meets it. -/
theorem exists_step_inv {s : State} (h : s.Inv) : ∃ t, step s = .next t ∧ t.Inv := by
  obtain ⟨hmid, -⟩ := h
  have hc : s.ConfigOk := hmid.1
  by_cases hr : s.envNow.rst = true
  case pos => exact ⟨_, step_of_rst hc hr, resetTick_inv (s := beginTick s) hc⟩
  case neg =>
    obtain ⟨s1, h1, hmid1⟩ := transmitPhase_midInv (beginTick_midInv hmid) s.envNow.retrigger
    obtain ⟨s2, h2, hmid2⟩ := hostPhase_midInv hmid1
    refine ⟨endTick s2, ?_, endTick_inv hmid2⟩
    rw [step_of_transmitPhase hc (by simpa using hr) h1, h2, andThen_next]

/-- Settles O50: both phases of a tick complete, and so does the reset tick. -/
theorem stepsFromTheInvariantComplete : Obligations.StepsFromTheInvariantComplete := fun _ h =>
  (exists_step_inv h).imp fun _ => And.left

/-- Settles O49: the next state is the one that `exists_step_inv` gives. -/
theorem everyStepKeepsTheInvariant : Obligations.EveryStepKeepsTheInvariant := by
  intro s t h ht
  obtain ⟨u, hu, hinv⟩ := exists_step_inv h
  exact next_unique hu ht ▸ hinv

/-! ### What every step does to the configuration and the inputs -/

/-- Only a well-formed configuration has a next state (R7). -/
theorem configOk_of_step {s t : State} (h : step s = .next t) : s.ConfigOk := by
  by_contra hc
  rw [step_of_not_configOk hc] at h
  cases h

/-- Settles O45: the reset tick keeps the configuration, and so does each phase of any other tick. -/
theorem configurationNeverChanges : Obligations.ConfigurationNeverChanges := by
  intro s t h
  by_cases hr : s.envNow.rst = true
  case pos =>
    rw [step_of_rst (configOk_of_step h) hr] at h
    cases h
    rfl
  case neg =>
    obtain ⟨s1, s2, h1, h2, rfl⟩ := step_phases (by simpa using hr) h
    obtain ⟨hcfg, -, -⟩ := transmitPhase_keeps_host h1
    obtain ⟨hkeeps, -⟩ := hostPhase_hostEffect h2
    exact hkeeps.cfg.trans hcfg

end Sys2Proof.Machine
end

section
/-!
PROOFS. The transmitter's phase of a tick: the pins (R256), the position (R255), what it leaves alone (R94), and that a
stalled command commutes with it (R91).
-/

namespace Sys2Proof.Machine

/-! ### The pins and the position -/

/-- Bit y of the pins in a tick of a slot (R256). -/
theorem drivePins_getLsbD (s : State) {y : Nat} (hy : y < 8) :
    (drivePins s).getLsbD y =
      (decide (y < s.cfg.strips) &&
        decide (s.txPhase.toNat < highTicks s.cfg ((planeByteAt s s.txBuf s.txLed.toNat s.txBit.toNat).getLsbD y))) := by
  rw [drivePins, getLsbD_bitsUpTo, decide_eq_true hy, Bool.and_true]

/-- A TRANSMITTING tick that gives a next state drives the pins and advances (R255). -/
theorem eq_advance_of_transmitPhase {r : Bool} {s t : State} (ht : s.txState = .transmitting)
    (h : transmitPhase r s = .next t) : t = advance { s with dout := drivePins s } := by
  obtain ⟨hother, -⟩ | ⟨-, -, heq⟩ | ⟨hother, -⟩ | ⟨hother, -⟩ := transmitPhase_cases h
  · cases ht.symm.trans hother
  · exact heq
  · cases ht.symm.trans hother
  · cases ht.symm.trans hother

/-- The advance of the position leaves the levels just driven (R255). -/
@[simp] theorem advance_dout (s : State) : (advance s).dout = s.dout := by
  obtain ⟨-, h⟩ | ⟨-, -, h⟩ | ⟨-, -, -, h⟩ | ⟨-, -, -, h⟩ := advance_cases s <;> rw [h]
  rfl

/-- Settles O22: a TRANSMITTING tick leaves what `drivePins` gives for its start, bit by bit. -/
theorem pinsFollowThePlaneByte : Obligations.PinsFollowThePlaneByte := by
  intro r s t ht h y hy
  rw [eq_advance_of_transmitPhase ht h, advance_dout]
  exact drivePins_getLsbD s hy

/-- Before the last tick of a frame the advance stays in the frame and counts one tick more (R255): the phase rises, or it
wraps and the bit rises, or both wrap and the LED rises. -/
theorem advance_ticksSent {s : State} (hpos : s.PositionOk) (hleds : s.cfg.leds ≤ 8192) (hbitTicks : s.cfg.tBit ≤ 65535)
    (ht : s.txState = .transmitting) (hmore : s.ticksSent + 1 < s.cfg.frameTicks) :
    (advance s).txState = .transmitting ∧ (advance s).ticksSent = s.ticksSent + 1 := by
  obtain ⟨hledLt, hbitLe, hphaseLt⟩ := hpos.2 ht
  obtain ⟨hphase, h⟩ | ⟨hphase, hbit, h⟩ | ⟨hphase, hbit, hled, h⟩ | ⟨hphase, hbit, hled, -⟩ := advance_cases s
  case inl =>
    refine ⟨by rw [h]; exact ht, ?_⟩
    have hsucc : (s.txPhase + 1#16).toNat = s.txPhase.toNat + 1 := toNat_succ16 hphase (by omega)
    rw [h]
    show (24 * s.txLed.toNat + s.txBit.toNat) * s.cfg.tBit + (s.txPhase + 1#16).toNat = _
    rw [hsucc]
    rfl
  case inr.inl =>
    refine ⟨by rw [h]; exact ht, ?_⟩
    have hsucc : (s.txBit + 1#5).toNat = s.txBit.toNat + 1 := by
      rw [BitVec.toNat_add]; simp; omega
    rw [h]
    show (24 * s.txLed.toNat + (s.txBit + 1#5).toNat) * s.cfg.tBit + 0 = _
    rw [hsucc, State.ticksSent, ← Nat.add_assoc, Nat.succ_mul]
    omega
  case inr.inr.inl =>
    refine ⟨by rw [h]; exact ht, ?_⟩
    have hsucc : (s.txLed + 1#16).toNat = s.txLed.toNat + 1 := toNat_succ16 hled (by omega)
    have hdigits : 24 * (s.txLed.toNat + 1) + 0 = 24 * s.txLed.toNat + s.txBit.toNat + 1 := by omega
    rw [h]
    show (24 * (s.txLed + 1#16).toNat + 0) * s.cfg.tBit + 0 = _
    rw [hsucc, hdigits, State.ticksSent, Nat.succ_mul]
    omega
  case inr.inr.inr =>
    have hlast : s.ticksSent + 1 = s.cfg.frameTicks :=
      (last_position hledLt hbitLe hphaseLt).mpr ⟨by omega, by omega, by omega⟩
    omega

/-- Settles O24: the step keeps the ranges, as every phase does, and its advance counts one tick. -/
theorem positionAdvancesByOneTick : Obligations.PositionAdvancesByOneTick := by
  intro r s hinv ht hmore
  obtain ⟨t, h, hmid⟩ := transmitPhase_midInv hinv r
  obtain ⟨hc, -, -, -, -, -, hpos, -, -⟩ := hinv
  obtain ⟨-, -, -, -, -, -, hposAfter, -, -⟩ := hmid
  obtain ⟨-, -, -, -, hleds, -, -, ⟨-, -, -, hbitTicks⟩, -⟩ := bounds_of_wellFormed hc
  -- the levels driven are no part of the position
  have hdriven : ({ s with dout := drivePins s } : State).PositionOk := ⟨fun hnot => absurd ht hnot, hpos.2⟩
  obtain ⟨hstate, hticks⟩ :=
    advance_ticksSent (s := { s with dout := drivePins s }) hdriven hleds hbitTicks ht hmore
  rw [← eq_advance_of_transmitPhase ht h] at hstate hticks
  exact ⟨t, h, hstate, hposAfter, hticks⟩

/-! ### What the transmitter leaves alone -/

/-- Everything R94 keeps the transmitter from writing is the same. -/
abbrev SameRenderSide (s t : State) : Prop :=
  SameMemories s t ∧ SameErrors s t ∧ SameOutside s t ∧ SameStall s t ∧ t.cfg = s.cfg ∧ t.mapIn = s.mapIn ∧
    t.irqEnable = s.irqEnable ∧ t.irqStatus = s.irqStatus ∧ t.irqClr = s.irqClr

theorem SameRenderSide.refl (s : State) : SameRenderSide s s :=
  ⟨⟨rfl, rfl, rfl, rfl, rfl⟩, ⟨rfl, rfl, rfl, rfl, rfl⟩, ⟨rfl, rfl, rfl⟩, ⟨rfl, rfl, rfl⟩, rfl, rfl, rfl, rfl, rfl⟩

theorem advance_sameRenderSide (s : State) : SameRenderSide s (advance s) := by
  obtain ⟨-, h⟩ | ⟨-, -, h⟩ | ⟨-, -, -, h⟩ | ⟨-, -, -, h⟩ := advance_cases s <;> rw [h] <;> exact SameRenderSide.refl s

theorem timerStep_sameRenderSide (s : State) : SameRenderSide s (timerStep s) := by
  obtain ⟨-, h⟩ | ⟨-, -, h⟩ | ⟨-, -, h⟩ := timerStep_cases s <;> rw [h] <;> exact SameRenderSide.refl s

/-- Settles O29: the pins are no part of the render side, and neither the advance nor the timer's step writes any of it. -/
theorem transmitterKeepsTheRenderSide : Obligations.TransmitterKeepsTheRenderSide := by
  intro r s t h
  obtain ⟨-, rfl⟩ | ⟨-, -, rfl⟩ | ⟨-, -, rfl⟩ | ⟨-, -, rfl⟩ := transmitPhase_cases h
  · exact SameRenderSide.refl s
  · exact advance_sameRenderSide { s with dout := drivePins s }
  · exact SameRenderSide.refl s
  · exact timerStep_sameRenderSide { s with dout := 0 }

/-! ### Stalled commands -/

/-- s with the memories, the stall and the draws of u: all that a stalled command writes (R91, R153). -/
def State.withRender (s u : State) : State :=
  { s with
    pix := u.pix
    errs := u.errs
    qv := u.qv
    bp0 := u.bp0
    bp1 := u.bp1
    stall := u.stall
    cmdDraws := u.cmdDraws
    drawCount := u.drawCount }

/-- The pins are driven from BP[TX_BUF] alone of the memories (R256). -/
theorem drivePins_withRender {s u : State} (hbp : u.bp (!s.fill) = s.bp (!s.fill)) :
    drivePins (s.withRender u) = drivePins s := by
  have hsent : (s.withRender u).bp (!s.fill) = s.bp (!s.fill) := hbp
  unfold drivePins planeByteAt State.txBuf
  show bitsUpTo s.cfg.strips _ = _
  simp only [show (s.withRender u).fill = s.fill from rfl, hsent]
  rfl

theorem advance_withRender (s u : State) : advance (s.withRender u) = (advance s).withRender u := by
  unfold advance
  simp only [apply_ite (State.withRender · u)]
  rfl

theorem timerStep_withRender (s u : State) : timerStep (s.withRender u) = (timerStep s).withRender u := by
  unfold timerStep timerExpire
  simp only [apply_ite (State.withRender · u)]
  rfl

/-- The transmitter's phase commutes with any change of the memories but BP[TX_BUF], of the stall and of the draws (R91,
R94). -/
theorem transmitPhase_withRender {r : Bool} {s s1 u : State} (hbp : u.bp (!s.fill) = s.bp (!s.fill))
    (h : transmitPhase r s = .next s1) : transmitPhase r (s.withRender u) = .next (s1.withRender u) := by
  obtain ⟨ht, rfl⟩ | ⟨ht, hpos, rfl⟩ | ⟨ht, rfl, rfl⟩ | ⟨ht, rfl, rfl⟩ := transmitPhase_cases h
  · exact transmitPhase_idle (s := s.withRender u) ht
  · have hdriven : transmitPhase r (s.withRender u) =
        .next (advance { s.withRender u with dout := drivePins (s.withRender u) }) :=
      (transmitPhase_transmitting (s := s.withRender u) ht).trans (if_pos hpos)
    rw [hdriven, drivePins_withRender hbp, ← advance_withRender]
    rfl
  · exact transmitPhase_resetWait (s := s.withRender u) ht
  · rw [← timerStep_withRender]
    exact transmitPhase_resetWait (s := s.withRender u) ht

theorem beginStall_withRender (s u : State) : beginStall (s.withRender u) = s.withRender (beginStall u) := by
  unfold beginStall
  simp only [State.withRender]
  cases u.cmdDraws <;> rfl

/-- ENCODE's buffer depends on the configuration, the pixels and the fillable buffer only (R210 to R212). -/
theorem encodePlanes_congr {s t : State} (hcfg : t.cfg = s.cfg) (hpix : t.pix = s.pix)
    (hbp : t.bp t.fill = s.bp s.fill) : encodePlanes t = encodePlanes s := by
  have hbyte : ∀ led k, planeByte t led k = planeByte s led k := fun led k => by
    unfold planeByte planeBit stripColor pixel
    rw [hcfg, hpix]
  unfold encodePlanes
  simp only [hcfg, hbp, hbyte]

/-- A stalled command reads, of what it does not write, the configuration only; ENCODE reads FILL and SUBMIT_PENDING too
(R156, R171, R210). -/
theorem exec_withRender {i : Instr} {s t s1 : State} (hnop : i ≠ .nop) (hsubmit : i ≠ .submit) (hcfg : s1.cfg = s.cfg)
    (hencode : i = .encode → s.submitPending = false ∧ s1.submitPending = false ∧ s1.fill = s.fill)
    (h : exec i s = .next t) : exec i (s1.withRender s) = .next (s1.withRender t) := by
  cases i with
  | nop => exact absurd rfl hnop
  | submit => exact absurd rfl hsubmit
  | clear =>
    cases h
    rw [← beginStall_withRender, ← hcfg]
    rfl
  | process g d =>
    cases h
    rw [← beginStall_withRender, ← hcfg]
    rfl
  | encode =>
    obtain ⟨hp, hp1, hfill⟩ := hencode rfl
    rw [exec_encode_of_not_pending (by simp [hp])] at h
    cases h
    have hplanes : encodePlanes (s1.withRender s) = encodePlanes s :=
      encodePlanes_congr hcfg rfl (by rw [← hfill]; rfl)
    rw [exec_encode_of_not_pending (s := s1.withRender s) (by simp [State.withRender, hp1]), hplanes,
      ← beginStall_withRender, ← hfill]
    unfold State.setBp
    simp only [show (s1.withRender s).fill = s1.fill from rfl]
    split <;> rfl

/-- The advance of the position starts no frame (R255). -/
theorem advance_keeps_frame (s : State) :
    (advance s).submitPending = s.submitPending ∧ (advance s).fill = s.fill ∧ (advance s).frameCount = s.frameCount ∧
      (advance s).sig = s.sig := by
  obtain ⟨-, h⟩ | ⟨-, -, h⟩ | ⟨-, -, -, h⟩ | ⟨-, -, -, h⟩ := advance_cases s <;> rw [h] <;> exact ⟨rfl, rfl, rfl, rfl⟩

/-- With no submit pending the transmitter's phase starts no frame (R260). -/
theorem transmitPhase_of_not_pending {r : Bool} {s t : State} (hp : s.submitPending = false)
    (h : transmitPhase r s = .next t) : t.submitPending = false ∧ t.fill = s.fill := by
  obtain ⟨-, rfl⟩ | ⟨-, -, rfl⟩ | ⟨-, -, rfl⟩ | ⟨-, -, rfl⟩ := transmitPhase_cases h
  · exact ⟨hp, rfl⟩
  · obtain ⟨hpending, hfill, -, -⟩ := advance_keeps_frame { s with dout := drivePins s }
    exact ⟨hpending.trans hp, hfill⟩
  · exact ⟨hp, rfl⟩
  · obtain ⟨-, e⟩ | ⟨-, -, e⟩ | ⟨-, hwaits, -⟩ := timerStep_cases { s with dout := 0 }
    · rw [e]; exact ⟨hp, rfl⟩
    · rw [e]; exact ⟨hp, rfl⟩
    · cases hp.symm.trans hwaits

/-- The transmitter writes nothing that a stalled command writes (R94). -/
theorem withRender_of_transmitPhase {r : Bool} {s s1 : State} (h : transmitPhase r s = .next s1) :
    s1.withRender s = s1 := by
  obtain ⟨⟨hpix, herrs, hqv, hbp0, hbp1⟩, -, -, ⟨hstall, hdraws, hcount⟩, -⟩ := transmitterKeepsTheRenderSide r s s1 h
  unfold State.withRender
  rw [← hpix, ← herrs, ← hqv, ← hbp0, ← hbp1, ← hstall, ← hdraws, ← hcount]

/-- Settles O43: the command writes only what `withRender` replaces, and never BP[TX_BUF], so the transmitter does the same
before and after it; the transmitter writes nothing the command reads. -/
theorem stalledCommandsCommuteWithTheTransmitter : Obligations.StalledCommandsCommuteWithTheTransmitter := by
  intro i r s s1 t hnop hsubmit hpending h1 ht
  obtain ⟨-, -, -, -, hcfg, -⟩ := transmitterKeepsTheRenderSide r s s1 h1
  have hwrites : t = s.withRender t := by
    have h := exec_withRender hnop hsubmit rfl (fun hi => ⟨hpending hi, hpending hi, rfl⟩) ht
    exact next_unique ht h
  have hsent : t.bp (!s.fill) = s.bp (!s.fill) := by
    obtain ⟨-, hrenders | haccepts⟩ := exec_hostEffect ht
    · exact hrenders.sending
    · have hfill : t.fill = s.fill := by rw [hwrites]; rfl
      exact absurd (hfill.symm.trans haccepts.fill) (by simp)
  have hcommand : exec i (s1.withRender s) = .next (s1.withRender t) :=
    exec_withRender hnop hsubmit hcfg
      (fun hi => ⟨hpending hi, transmitPhase_of_not_pending (hpending hi) h1⟩) ht
  rw [withRender_of_transmitPhase h1] at hcommand
  refine ⟨s1.withRender t, hcommand, ?_⟩
  rw [hwrites]
  exact transmitPhase_withRender hsent h1

end Sys2Proof.Machine
end

section
/-!
PROOFS. Whole frames: runs of ticks in which no frame is accepted, through a frame (R255 to R258) and its reset window
(R259 to R262), and what they say of the waveform, the distance of accepts and progress (R250, R261, R265, R326).
-/

namespace Sys2Proof.Machine

/-! ### A tick, seen from the transmitter -/

/-- What the tick from s to t leaves of the transmitter's state s1 after phase 1: everything the host's phase keeps. -/
structure TransmitterLeaves (s1 t : State) : Prop where
  dout : t.dout = s1.dout
  timer : t.timer = s1.timer
  events : ∀ b, s1.irqSet.getLsbD b = true → t.irqStatus.getLsbD b = true

/-- The host's phase and the end of the tick keep the pins, TIMER and the events of phase 1, which win over any clear (R285). -/
theorem transmitterLeaves_endTick {s1 s2 : State} (h : HostKeeps s1 s2) : TransmitterLeaves s1 (endTick s2) where
  dout := h.dout
  timer := h.timer
  events := fun b hb => by simp [updateEvents, h.irqSet b hb]

/-- t comes k ticks after s, and no frame has been accepted in them: the frame count, FILL and the buffer being sent are as
they were, and a submit that waited still waits. -/
structure SameFrame (k : Nat) (s t : State) : Prop where
  inv : t.Inv
  cfg : t.cfg = s.cfg
  env : t.env = s.env.drop k
  frameCount : t.frameCount = s.frameCount
  fill : t.fill = s.fill
  pending : s.submitPending = true → t.submitPending = true
  sent : t.bp (!s.fill) = s.bp (!s.fill)

theorem SameFrame.refl {s : State} (h : s.Inv) : SameFrame 0 s s := ⟨h, rfl, rfl, rfl, rfl, id, rfl⟩

theorem SameFrame.trans {j k : Nat} {s t u : State} (hst : SameFrame j s t) (htu : SameFrame k t u) :
    SameFrame (j + k) s u where
  inv := htu.inv
  cfg := htu.cfg.trans hst.cfg
  env := by rw [htu.env, hst.env, List.drop_drop]
  frameCount := htu.frameCount.trans hst.frameCount
  fill := htu.fill.trans hst.fill
  pending := htu.pending ∘ hst.pending
  sent := by rw [← hst.sent, ← hst.fill]; exact htu.sent

/-- SIG is low outside IDLE, so that the host's phase accepts no SUBMIT (INV2, R231). -/
theorem hostRenders_of_busy {s1 s2 : State} (hinv : s1.MidInv) (hbusy : s1.txState ≠ .idle) (h : HostEffect s1 s2) :
    HostRenders s1 s2 := by
  obtain ⟨-, -, -, -, ⟨hsig, -⟩, -⟩ := hinv
  exact h.2.resolve_right fun haccepts => hbusy (hsig.mp haccepts.sig)

/-- A tick that phase 1 leaves outside IDLE and without an accept: nothing in it accepts a frame, and the transmitter ends
where phase 1 left it. -/
theorem step_of_busy {s s1 : State} (hinv : s.Inv) (hr : s.envNow.rst = false)
    (h1 : transmitPhase s.envNow.retrigger (beginTick s) = .next s1) (hbusy : s1.txState ≠ .idle)
    (hframe : s1.submitPending = s.submitPending ∧ s1.fill = s.fill ∧ s1.frameCount = s.frameCount) :
    ∃ t, step s = .next t ∧ SameFrame 1 s t ∧ TransmitterLeaves s1 t ∧ t.txState = s1.txState ∧
      t.ticksSent = s1.ticksSent := by
  obtain ⟨t, hstep, htinv⟩ := exists_step_inv hinv
  obtain ⟨s1', s2, h1', h2, rfl⟩ := step_phases hr hstep
  cases next_unique h1 h1'
  have hmid : s1.MidInv := by
    obtain ⟨u, hu, hmid⟩ := transmitPhase_midInv (beginTick_midInv hinv.1) s.envNow.retrigger
    cases next_unique h1 hu
    exact hmid
  obtain ⟨⟨-, -, -, hbp0, hbp1⟩, -, ⟨-, henv, -⟩, -, hcfg, -⟩ := transmitterKeepsTheRenderSide _ _ _ h1
  obtain ⟨hpending, hfill, hcount⟩ := hframe
  have heffect := hostPhase_hostEffect h2
  have hkeeps := heffect.1
  have hrenders := hostRenders_of_busy hmid hbusy heffect
  have hsent : s1.bp (!s.fill) = s.bp (!s.fill) := by unfold State.bp; rw [hbp0, hbp1]; rfl
  have hsending : s2.bp (!s.fill) = s1.bp (!s.fill) := hfill ▸ hrenders.sending
  refine ⟨endTick s2, hstep, ?_, transmitterLeaves_endTick hkeeps, hrenders.txState, ?_⟩
  · exact ⟨htinv, hkeeps.cfg.trans hcfg, (hkeeps.env.trans henv).trans (by simp [List.drop_one]),
      hrenders.frameCount.trans hcount, hrenders.fill.trans hfill, fun hp => hrenders.pending (hpending.trans hp),
      hsending.trans hsent⟩
  · simp [State.ticksSent, hrenders.txLed, hrenders.txBit, hrenders.txPhase, hkeeps.cfg]

/-- While a frame is sent, ticks of it are left (R257). -/
theorem ticksSent_lt_of_inv {s : State} (hinv : s.Inv) (ht : s.txState = .transmitting) :
    s.ticksSent < s.cfg.frameTicks := by
  obtain ⟨-, -, -, -, -, -, hpos, -⟩ := hinv.1
  exact ticksSent_lt hpos ht

/-- A tick of a frame: it drives the pins, and sends one tick more or, the last, opens the reset window (R255, R258). -/
theorem step_of_transmitting {s : State} (hinv : s.Inv) (ht : s.txState = .transmitting) (hr : s.envNow.rst = false) :
    ∃ t, step s = .next t ∧ SameFrame 1 s t ∧ t.dout = drivePins s ∧
      ((s.ticksSent + 1 < s.cfg.frameTicks ∧ t.txState = .transmitting ∧ t.ticksSent = s.ticksSent + 1) ∨
        (s.ticksSent + 1 = s.cfg.frameTicks ∧ t.txState = .resetWait ∧ t.timer.toNat = s.cfg.resetTicks ∧
          t.irqStatus.getLsbD 0 = true)) := by
  have hmid : (beginTick s).MidInv := beginTick_midInv hinv.1
  have hc : s.ConfigOk := hmid.1
  have hlt := ticksSent_lt_of_inv hinv ht
  obtain ⟨s1, h1, -⟩ := transmitPhase_midInv hmid s.envNow.retrigger
  have hadvance := eq_advance_of_transmitPhase (s := beginTick s) ht h1
  obtain ⟨hpending, hfill, hcount, -⟩ := advance_keeps_frame { beginTick s with dout := drivePins (beginTick s) }
  rw [← hadvance] at hpending hfill hcount
  have hpins : s1.dout = drivePins s := by rw [hadvance, advance_dout]; rfl
  obtain hmore | hlast : s.ticksSent + 1 < s.cfg.frameTicks ∨ s.ticksSent + 1 = s.cfg.frameTicks := by omega
  · obtain ⟨u, hu, hstate, -, hticks⟩ := positionAdvancesByOneTick s.envNow.retrigger (beginTick s) hmid ht hmore
    cases next_unique h1 hu
    obtain ⟨t, hstep, hsame, hleaves, htstate, htticks⟩ :=
      step_of_busy hinv hr h1 (by simp [hstate]) ⟨hpending, hfill, hcount⟩
    exact ⟨t, hstep, hsame, hleaves.dout.trans hpins, .inl ⟨hmore, htstate.trans hstate, htticks.trans hticks⟩⟩
  · have hdone := dmaCompletionArmsTheTimer s.envNow.retrigger (beginTick s) hmid ht hlast
    cases next_unique h1 hdone
    obtain ⟨t, hstep, hsame, hleaves, htstate, -⟩ :=
      step_of_busy hinv hr h1 (fun h => nomatch h) ⟨hpending, hfill, hcount⟩
    refine ⟨t, hstep, hsame, hleaves.dout.trans hpins, .inr ⟨hlast, htstate, ?_, hleaves.events 0 (by simp)⟩⟩
    rw [hleaves.timer]
    exact toNat_resetTicks hc

/-- A tick of the reset window that does not expire it: re-triggered, or with TIMER above 1 (R259, R262). -/
theorem step_of_resetWait {s : State} (hinv : s.Inv) (ht : s.txState = .resetWait) (hr : s.envNow.rst = false)
    (hlasts : s.envNow.retrigger = true ∨ 1 < s.timer.toNat) :
    ∃ t, step s = .next t ∧ SameFrame 1 s t ∧ t.txState = .resetWait ∧
      t.timer.toNat = if s.envNow.retrigger then s.cfg.resetTicks else s.timer.toNat - 1 := by
  have hc : s.ConfigOk := hinv.1.1
  have h1 := transmitPhase_resetWait (r := s.envNow.retrigger) (s := beginTick s) ht
  by_cases hre : s.envNow.retrigger = true
  case pos =>
    rw [if_pos hre] at h1
    obtain ⟨t, hstep, hsame, hleaves, hstate, -⟩ :=
      step_of_busy hinv hr h1 (fun h => nomatch ht.symm.trans h) ⟨rfl, rfl, rfl⟩
    refine ⟨t, hstep, hsame, hstate.trans ht, ?_⟩
    rw [hleaves.timer, if_pos hre]
    exact toNat_resetTicks hc
  case neg =>
    have hmore : 1 < s.timer.toNat := hlasts.resolve_left hre
    have hne : s.timer ≠ 1 := fun h => by simp [h] at hmore
    rw [if_neg hre, timerStep_of_ne_one (s := { beginTick s with dout := 0 }) hne] at h1
    obtain ⟨t, hstep, hsame, hleaves, hstate, -⟩ :=
      step_of_busy hinv hr h1 (fun h => nomatch ht.symm.trans h) ⟨rfl, rfl, rfl⟩
    refine ⟨t, hstep, hsame, hstate.trans ht, ?_⟩
    rw [hleaves.timer, if_neg hre]
    exact BitVec.toNat_sub_of_le (x := s.timer) (y := 1#32) (by simp [BitVec.le_def]; omega)

/-- A tick that starts in RESET_WAIT drives every pin low, whatever becomes of the window in it (R259, R260, R262). -/
theorem dout_of_step_of_resetWait {s t : State} (ht : s.txState = .resetWait) (hr : s.envNow.rst = false)
    (h : step s = .next t) : t.dout = 0 := by
  obtain ⟨s1, s2, h1, h2, rfl⟩ := step_phases hr h
  obtain ⟨hkeeps, -⟩ := hostPhase_hostEffect h2
  refine (transmitterLeaves_endTick hkeeps).dout.trans ?_
  rw [transmitPhase_resetWait (s := beginTick s) ht] at h1
  cases h1
  split
  · rfl
  · obtain ⟨-, e⟩ | ⟨-, -, e⟩ | ⟨-, -, e⟩ := timerStep_cases { beginTick s with dout := 0 } <;> rw [e] <;> rfl

/-- A frame has been accepted in the tick or the ticks from s to t (R233). -/
structure Accepted (s t : State) : Prop where
  txState : t.txState = .transmitting
  sig : t.sig = false
  ticksSent : t.ticksSent = 0
  frameCount : t.frameCount = s.frameCount + 1
  fill : t.fill = !s.fill

/-- An accept counts from any state with the same frame count and the same FILL. -/
theorem Accepted.of_eq {s s' t : State} (h : Accepted s' t) (hcount : s'.frameCount = s.frameCount)
    (hfill : s'.fill = s.fill) : Accepted s t :=
  ⟨h.txState, h.sig, h.ticksSent, hcount ▸ h.frameCount, hfill ▸ h.fill⟩

/-- The expiry tick without a submit that waits: SIG is released, or the host's SUBMIT of that tick is accepted (R260,
R231). -/
theorem idle_or_accepted_of_hostEffect {s1 s2 : State} (h : HostEffect s1 s2) (hmid : s2.MidInv)
    (hidle : s1.txState = .idle) (hsig : s1.sig = true) :
    (s2.txState = .idle ∧ s2.sig = true ∧ s2.frameCount = s1.frameCount ∧ s2.fill = s1.fill) ∨
      Accepted s1 (endTick s2) := by
  obtain ⟨-, -, -, -, ⟨hsigOk, -⟩, -⟩ := hmid
  obtain ⟨-, hrenders | haccepts⟩ := h
  · exact .inl ⟨hrenders.txState.trans hidle, hrenders.sig.trans hsig, hrenders.frameCount, hrenders.fill⟩
  · refine .inr ⟨haccepts.txState, ?_, ?_, haccepts.frameCount, haccepts.fill⟩
    · refine Bool.eq_false_iff.mpr fun hhigh => ?_
      cases haccepts.txState.symm.trans (hsigOk.mp hhigh)
    · simp [State.ticksSent, haccepts.txLed, haccepts.txBit, haccepts.txPhase]

/-- The last tick of the reset window (R260): RESET_DONE is set, and the block is IDLE or has accepted a frame, as it has
when a submit waited. -/
theorem step_of_expiry {s : State} (hinv : s.Inv) (ht : s.txState = .resetWait) (hr : s.envNow.rst = false)
    (hre : s.envNow.retrigger = false) (hone : s.timer.toNat = 1) :
    ∃ t, step s = .next t ∧ t.irqStatus.getLsbD 1 = true ∧
      ((t.txState = .idle ∧ t.sig = true ∧ t.frameCount = s.frameCount ∧ t.fill = s.fill ∧ s.submitPending = false) ∨
        Accepted s t) := by
  obtain ⟨t, hstep, htmid, -⟩ := exists_step_inv hinv
  obtain ⟨s1, s2, h1, h2, rfl⟩ := step_phases hr hstep
  have heffect := hostPhase_hostEffect h2
  have hleaves := transmitterLeaves_endTick heffect.1
  have htimer : (beginTick s).timer = 1 := BitVec.eq_of_toNat_eq hone
  rw [hre] at h1
  obtain ⟨hreleases, haccepts⟩ := expiryReleasesTheSignal (beginTick s) ht htimer
  refine ⟨endTick s2, hstep, ?_⟩
  cases hp : s.submitPending with
  | false =>
    cases next_unique h1 (hreleases hp)
    refine ⟨hleaves.events 1 (by simp), ?_⟩
    obtain ⟨hidle, hsig, hcount, hfill⟩ | haccepted := idle_or_accepted_of_hostEffect heffect htmid rfl rfl
    · exact .inl ⟨hidle, hsig, hcount, hfill, rfl⟩
    · exact .inr (haccepted.of_eq rfl rfl)
  | true =>
    cases next_unique h1 (haccepts hp)
    refine ⟨hleaves.events 1 (by simp), .inr ?_⟩
    have hrenders : HostRenders _ s2 := heffect.2.resolve_right fun h => nomatch h.sig
    exact ⟨hrenders.txState, hrenders.sig, by simp [State.ticksSent, hrenders.txLed, hrenders.txBit, hrenders.txPhase],
      hrenders.frameCount, hrenders.fill⟩

/-! ### Runs -/

/-- One more tick at the end of a run. -/
theorem runTicks_step {s t u : State} {k : Nat} (hrun : s.runTicks k = .next t) (hstep : step t = .next u) :
    s.runTicks (k + 1) = .next u := by
  rw [runTicks_add 1 hrun, runTicks_one, hstep]

/-- No rst in the tick after k of k + 1 ticks without one. -/
theorem SameFrame.rst {k : Nat} {s t : State} (h : SameFrame k s t) (hr : s.noReset (k + 1) = true) :
    t.envNow.rst = false := (noReset_succ (noReset_drop (n := 1) hr h.env)).1

/-- No re-trigger in the tick after k of k + 1 quiet ticks. -/
theorem SameFrame.retrigger {k : Nat} {s t : State} (h : SameFrame k s t) (hq : s.quiet (k + 1) = true) :
    t.envNow.retrigger = false := (quiet_succ (quiet_drop (n := 1) hq h.env)).2.1

/-- While ticks of the frame are left, the block sends them one by one (R238, R255). -/
theorem run_frame {s : State} (hinv : s.Inv) (ht : s.txState = .transmitting) {k : Nat}
    (hk : s.ticksSent + k < s.cfg.frameTicks) (hr : s.noReset k = true) :
    ∃ t, s.runTicks k = .next t ∧ SameFrame k s t ∧ t.txState = .transmitting ∧ t.ticksSent = s.ticksSent + k := by
  induction k with
  | zero => exact ⟨s, rfl, .refl hinv, ht, rfl⟩
  | succ k ih =>
    obtain ⟨t, hrun, hsame, hstate, hticks⟩ := ih (by omega) (noReset_mono hr (by omega))
    obtain ⟨u, hstep, hsame', -, ⟨-, hstate', hticks'⟩ | ⟨hlast, -⟩⟩ :=
      step_of_transmitting hsame.inv hstate (hsame.rst hr)
    · exact ⟨u, runTicks_step hrun hstep, hsame.trans hsame', hstate', by omega⟩
    · rw [hsame.cfg] at hlast
      omega

/-- The ticks that are left of a frame end in RESET_WAIT with the timer armed and TX_DONE set (R257, R258). -/
theorem run_frame_end {s : State} (hinv : s.Inv) (ht : s.txState = .transmitting)
    (hr : s.noReset (s.cfg.frameTicks - s.ticksSent) = true) :
    ∃ t, s.runTicks (s.cfg.frameTicks - s.ticksSent) = .next t ∧ SameFrame (s.cfg.frameTicks - s.ticksSent) s t ∧
      t.txState = .resetWait ∧ t.timer.toNat = s.cfg.resetTicks ∧ t.irqStatus.getLsbD 0 = true := by
  have hlt := ticksSent_lt_of_inv hinv ht
  obtain ⟨k, hk⟩ : ∃ k, s.cfg.frameTicks - s.ticksSent = k + 1 := ⟨_, (Nat.succ_pred_eq_of_pos (by omega)).symm⟩
  rw [hk] at hr ⊢
  obtain ⟨t, hrun, hsame, hstate, hticks⟩ := run_frame hinv ht (k := k) (by omega) (noReset_mono hr (by omega))
  obtain ⟨u, hstep, hsame', -, ⟨hmore, -⟩ | ⟨-, hstate', htimer, hdone⟩⟩ :=
    step_of_transmitting hsame.inv hstate (hsame.rst hr)
  · rw [hsame.cfg] at hmore
    omega
  · exact ⟨u, runTicks_step hrun hstep, hsame.trans hsame', hstate', htimer.trans (congrArg _ hsame.cfg), hdone⟩

/-- For fewer ticks than TIMER says the reset window lasts; re-triggers only lengthen it, and without them TIMER counts the
ticks (R259, R262). -/
theorem run_window {s : State} (hinv : s.Inv) (ht : s.txState = .resetWait) {k : Nat} (hk : k < s.timer.toNat)
    (hr : s.noReset k = true) :
    ∃ t, s.runTicks k = .next t ∧ SameFrame k s t ∧ t.txState = .resetWait ∧ s.timer.toNat - k ≤ t.timer.toNat ∧
      (s.quiet k = true → t.timer.toNat = s.timer.toNat - k) := by
  have hmax : s.timer.toNat ≤ s.cfg.resetTicks := by
    obtain ⟨-, -, -, -, -, ⟨htimer, -⟩, -⟩ := hinv.1
    exact (htimer ht).2
  induction k with
  | zero => exact ⟨s, rfl, .refl hinv, ht, le_rfl, fun _ => rfl⟩
  | succ k ih =>
    obtain ⟨t, hrun, hsame, hstate, hleast, hcount⟩ := ih (by omega) (noReset_mono hr (by omega))
    obtain ⟨u, hstep, hsame', hstate', htimer⟩ :=
      step_of_resetWait hsame.inv hstate (hsame.rst hr) (.inr (by omega))
    rw [hsame.cfg] at htimer
    refine ⟨u, runTicks_step hrun hstep, hsame.trans hsame', hstate', ?_, fun hq => ?_⟩
    · split at htimer <;> omega
    · rw [hsame.retrigger hq, if_neg (by decide)] at htimer
      have := hcount (quiet_mono hq (by omega))
      omega

/-- TIMER quiet ticks end the reset window (R259, R260). -/
theorem run_window_end {s : State} (hinv : s.Inv) (ht : s.txState = .resetWait) (hq : s.quiet s.timer.toNat = true) :
    ∃ t, s.runTicks s.timer.toNat = .next t ∧ t.irqStatus.getLsbD 1 = true ∧
      ((t.txState = .idle ∧ t.sig = true ∧ t.frameCount = s.frameCount ∧ t.fill = s.fill ∧ s.submitPending = false) ∨
        Accepted s t) := by
  have hpos : 1 ≤ s.timer.toNat := by
    obtain ⟨-, -, -, -, -, ⟨htimer, -⟩, -⟩ := hinv.1
    exact (htimer ht).1
  obtain ⟨k, hk⟩ : ∃ k, s.timer.toNat = k + 1 := ⟨_, (Nat.succ_pred_eq_of_pos hpos).symm⟩
  rw [hk] at hq ⊢
  have hr := noReset_of_quiet hq
  obtain ⟨t, hrun, hsame, hstate, -, hcount⟩ := run_window hinv ht (k := k) (by omega) (noReset_mono hr (by omega))
  have hone : t.timer.toNat = 1 := by rw [hcount (quiet_mono hq (by omega))]; omega
  obtain ⟨u, hstep, hdone, ⟨hidle, hsig, hframes, hfill, hnone⟩ | haccepted⟩ :=
    step_of_expiry hsame.inv hstate (hsame.rst hr) (hsame.retrigger hq) hone
  · refine ⟨u, runTicks_step hrun hstep, hdone, .inl ⟨hidle, hsig, hframes.trans hsame.frameCount,
      hfill.trans hsame.fill, Bool.eq_false_iff.mpr fun hp => ?_⟩⟩
    cases hnone.symm.trans (hsame.pending hp)
  · exact ⟨u, runTicks_step hrun hstep, hdone, .inr (haccepted.of_eq hsame.frameCount hsame.fill)⟩

/-- For N + RESET_TICKS ticks from the start of a frame no other frame is accepted: N ticks send it, and the window lasts at
least RESET_TICKS (R265). -/
theorem run_frame_and_window {s : State} (hinv : s.Inv) (ht : s.txState = .transmitting) (h0 : s.ticksSent = 0) {k : Nat}
    (hk : k < s.cfg.frameTicks + s.cfg.resetTicks) (hr : s.noReset k = true) :
    ∃ t, s.runTicks k = .next t ∧ SameFrame k s t ∧
      ((k < s.cfg.frameTicks ∧ t.txState = .transmitting ∧ t.ticksSent = k) ∨
        (s.cfg.frameTicks ≤ k ∧ t.txState = .resetWait)) := by
  by_cases hframe : k < s.cfg.frameTicks
  case pos =>
    obtain ⟨t, hrun, hsame, hstate, hticks⟩ := run_frame hinv ht (by omega) hr
    exact ⟨t, hrun, hsame, .inl ⟨hframe, hstate, by omega⟩⟩
  case neg =>
    obtain ⟨j, rfl⟩ := Nat.exists_eq_add_of_le (Nat.le_of_not_lt hframe)
    obtain ⟨t, hrun, hsame, hstate, htimer, -⟩ :=
      run_frame_end hinv ht (noReset_mono hr (by omega))
    rw [h0, Nat.sub_zero] at hrun hsame
    obtain ⟨u, hrun', hsame', hstate', -⟩ :=
      run_window hsame.inv hstate (by omega) (noReset_drop hr hsame.env)
    exact ⟨u, (runTicks_add j hrun).trans hrun', hsame.trans hsame', .inr ⟨by omega, hstate'⟩⟩

/-! ### The statements about whole frames -/

/-- Settles O53: the run through the frame, short of its end and to its end. -/
theorem frameLastsExactlyN : Obligations.FrameLastsExactlyN := by
  intro s hinv ht hr
  have hlt := ticksSent_lt_of_inv hinv ht
  refine ⟨hlt, fun k hk => ?_, ?_⟩
  · obtain ⟨t, hrun, -, hstate, hticks⟩ := run_frame hinv ht (k := k) (by omega) (noReset_mono hr (by omega))
    exact ⟨t, hrun, hstate, hticks⟩
  · obtain ⟨t, hrun, -, hstate, htimer, hdone⟩ := run_frame_end hinv ht hr
    exact ⟨t, hrun, hstate, htimer, hdone⟩

/-- Settles O55: SIG is low in RESET_WAIT by INV2. -/
theorem resetWindowLastsTheTimer : Obligations.ResetWindowLastsTheTimer := by
  intro s hinv ht hq
  refine ⟨fun k hk => ?_, ?_⟩
  · have hqk := quiet_mono hq (Nat.le_of_lt hk)
    obtain ⟨t, hrun, hsame, hstate, -, htimer⟩ := run_window hinv ht hk (noReset_of_quiet hqk)
    obtain ⟨-, -, -, -, ⟨hsig, -⟩, -⟩ := hsame.inv.1
    have hlow : t.sig = false := Bool.eq_false_iff.mpr fun hhigh => nomatch hstate.symm.trans (hsig.mp hhigh)
    exact ⟨t, hrun, hstate, hlow, htimer hqk⟩
  · obtain ⟨t, hrun, hdone, hidle | haccepted⟩ := run_window_end hinv ht hq
    · exact ⟨t, hrun, hdone, .inl hidle⟩
    · exact ⟨t, hrun, hdone, .inr ⟨haccepted.txState, haccepted.sig, haccepted.ticksSent, haccepted.frameCount,
        haccepted.fill⟩⟩

/-- Settles O57: no frame is accepted in the run through the frame and its window. -/
theorem acceptsAreFarApart : Obligations.AcceptsAreFarApart := by
  intro s hinv ht h0 hr k hk
  obtain ⟨t, hrun, hsame, -⟩ := run_frame_and_window hinv ht h0 hk (noReset_mono hr (by omega))
  exact ⟨t, hrun, hsame.frameCount, hsame.fill⟩

/-- The phase and the byte of the position, from the ticks sent (R61, R255). -/
theorem position_of_ticksSent {s : State} (hphase : s.txPhase.toNat < s.cfg.tBit) :
    s.ticksSent % s.cfg.tBit = s.txPhase.toNat ∧
      s.ticksSent / s.cfg.tBit = planeKey s.txLed.toNat s.txBit.toNat :=
  ⟨mod_of_digits hphase, div_of_digits hphase⟩

/-- Settles O54: tick k of the frame drives the pins at the position of tick k, from the buffer being sent, which is still
that of the start. -/
theorem frameWaveform : Obligations.FrameWaveform := by
  intro s hinv ht h0 hr k hk
  obtain ⟨t, hrun, hsame, hstate, hticks⟩ := run_frame hinv ht (k := k) (by omega) (noReset_mono hr (by omega))
  obtain ⟨u, hstep, -, hdout, -⟩ := step_of_transmitting hsame.inv hstate (hsame.rst (noReset_mono hr hk))
  refine ⟨u, runTicks_step hrun hstep, fun y hy => ?_⟩
  obtain ⟨-, -, -, -, -, -, hpos, -⟩ := hsame.inv.1
  obtain ⟨hphase, hbyte⟩ := position_of_ticksSent (hpos.2 hstate).2.2
  rw [hticks, h0, Nat.zero_add, hsame.cfg] at hphase hbyte
  have hsent : planeByteAt t t.txBuf t.txLed.toNat t.txBit.toNat = Memory.read (s.bp (!s.fill)) (k / s.cfg.tBit) := by
    rw [planeByteAt, State.txBuf, hsame.fill, hsame.sent, hbyte]
  rw [hdout, drivePins_getLsbD t hy, hsent, hsame.cfg, ← hphase]
  rfl

/-- In the last T − h ticks of n slots of T ticks the phase is at least h. -/
theorem phase_of_last_slot {n T h k : Nat} (hlow : n * T - (T - h) ≤ k) (hk : k < n * T) : h ≤ k % T := by
  have hslot : (k / T + 1) * T ≤ n * T :=
    Nat.mul_le_mul_right T (Nat.div_lt_of_lt_mul (by rwa [Nat.mul_comm]))
  have hsplit := Nat.div_add_mod' k T
  rw [Nat.succ_mul] at hslot
  omega

/-- Settles O58: in the frame's last T_BIT − T1H ticks the phase is at least T1H; after the frame the block is in
RESET_WAIT, whose ticks drive the pins low. -/
theorem pinsStayLowBetweenFrames : Obligations.PinsStayLowBetweenFrames := by
  intro s hinv ht h0 hr k hlow hk
  obtain ⟨t, hrun, hsame, hcase⟩ := run_frame_and_window hinv ht h0 hk (noReset_mono hr (by omega))
  have hrst := hsame.rst (noReset_mono hr hk)
  obtain ⟨hc, -, -, -, -, -, hpos, -⟩ := hsame.inv.1
  obtain ⟨-, -, -, -, -, -, -, ⟨-, hpulses, -, -⟩, -⟩ := bounds_of_wellFormed hc
  obtain ⟨hframe, hstate, hticks⟩ | ⟨-, hstate⟩ := hcase
  · obtain ⟨u, hstep, -, hdout, -⟩ := step_of_transmitting hsame.inv hstate hrst
    refine ⟨u, runTicks_step hrun hstep, hdout.trans (drivePins_low ?_ hpulses)⟩
    obtain ⟨hphase, -⟩ := position_of_ticksSent (hpos.2 hstate).2.2
    rw [← hphase, hticks, hsame.cfg]
    exact phase_of_last_slot hlow hframe
  · obtain ⟨u, hstep, -⟩ := exists_step_inv hsame.inv
    exact ⟨u, runTicks_step hrun hstep, dout_of_step_of_resetWait hstate hrst hstep⟩

/-- A submit that waits in RESET_WAIT is accepted when the timer expires (R260, R232). -/
theorem accepted_of_pending {s : State} (hinv : s.Inv) (ht : s.txState = .resetWait) (hp : s.submitPending = true)
    (hq : s.quiet s.timer.toNat = true) : ∃ t, s.runTicks s.timer.toNat = .next t ∧ Accepted s t := by
  obtain ⟨t, hrun, -, ⟨-, -, -, -, hnone⟩ | haccepted⟩ := run_window_end hinv ht hq
  · cases hp.symm.trans hnone
  · exact ⟨t, hrun, haccepted⟩

/-- Settles O59: a submit waits only in a frame or in the reset window (INV3); what is left of the frame and then the window
pass, and the window's end accepts it. -/
theorem pendingSubmitIsAcceptedInTime : Obligations.PendingSubmitIsAcceptedInTime := by
  intro s hinv hp hq
  obtain ⟨-, -, -, -, ⟨-, hwaits⟩, ⟨htimer, -⟩, -⟩ := hinv.1
  obtain ht | ht := hwaits hp
  case inl =>
    obtain ⟨t, hrun, hsame, hstate, htimer', -⟩ :=
      run_frame_end hinv ht (noReset_mono (noReset_of_quiet hq) (by omega))
    have hqt : t.quiet t.timer.toNat = true := quiet_drop (quiet_mono hq (by omega)) hsame.env
    obtain ⟨u, hrun', haccepted⟩ := accepted_of_pending hsame.inv hstate (hsame.pending hp) hqt
    have haccepts := haccepted.of_eq hsame.frameCount hsame.fill
    exact ⟨_, by omega, u, (runTicks_add _ hrun).trans hrun', haccepts.frameCount, haccepts.fill, haccepts.txState⟩
  case inr =>
    have hle : s.timer.toNat ≤ s.cfg.frameTicks + s.cfg.resetTicks := Nat.le_add_left_of_le (htimer ht).2
    obtain ⟨t, hrun, haccepted⟩ := accepted_of_pending hinv ht hp (quiet_mono hq hle)
    exact ⟨_, hle, t, hrun, haccepted.frameCount, haccepted.fill, haccepted.txState⟩

/-! ### One tick -/

/-- Settles O52: a TRANSMITTING tick accepts no frame, and without an accept the buffer being sent is kept. -/
theorem transmittedBufferIsFrozen : Obligations.TransmittedBufferIsFrozen := by
  intro s t hinv ht hr hstep
  obtain ⟨u, hu, hsame, -⟩ := step_of_transmitting hinv ht hr
  cases next_unique hstep hu
  exact hsame.sent

/-- A tick that starts in RESET_WAIT keeps the frame or accepts one (R259, R260, R262). -/
theorem accepted_or_same_of_resetWait {s t : State} (hinv : s.Inv) (ht : s.txState = .resetWait)
    (hr : s.envNow.rst = false) (h : step s = .next t) :
    Accepted s t ∨ (t.frameCount = s.frameCount ∧ t.fill = s.fill ∧ t.txState ≠ .transmitting) := by
  by_cases hlasts : s.envNow.retrigger = true ∨ 1 < s.timer.toNat
  case pos =>
    obtain ⟨u, hu, hsame, hstate, -⟩ := step_of_resetWait hinv ht hr hlasts
    cases next_unique h hu
    exact .inr ⟨hsame.frameCount, hsame.fill, by simp [hstate]⟩
  case neg =>
    obtain ⟨-, -, -, -, -, ⟨htimer, -⟩, -⟩ := hinv.1
    obtain ⟨hre, hle⟩ := not_or.mp hlasts
    have hone : s.timer.toNat = 1 := by have := (htimer ht).1; omega
    obtain ⟨u, hu, -, ⟨hidle, -, hcount, hfill, -⟩ | haccepted⟩ := step_of_expiry hinv ht hr (by simpa using hre) hone
    · cases next_unique h hu
      exact .inr ⟨hcount, hfill, by simp [hidle]⟩
    · cases next_unique h hu
      exact .inl haccepted

/-- A tick that starts in IDLE accepts the host's SUBMIT, or no frame (R231, R254). -/
theorem accepted_or_same_of_idle {s t : State} (hinv : s.Inv) (ht : s.txState = .idle) (hr : s.envNow.rst = false)
    (h : step s = .next t) :
    Accepted s t ∨ (t.frameCount = s.frameCount ∧ t.fill = s.fill ∧ t.txState ≠ .transmitting) := by
  have hmid := (everyStepKeepsTheInvariant s t hinv h).1
  obtain ⟨-, -, -, -, ⟨hsig, -⟩, -⟩ := hinv.1
  obtain ⟨s1, s2, h1, h2, rfl⟩ := step_phases hr h
  cases next_unique h1 (transmitPhase_idle (s := beginTick s) ht)
  obtain ⟨hidle, -, hcount, hfill⟩ | haccepted :=
    idle_or_accepted_of_hostEffect (hostPhase_hostEffect h2) hmid ht (hsig.mpr ht)
  · exact .inr ⟨hcount, hfill, fun hsending => nomatch hidle.symm.trans hsending⟩
  · exact .inl (haccepted.of_eq rfl rfl)

/-- Settles O51: by the TX_STATE the tick starts in. -/
theorem frameCountCountsAccepts : Obligations.FrameCountCountsAccepts := by
  intro s t hinv hr hstep
  have hsplit (hnot : s.txState ≠ .transmitting)
      (h : Accepted s t ∨ (t.frameCount = s.frameCount ∧ t.fill = s.fill ∧ t.txState ≠ .transmitting)) :
      (t.frameCount = s.frameCount + 1 ∧ t.fill = !s.fill ∧ t.txState = .transmitting ∧ t.ticksSent = 0 ∧
          s.txState ≠ .transmitting) ∨
        (t.frameCount = s.frameCount ∧ t.fill = s.fill ∧ (t.txState = .transmitting → s.txState = .transmitting)) := by
    obtain haccepted | ⟨hcount, hfill, hother⟩ := h
    · exact .inl ⟨haccepted.frameCount, haccepted.fill, haccepted.txState, haccepted.ticksSent, hnot⟩
    · exact .inr ⟨hcount, hfill, fun hsending => absurd hsending hother⟩
  obtain ht | ht | ht := txState_cases s
  · exact hsplit (by simp [ht]) (accepted_or_same_of_idle hinv ht hr hstep)
  · obtain ⟨u, hu, hsame, -⟩ := step_of_transmitting hinv ht hr
    cases next_unique hstep hu
    exact .inr ⟨hsame.frameCount, hsame.fill, fun _ => ht⟩
  · exact hsplit (by simp [ht]) (accepted_or_same_of_resetWait hinv ht hr hstep)

end Sys2Proof.Machine
end

section
/-!
PROOFS. Decode and encode undo each other, on words and on their byte lanes (R88, R121, R123), and the opcode table.
-/

namespace Sys2Proof

/-! ### Words -/

/-- The word of a command decodes to it. -/
theorem decodeWord_encode (i : Instr) : decodeWord (encode i) = .command i := by
  cases i with
  | process g d => cases g <;> cases d <;> decide
  | nop | clear | encode | submit => decide

/-- Two words with the four fields of R120 in common are equal. -/
theorem word_eq_of_fields {v w : Word} (hop : v.extractLsb' 0 4 = w.extractLsb' 0 4)
    (hmid : v.extractLsb' 4 4 = w.extractLsb' 4 4) (hflags : v.extractLsb' 8 2 = w.extractLsb' 8 2)
    (hhigh : v.extractLsb' 10 22 = w.extractLsb' 10 22) : v = w := by
  have hjoin (u : Word) :
      u = (u.extractLsb' 10 22 ++ (u.extractLsb' 8 2 ++ (u.extractLsb' 4 4 ++ u.extractLsb' 0 4) : BitVec 10)) := by
    rw [BitVec.extractLsb'_append_extractLsb'_eq_extractLsb' (by rfl),
      BitVec.extractLsb'_append_extractLsb'_eq_extractLsb' (by rfl),
      BitVec.extractLsb'_append_extractLsb'_eq_extractLsb' (by rfl)]
    exact BitVec.extractLsb'_eq_self.symm
  rw [hjoin v, hjoin w, hop, hmid, hflags, hhigh]

/-- What a command asks of w[9:8] fixes both bits (R120). -/
theorem Instr.FlagsIn.extractLsb'_eq {v w : Word} {i : Instr} (hv : i.FlagsIn v) (hw : i.FlagsIn w) :
    v.extractLsb' 8 2 = w.extractLsb' 8 2 := by
  cases i with
  | process g d =>
    obtain ⟨hvg, hvd⟩ := hv
    obtain ⟨hwg, hwd⟩ := hw
    refine Machine.extractLsb'_eq_of_bits fun n hn => ?_
    rw [BitVec.getLsbD_extractLsb', decide_eq_true hn, Bool.true_and]
    obtain rfl | rfl : n = 0 ∨ n = 1 := by omega
    · exact hvg.symm.trans hwg
    · exact hvd.symm.trans hwd
  | nop | clear | encode | submit => exact Eq.trans hv (Eq.symm hw)

/-- No two words decode to one command: the conditions of R123 fix every field. -/
theorem eq_of_decodeWord_eq {v w : Word} {i : Instr} (hv : decodeWord v = .command i) (hw : decodeWord w = .command i) :
    v = w := by
  obtain ⟨hvHigh, hvMid, hvOp, hvFlags⟩ := decodeWord_eq_command_iff.mp hv
  obtain ⟨hwHigh, hwMid, hwOp, hwFlags⟩ := decodeWord_eq_command_iff.mp hw
  exact word_eq_of_fields (hvOp.trans hwOp.symm) (hvMid.trans hwMid.symm) (hvFlags.extractLsb'_eq hwFlags)
    (hvHigh.trans hwHigh.symm)

/-- A word decodes to a command exactly when it is that command's word (R121, R123). -/
theorem decodeWord_eq_command_iff_eq_encode {w : Word} {i : Instr} : decodeWord w = .command i ↔ w = encode i := by
  constructor
  · exact fun h => eq_of_decodeWord_eq h (decodeWord_encode i)
  · rintro rfl
    exact decodeWord_encode i

/-! ### Bytes -/

/-- The lanes of a word put together are the word (R88). -/
theorem wordOfBytes_lanes (w : Word) :
    wordOfBytes (w.extractLsb' 0 8) (w.extractLsb' 8 8) (w.extractLsb' 16 8) (w.extractLsb' 24 8) = w := by
  unfold wordOfBytes
  rw [BitVec.extractLsb'_append_extractLsb'_eq_extractLsb' (by rfl),
    BitVec.extractLsb'_append_extractLsb'_eq_extractLsb' (by rfl),
    BitVec.extractLsb'_append_extractLsb'_eq_extractLsb' (by rfl)]
  exact BitVec.extractLsb'_eq_self

/-- Four bytes are the lanes of the word they make (R88). -/
theorem wordBytes_wordOfBytes (a b c d : Byte) : wordBytes (wordOfBytes a b c d) = [a, b, c, d] := by
  have h0 : (wordOfBytes a b c d).extractLsb' 0 8 = a := BitVec.extractLsb'_append_eq_right
  have h1 : (wordOfBytes a b c d).extractLsb' 8 8 = b := by
    unfold wordOfBytes
    rw [BitVec.extractLsb'_append_eq_of_le (by decide), BitVec.extractLsb'_append_eq_right]
  have h2 : (wordOfBytes a b c d).extractLsb' 16 8 = c := by
    unfold wordOfBytes
    rw [BitVec.extractLsb'_append_eq_of_le (by decide), BitVec.extractLsb'_append_eq_of_le (by decide),
      BitVec.extractLsb'_append_eq_right]
  have h3 : (wordOfBytes a b c d).extractLsb' 24 8 = d := by
    unfold wordOfBytes
    rw [BitVec.extractLsb'_append_eq_of_le (by decide), BitVec.extractLsb'_append_eq_of_le (by decide),
      BitVec.extractLsb'_append_eq_left]
  rw [wordBytes, h0, h1, h2, h3]

/-- The lanes of a word decode as the word (R88). -/
theorem decodeBytes_wordBytes (w : Word) : decodeBytes (wordBytes w) = decodeWord w := by
  rw [wordBytes, decodeBytes, wordOfBytes_lanes]

/-- Settles O2: the word half is `decodeWord_eq_command_iff_eq_encode`; only four bytes decode, and they do as the word whose
lanes they are. -/
theorem decodeInvertsEncode : Obligations.DecodeInvertsEncode := by
  refine ⟨fun w i => decodeWord_eq_command_iff_eq_encode, fun bs i => ⟨fun h => ?_, ?_⟩⟩
  · unfold decodeBytes at h
    split at h
    · rw [← decodeWord_eq_command_iff_eq_encode.mp h, wordBytes_wordOfBytes]
    · cases h
  · rintro rfl
    rw [decodeBytes_wordBytes, decodeWord_encode]

/-! ### The opcode table -/

/-- The mask of every row but PROCESS's keeps the whole word. -/
theorem and_fullMask (w : Word) : w &&& 0xFFFFFFFF = w := BitVec.and_allOnes

/-- The mask of PROCESS's row keeps every bit but w[9:8] (R120, R121). -/
theorem decodeWord_eq_process_iff {w : Word} :
    (∃ g d, decodeWord w = .command (.process g d)) ↔ w &&& 0xFFFFFCFF = 0x00000002 := by
  constructor
  · rintro ⟨g, d, h⟩
    rw [decodeWord_eq_command_iff_eq_encode.mp h]
    cases g <;> cases d <;> decide
  · intro h
    have field (lo n : Nat) : w.extractLsb' lo n &&& (0xFFFFFCFF : Word).extractLsb' lo n = (2 : Word).extractLsb' lo n := by
      rw [← BitVec.extractLsb'_and, h]
    have hop : w.extractLsb' 0 4 = 2 := (BitVec.and_allOnes (x := w.extractLsb' 0 4)).symm.trans (field 0 4)
    have hmid : w.extractLsb' 4 4 = 0 := (BitVec.and_allOnes (x := w.extractLsb' 4 4)).symm.trans (field 4 4)
    have hhigh : w.extractLsb' 10 22 = 0 := (BitVec.and_allOnes (x := w.extractLsb' 10 22)).symm.trans (field 10 22)
    exact ⟨_, _, decodeWord_eq_command_iff.mpr ⟨hhigh, hmid, hop, rfl, rfl⟩⟩

/-- Settles O4: with the full mask a row asks for the command's word itself. -/
theorem decodeFollowsTheOpcodeTable : Obligations.DecodeFollowsTheOpcodeTable := by
  intro w
  rw [and_fullMask]
  exact ⟨decodeWord_eq_command_iff_eq_encode, decodeWord_eq_command_iff_eq_encode, decodeWord_eq_process_iff,
    decodeWord_eq_command_iff_eq_encode, decodeWord_eq_command_iff_eq_encode⟩

/-- Settles O1: each word is the word of its command. -/
theorem writtenOutWordsDecode : Obligations.WrittenOutWordsDecode :=
  ⟨decodeWord_encode .nop, decodeWord_encode .clear, decodeWord_encode (.process true false),
    decodeWord_encode (.process false true), decodeWord_encode .encode, decodeWord_encode .submit⟩

end Sys2Proof
end

section
/-!
PROOFS. Fields of a word that is put together from parts, stated so that simp finds them in a word of numeral width, and
what the registers and the words of the memories read (10_state.md section 2, R122 to R127).
-/

namespace Sys2Proof.Machine

/-! ### Fields -/

@[simp] theorem extractLsb'_append_high {v w start len : Nat} {x : BitVec v} {y : BitVec w} (h : w ≤ start) :
    BitVec.extractLsb' start len (@HAppend.hAppend _ _ (no_index (BitVec (v + w))) _ x y) =
      x.extractLsb' (start - w) len :=
  BitVec.extractLsb'_append_eq_of_le h

@[simp] theorem extractLsb'_append_low {v w start len : Nat} {x : BitVec v} {y : BitVec w} (h : start + len ≤ w) :
    BitVec.extractLsb' start len (@HAppend.hAppend _ _ (no_index (BitVec (v + w))) _ x y) = y.extractLsb' start len :=
  BitVec.extractLsb'_append_eq_of_add_le h

@[simp] theorem getLsbD_append_high {v w i : Nat} {x : BitVec v} {y : BitVec w} (h : w ≤ i) :
    BitVec.getLsbD (@HAppend.hAppend _ _ (no_index (BitVec (v + w))) _ x y) i = x.getLsbD (i - w) := by
  rw [BitVec.getLsbD_append, if_neg (Nat.not_lt.mpr h)]

@[simp] theorem getLsbD_append_low {v w i : Nat} {x : BitVec v} {y : BitVec w} (h : i < w) :
    BitVec.getLsbD (@HAppend.hAppend _ _ (no_index (BitVec (v + w))) _ x y) i = y.getLsbD i := by
  rw [BitVec.getLsbD_append, if_pos h]

/-- A number that fits a field is what the field holds. -/
theorem toNat_ofNat_of_le {n m : Nat} (k : Nat) (h : n ≤ m) (hm : m < 2 ^ k) : (BitVec.ofNat k n).toNat = n := by
  rw [BitVec.toNat_ofNat, Nat.mod_eq_of_lt (Nat.lt_of_le_of_lt h hm)]

/-- Zeros above a field leave its value. -/
theorem toNat_zero_append {v w : Nat} (x : BitVec w) : (0#v ++ x).toNat = x.toNat := by
  rw [BitVec.toNat_append, BitVec.toNat_zero, Nat.zero_shiftLeft, Nat.zero_or]

/-- The four event bits in a register's word (R41 to R43). -/
theorem eventWord_fields (m : EventMask) :
    (0#28 ++ m : Word).extractLsb' 0 4 = m ∧ (0#28 ++ m : Word).extractLsb' 4 28 = 0 := by
  constructor <;> simp

/-! ### The registers -/

/-- CFG0 (R32). -/
theorem readReg_cfg0_fields (s : State) :
    (readReg s .cfg0).extractLsb' 0 4 = BitVec.ofNat 4 s.cfg.strips ∧ (readReg s .cfg0).getLsbD 4 = s.cfg.bottomUp ∧
      (readReg s .cfg0).extractLsb' 5 3 = 0 ∧ (readReg s .cfg0).extractLsb' 8 8 = BitVec.ofNat 8 s.cfg.matrixW ∧
      (readReg s .cfg0).extractLsb' 16 8 = BitVec.ofNat 8 s.cfg.matrixH ∧
      (readReg s .cfg0).extractLsb' 24 8 = BitVec.ofNat 8 s.cfg.matricesPerStrip := by
  simp [readReg, -BitVec.getLsbD_eq_getElem]

/-- The two halves of CFG1, CFG2 and TCFG1 (R33, R34, R37). -/
theorem halfWord_fields (hi lo : BitVec 16) :
    (hi ++ lo : Word).extractLsb' 0 16 = lo ∧ (hi ++ lo : Word).extractLsb' 16 16 = hi := by
  constructor <;> simp

/-- TC and TR are at most WIDTH and HEIGHT (R7). -/
theorem tileGrid_le {c : Config} (h : c.wellFormed = true) : c.tileCols ≤ 65535 ∧ c.tileRows ≤ 65535 := by
  obtain ⟨-, ⟨hW, -⟩, ⟨hH, -⟩, -, -, -, ⟨hWidth, hHeight, -⟩, -⟩ := bounds_of_wellFormed h
  exact ⟨(Nat.le_mul_of_pos_right _ hW).trans hWidth, (Nat.le_mul_of_pos_right _ hH).trans hHeight⟩

/-- Settles O39: the bounds of R7 are what makes each field wide enough. -/
theorem configurationRegistersReport : Obligations.ConfigurationRegistersReport := by
  intro s hc
  obtain ⟨⟨-, hS⟩, ⟨-, hW⟩, ⟨-, hH⟩, ⟨-, hM⟩, hL, -, ⟨hWidth, hHeight, -⟩, ⟨-, h0, h1, hB⟩, ⟨-, hR⟩, -⟩ :=
    bounds_of_wellFormed hc
  obtain ⟨hTC, hTR⟩ := tileGrid_le hc
  obtain ⟨rS, rUp, rZero, rW, rH, rM⟩ := readReg_cfg0_fields s
  obtain ⟨rTC, rTR⟩ := halfWord_fields (BitVec.ofNat 16 s.cfg.tileRows) (BitVec.ofNat 16 s.cfg.tileCols)
  obtain ⟨rWidth, rHeight⟩ := halfWord_fields (BitVec.ofNat 16 s.cfg.height) (BitVec.ofNat 16 s.cfg.width)
  obtain ⟨rT0, rT1⟩ := halfWord_fields (BitVec.ofNat 16 s.cfg.t1h) (BitVec.ofNat 16 s.cfg.t0h)
  have fits {n : Nat} (h : n ≤ 65535) : (BitVec.ofNat 16 n).toNat = n := toNat_ofNat_of_le 16 h (by decide)
  refine ⟨?_, rUp, rZero, ?_, ?_, ?_, ?_, ?_, ?_, ?_, ?_, ?_, ?_, ?_, toNat_ofNat_of_le 32 hR (by decide)⟩
  · rw [rS, toNat_ofNat_of_le 4 hS (by decide)]
  · rw [rW, toNat_ofNat_of_le 8 hW (by decide)]
  · rw [rH, toNat_ofNat_of_le 8 hH (by decide)]
  · rw [rM, toNat_ofNat_of_le 8 hM (by decide)]
  · rw [readReg, rTC, fits hTC]
  · rw [readReg, rTR, fits hTR]
  · rw [readReg, rWidth, fits hWidth]
  · rw [readReg, rHeight, fits hHeight]
  · exact (toNat_zero_append (v := 16) _).trans (fits (by omega))
  · exact (toNat_zero_append (v := 16) _).trans (fits hB)
  · rw [readReg, rT0, fits (by omega)]
  · rw [readReg, rT1, fits (by omega)]

/-- STATUS (R40). -/
theorem statusWord_fields (s : State) :
    (statusWord s).getLsbD 0 = s.sig ∧ (statusWord s).getLsbD 1 = s.submitPending ∧ (statusWord s).getLsbD 2 = s.fill ∧
      (statusWord s).getLsbD 3 = (!s.fill) ∧ (statusWord s).extractLsb' 4 2 = s.txState.code ∧
      (statusWord s).extractLsb' 6 26 = 0 := by
  simp [statusWord, State.txBuf, -BitVec.getLsbD_eq_getElem]

/-- TX_POS holds the position while a frame is sent, and 0 otherwise (R48). -/
theorem txPosWord_eq (s : State) :
    txPosWord s = if s.txState = .transmitting then 0#11 ++ s.txBit ++ s.txLed else 0 := by
  unfold txPosWord
  cases s.txState <;> rfl

/-- TX_POS, field by field (R48). -/
theorem txPosWord_fields (s : State) :
    (txPosWord s).extractLsb' 0 16 = (if s.txState = .transmitting then s.txLed else 0) ∧
      (txPosWord s).extractLsb' 16 5 = (if s.txState = .transmitting then s.txBit else 0) ∧
      (txPosWord s).extractLsb' 21 11 = 0 := by
  rw [txPosWord_eq]
  split <;> simp

/-- Settles O40: STATUS and TX_POS by their fields, the event registers by theirs, and the rest as they are. -/
theorem statusReportsTheScheduler : Obligations.StatusReportsTheScheduler := by
  intro s
  obtain ⟨hsig, hpending, hfill, hbuf, hstate, hzero⟩ := statusWord_fields s
  obtain ⟨hled, hbit, hrest⟩ := txPosWord_fields s
  obtain ⟨hirq, hirq0⟩ := eventWord_fields s.irqStatus
  obtain ⟨henable, henable0⟩ := eventWord_fields s.irqEnable
  obtain ⟨herr, herr0⟩ := eventWord_fields s.errStatus
  refine ⟨rfl, rfl, hirq, hirq0, henable, henable0, herr, herr0, rfl, rfl, rfl, rfl, rfl, hsig, hpending, hfill, hbuf,
    ?_, hzero, hled, hbit, hrest⟩
  rw [readReg, hstate]
  cases s.txState <;> rfl

/-! ### The address map -/

/-- No two rows of the address map overlap, and only the reserved region has more than one row (R81). -/
theorem regionMap_rows :
    (∀ r ∈ regionMap, ∀ r' ∈ regionMap, r.start ≤ r'.stop → r'.start ≤ r.stop → r = r') ∧
      ∀ r ∈ regionMap, ∀ r' ∈ regionMap, r.region = r'.region → r.region ≠ .reserved → r = r' := by
  decide

/-- An offset in a row of the address map is looked up in that row (R81). -/
theorem locate_of_row {c : Config} {off : Nat} {row : RegionRow} (hrow : row ∈ regionMap) (hstart : row.start ≤ off)
    (hstop : off ≤ row.stop) :
    locate c off =
      if (off - row.start) / 4 < validEntries c row.region then entryOf ((off - row.start) / 4) row.region else none := by
  have hsome : (regionMap.find? fun r => decide (r.start ≤ off) && decide (off ≤ r.stop)).isSome :=
    List.find?_isSome.mpr ⟨row, hrow, by simp [hstart, hstop]⟩
  obtain ⟨found, hfound⟩ := Option.isSome_iff_exists.mp hsome
  have hin := List.find?_some hfound
  simp only [Bool.and_eq_true, decide_eq_true_eq] at hin
  have hsame : found = row :=
    regionMap_rows.1 found (List.mem_of_find?_eq_some hfound) row hrow (hin.1.trans hstop) (hstart.trans hin.2)
  rw [locate, hfound, hsame]

/-- An offset holds an entry of a region exactly when it is in the region's row and the entry is the one of its index (R81). -/
theorem locate_eq_some_iff {c : Config} {off : Nat} {row : RegionRow} {e : Entry} (hrow : row ∈ regionMap)
    (hregion : row.region = e.region) :
    locate c off = some e ↔
      row.start ≤ off ∧ off ≤ row.stop ∧ (off - row.start) / 4 < validEntries c row.region ∧
        entryOf ((off - row.start) / 4) row.region = some e := by
  constructor
  · intro h
    obtain ⟨row', hrow', hregion', hstart, hstop, -⟩ := row_of_locate h
    have hmapped : row.region ≠ .reserved := by
      rw [hregion]
      cases e with
      | plane b j => cases b <;> exact fun h => nomatch h
      | _ => exact fun h => nomatch h
    cases regionMap_rows.2 row hrow row' hrow' (hregion.trans hregion'.symm) hmapped
    rw [locate_of_row hrow hstart hstop] at h
    exact ⟨hstart, hstop, Option.ite_none_right_eq_some.mp h⟩
  · rintro ⟨hstart, hstop, hvalid, hentry⟩
    rw [locate_of_row hrow hstart hstop, if_pos hvalid, hentry]

/-- The regions whose entries are numbered: entry p stands at the words of index p (R81). -/
theorem locate_eq_numbered_iff {c : Config} {off p : Nat} {row : RegionRow} {entry : Nat → Entry} (hrow : row ∈ regionMap)
    (hregion : row.region = (entry p).region) (hentry : ∀ j, entryOf j row.region = some (entry j))
    (hinj : Function.Injective entry) :
    locate c off = some (entry p) ↔
      row.start ≤ off ∧ off ≤ row.stop ∧ p = (off - row.start) / 4 ∧ p < validEntries c row.region := by
  rw [locate_eq_some_iff hrow hregion, hentry, Option.some.injEq, hinj.eq_iff]
  constructor
  · rintro ⟨hstart, hstop, hvalid, rfl⟩
    exact ⟨hstart, hstop, rfl, hvalid⟩
  · rintro ⟨hstart, hstop, rfl, hvalid⟩
    exact ⟨hstart, hstop, hvalid, rfl⟩

/-- The 20 registers are at four times their place in the register map (10_state.md section 2). -/
theorem locate_eq_reg_iff {c : Config} {off : Nat} {r : Reg} :
    locate c off = some (.reg r) ↔ (off / 4 * 4, r) ∈ regMap.zipIdx.map fun (r, j) => (4 * j, r) := by
  have hplace : (off / 4 * 4, r) ∈ (regMap.zipIdx.map fun (r, j) => (4 * j, r)) ↔ regMap[off / 4]? = some r := by
    rw [List.mem_map]
    constructor
    · rintro ⟨⟨r', j⟩, hmem, heq⟩
      obtain ⟨hj, rfl⟩ := Prod.mk.inj heq
      obtain rfl : j = off / 4 := by omega
      exact List.mk_mem_zipIdx_iff_getElem?.mp hmem
    · intro h
      exact ⟨(r, off / 4), List.mk_mem_zipIdx_iff_getElem?.mpr h, Prod.ext (Nat.mul_comm _ _) rfl⟩
  rw [hplace]
  constructor
  · exact fun h => (offset_of_locate_reg h).2
  · intro h
    have hlt : off / 4 < 20 := List.getElem?_eq_some_iff.mp h |>.1
    rw [locate_register c (by omega), h]
    rfl

/-- Settles O34: every region but the registers is numbered from its start. -/
theorem addressMapPlacesEveryWord : Obligations.AddressMapPlacesEveryWord := by
  intro c off
  refine ⟨fun p => ?pix, fun p => ?dither, fun j => ?plane0, fun j => ?plane1, fun j => ?gamma, fun j => ?tile,
    fun r => locate_eq_reg_iff⟩
  case pix =>
    exact locate_eq_numbered_iff (row := ⟨0x40000, 0x7FFFF, .pix⟩) (entry := .pix) (by decide) rfl (fun _ => rfl)
      fun _ _ h => Entry.pix.inj h
  case dither =>
    exact locate_eq_numbered_iff (row := ⟨0x80000, 0xBFFFF, .dither⟩) (entry := .dither) (by decide) rfl (fun _ => rfl)
      fun _ _ h => Entry.dither.inj h
  case plane0 =>
    exact locate_eq_numbered_iff (row := ⟨0x100000, 0x13FFFF, .bp0⟩) (entry := .plane false) (by decide) rfl
      (fun _ => rfl) fun _ _ h => (Entry.plane.inj h).2
  case plane1 =>
    exact locate_eq_numbered_iff (row := ⟨0x140000, 0x17FFFF, .bp1⟩) (entry := .plane true) (by decide) rfl
      (fun _ => rfl) fun _ _ h => (Entry.plane.inj h).2
  case gamma =>
    rw [locate_eq_numbered_iff (row := ⟨0x400, 0x7FF, .gamma⟩) (entry := .gamma) (by decide) rfl (fun _ => rfl)
      fun _ _ h => Entry.gamma.inj h]
    -- the row is as long as the table
    have hvalid : validEntries c .gamma = 256 := rfl
    simp only [hvalid]
    omega
  case tile =>
    exact locate_eq_numbered_iff (row := ⟨0x800, 0x27FF, .tileMap⟩) (entry := .tile) (by decide) rfl (fun _ => rfl)
      fun _ _ h => Entry.tile.inj h

/-! ### The words of the memories -/

/-- PixelWord (R122). -/
theorem pixelWord_fields (s : State) (p : Nat) :
    (pixelWord s p).extractLsb' 24 8 = 0 ∧ (pixelWord s p).extractLsb' 16 8 = pixel s p .r ∧
      (pixelWord s p).extractLsb' 8 8 = pixel s p .g ∧ (pixelWord s p).extractLsb' 0 8 = pixel s p .b := by
  simp [pixelWord]

/-- DitherWord (R124). -/
theorem ditherWord_fields (s : State) (p : Nat) :
    (ditherWord s p).extractLsb' 27 5 = 0 ∧ (ditherWord s p).getLsbD 26 = errBit s p .r ∧
      (ditherWord s p).getLsbD 25 = errBit s p .g ∧ (ditherWord s p).getLsbD 24 = errBit s p .b ∧
      (ditherWord s p).extractLsb' 16 8 = quantized s p .r ∧ (ditherWord s p).extractLsb' 8 8 = quantized s p .g ∧
      (ditherWord s p).extractLsb' 0 8 = quantized s p .b := by
  simp [ditherWord, -BitVec.getLsbD_eq_getElem]

/-- The entry of TILE_ORDER, where there is one (R8). -/
theorem tileAt_of_getElem? {c : Config} {t : Nat} {slot : TileSlot} (h : c.tileOrder[t]? = some slot) :
    c.tileAt t = slot := by
  rw [Config.tileAt, List.getD_eq_getElem?_getD, h, Option.getD_some]

/-- A placement fits the fields of TileWord and of MAP_OUT (R7, R8). -/
theorem tileSlot_le {c : Config} (hc : c.wellFormed = true) {t : Nat} {slot : TileSlot} (h : c.tileOrder[t]? = some slot) :
    slot.strip ≤ 7 ∧ slot.m ≤ 254 := by
  obtain ⟨-, hinside, -⟩ := tileOrder_conditions hc
  obtain ⟨hstrip, hm⟩ := hinside slot (List.mem_of_getElem? h)
  obtain ⟨⟨-, hS⟩, -, -, ⟨-, hM⟩, -⟩ := bounds_of_wellFormed hc
  omega

/-- TileWord (R125). -/
theorem tileWord_fields {c : Config} (hc : c.wellFormed = true) {t : Nat} {slot : TileSlot}
    (h : c.tileOrder[t]? = some slot) :
    (tileWord c t).extractLsb' 19 13 = 0 ∧ ((tileWord c t).extractLsb' 16 3).toNat = slot.strip ∧
      ((tileWord c t).extractLsb' 0 16).toNat = slot.m := by
  obtain ⟨hstrip, hm⟩ := tileSlot_le hc h
  have fields : (tileWord c t).extractLsb' 19 13 = 0 ∧
      (tileWord c t).extractLsb' 16 3 = BitVec.ofNat 3 (c.tileAt t).strip ∧
      (tileWord c t).extractLsb' 0 16 = BitVec.ofNat 16 (c.tileAt t).m := by simp [tileWord]
  obtain ⟨hzero, rstrip, rm⟩ := fields
  rw [rstrip, rm, tileAt_of_getElem? h, toNat_ofNat_of_le 3 hstrip (by decide), toNat_ofNat_of_le 16 hm (by decide)]
  exact ⟨hzero, rfl, rfl⟩

/-- Lane i of PlaneWord (R127). -/
theorem planeWord_lane (s : State) (b : Bool) (j : Nat) {i : Nat} (hi : i < 4) :
    (planeWord s b j).extractLsb' (8 * i) 8 = planeByteAt s b (j / 6) (4 * (j % 6) + i) := by
  obtain rfl | rfl | rfl | rfl : i = 0 ∨ i = 1 ∨ i = 2 ∨ i = 3 := by omega
  all_goals simp [planeWord]

/-- Plane 4 × (j mod 6) + i of LED j div 6 is byte 4j + i of the buffer (R127). -/
theorem planeByteAt_lane (s : State) (b : Bool) (j i : Nat) :
    planeByteAt s b (j / 6) (4 * (j % 6) + i) = Memory.read (if b then s.bp1 else s.bp0) (4 * j + i) := by
  have hkey : planeKey (j / 6) (4 * (j % 6) + i) = 4 * j + i := by unfold planeKey; omega
  rw [planeByteAt, hkey, State.bp]

/-- A gamma entry in a word (R85). -/
theorem readEntry_gamma {s : State} {j : Nat} {g : Byte} (h : s.cfg.gt[j]? = some g) :
    (readEntry s (.gamma j)).toNat = g.toNat := by
  have hg := g.isLt
  rw [readEntry, Config.gtAt, List.getD_eq_getElem?_getD, h, Option.getD_some, BitVec.toNat_setWidth]
  omega

/-- MemRead of a mapped word (R85). -/
theorem memRead_of_locate {off : BitVec 21} {s : State} {e : Entry} (h : locate s.cfg off.toNat = some e) :
    memRead off s = { s with readData := some (readEntry s e) } := by
  rw [memRead, h]

/-- MemRead of an unmapped word (R85). -/
theorem memRead_of_unmapped {off : BitVec 21} {s : State} (h : locate s.cfg off.toNat = none) :
    memRead off s = badAccess false off s := by
  rw [memRead, h]

/-- Settles O35: the two outcomes of MemRead, and the fields of each word. -/
theorem readsHaveNoSideEffect : Obligations.ReadsHaveNoSideEffect := by
  intro off s
  refine ⟨fun e h => memRead_of_locate h, fun h => ?unmapped, pixelWord_fields s, ditherWord_fields s,
    fun j slot hc h => tileWord_fields hc h, fun j g h => readEntry_gamma h,
    fun b j i hi => ⟨planeWord_lane s b j hi, planeByteAt_lane s b j i⟩⟩
  case unmapped =>
    rw [memRead_of_unmapped h, badAccess_eq]
    rfl

/-- A pixel stored from a word reads back as the word's low 24 bits (R86, R122). -/
theorem pixelWord_setPixel {s : State} (h : Memory.wf s.pix = true) (p : Nat) (v : Word) :
    pixelWord (setPixel p v s) p = v &&& 0x00FFFFFF := by
  obtain ⟨hred, hgreen, hblue⟩ := pixel_setPixel h p v
  rw [pixelWord, hred, hgreen, hblue, ← wordOfBytes_lanes (v &&& 0x00FFFFFF)]
  have hkeep (x : Byte) : x &&& 255#8 = x := BitVec.and_allOnes
  simp [BitVec.extractLsb'_and, wordOfBytes, hkeep]

/-- Settles O37: the offset is a word of its pixel, so the write stores that pixel and the read gives it. -/
theorem pixelWriteReadsBack : Obligations.PixelWriteReadsBack := by
  intro off v s hwf hstart hstop hvalid
  obtain ⟨hpix, -⟩ := addressMapPlacesEveryWord s.cfg off.toNat
  have hlocate := (hpix _).mpr ⟨hstart, hstop, rfl, hvalid⟩
  generalize (off.toNat - 0x40000) / 4 = p at *
  have hword : readEntry (setPixel p v s) (.pix p) = v &&& 0x00FFFFFF := pixelWord_setPixel hwf p v
  have hread := memRead_of_locate (s := setPixel p v s) hlocate
  rw [hword] at hread
  exact ⟨(setPixel p v s).pix, by rw [memWrite, hlocate]; rfl, hread, fun a ha => read_setPixel_pix_of_ne hwf ha v⟩

/-! ### The reset state -/

/-- Every word of the memories reads 0 when the memories are empty (R53 to R56). -/
theorem readEntry_resetOf (c : Config) (p : Nat) (b : Bool) :
    readEntry (State.resetOf c) (.pix p) = 0 ∧ readEntry (State.resetOf c) (.dither p) = 0 ∧
      readEntry (State.resetOf c) (.plane b p) = 0 := by
  have hbp : (State.resetOf c).bp b = [] := by cases b <;> rfl
  have hpix (ch : Channel) : pixel (State.resetOf c) p ch = 0 := rfl
  have hqv (ch : Channel) : quantized (State.resetOf c) p ch = 0 := rfl
  have herr (ch : Channel) : errBit (State.resetOf c) p ch = false := by simp [errBit, State.resetOf]
  simp [readEntry, pixelWord, ditherWord, planeWord, planeByteAt, hpix, hqv, herr, hbp]

/-- Settles O47: every register and memory a read depends on is 0 after reset, but SIG. -/
theorem resetStateReadsAsStated : Obligations.ResetStateReadsAsStated := by
  intro c
  have hstatus : readReg (State.resetOf c) .status = 0x00000009 := by
    simp [readReg, statusWord, State.resetOf, State.txBuf, TxState.code]
  refine ⟨hstatus, rfl, ?_, fun p => ?_, fun b j => ?_, irq_of_irqStatus_eq_zero rfl⟩
  · simp [readReg, txPosWord, State.resetOf]
  · obtain ⟨hpix, hdither, -⟩ := readEntry_resetOf c p false
    exact ⟨hpix, hdither⟩
  · obtain ⟨-, -, hplane⟩ := readEntry_resetOf c j b
    exact hplane

end Sys2Proof.Machine
end

section
/-!
PROOFS. The layout mapper: Map and Unmap in digits, that they undo each other (R190 to R194), and the lookup (R195).
-/

namespace Sys2Proof.Machine

/-! ### Map and Unmap in digits -/

/-- Map of a pixel given by its tile's column and row and its place in the tile (R190). -/
theorem mapPixel_digits (c : Config) {tc lx tr ly : Nat} (hx : lx < c.matrixW) (hy : ly < c.matrixH) :
    mapPixel c (tc * c.matrixW + lx) (tr * c.matrixH + ly) =
      { strip := (c.tileAt (tr * c.tileCols + tc)).strip
        led := (c.tileAt (tr * c.tileCols + tc)).m * (c.matrixW * c.matrixH) +
          (flipRow c ly * c.matrixW + flipCol c (flipRow c ly) lx) } := by
  simp only [mapPixel, div_of_digits hx, mod_of_digits hx, div_of_digits hy, mod_of_digits hy, Nat.add_assoc]

/-- A place in a tile is one of its W × H LEDs (R6). -/
theorem tile_digits_lt {c : Config} {pr pc : Nat} (hpr : pr < c.matrixH) (hpc : pc < c.matrixW) :
    pr * c.matrixW + pc < c.matrixW * c.matrixH := by
  rw [Nat.mul_comm c.matrixW]
  exact lt_of_digits hpr hpc

/-- Unmap of an LED given by its tile on the strip and its physical row and column in the tile (R193). -/
theorem unmapLed_digits (c : Config) (strip m : Nat) {pr pc : Nat} (hpr : pr < c.matrixH) (hpc : pc < c.matrixW) :
    unmapLed c strip (m * (c.matrixW * c.matrixH) + (pr * c.matrixW + pc)) =
      { x := tileOf c strip m % c.tileCols * c.matrixW + flipCol c pr pc
        y := tileOf c strip m / c.tileCols * c.matrixH + flipRow c pr } := by
  have htile := tile_digits_lt hpr hpc
  simp only [unmapLed, div_of_digits htile, mod_of_digits htile, div_of_digits hpc, mod_of_digits hpc]

/-! ### Map and Unmap undo each other -/

/-- The tile of a pixel is one of the TC × TR tiles (R8, R190). -/
theorem tile_lt_numTiles {c : Config} {tc tr : Nat} (htc : tc < c.tileCols) (htr : tr < c.tileRows) :
    tr * c.tileCols + tc < c.numTiles := by
  rw [Config.numTiles, Nat.mul_comm c.tileCols]
  exact lt_of_digits htr htc

/-- Map of a pixel is an LED there is, and Unmap takes it back (R194). -/
theorem unmapLed_mapPixel {c : Config} (hc : c.wellFormed = true) {x y : Nat} (hx : x < c.width) (hy : y < c.height) :
    (mapPixel c x y).strip < c.strips ∧ (mapPixel c x y).led < c.leds ∧
      unmapLed c (mapPixel c x y).strip (mapPixel c x y).led = { x := x, y := y } := by
  obtain ⟨-, ⟨hW, -⟩, ⟨hH, -⟩, -⟩ := bounds_of_wellFormed hc
  have hlx : x % c.matrixW < c.matrixW := Nat.mod_lt x hW
  have hly : y % c.matrixH < c.matrixH := Nat.mod_lt y hH
  have htc : x / c.matrixW < c.tileCols := (Nat.div_lt_iff_lt_mul hW).mpr hx
  have htr : y / c.matrixH < c.tileRows := (Nat.div_lt_iff_lt_mul hH).mpr hy
  obtain ⟨hstrip, hm, htile⟩ := tileOf_tileAt hc (tile_lt_numTiles htc htr)
  have hpr := flipRow_lt hly
  have hpc := flipCol_lt (pr := flipRow c (y % c.matrixH)) hlx
  have hmap := mapPixel_digits c (tc := x / c.matrixW) (tr := y / c.matrixH) hlx hly
  rw [Nat.div_add_mod', Nat.div_add_mod'] at hmap
  rw [hmap]
  refine ⟨hstrip, ?_, ?_⟩
  · rw [leds_eq]
    exact lt_of_digits hm (tile_digits_lt hpr hpc)
  · rw [unmapLed_digits c _ _ hpr hpc, htile, mod_of_digits htc, div_of_digits htc, flipCol_flipCol hlx,
      flipRow_flipRow hly, Nat.div_add_mod', Nat.div_add_mod']

/-- Unmap of an LED is a pixel there is, and Map takes it back (R194). -/
theorem mapPixel_unmapLed {c : Config} (hc : c.wellFormed = true) {strip led : Nat} (hstrip : strip < c.strips)
    (hled : led < c.leds) :
    (unmapLed c strip led).x < c.width ∧ (unmapLed c strip led).y < c.height ∧
      mapPixel c (unmapLed c strip led).x (unmapLed c strip led).y = { strip := strip, led := led } := by
  obtain ⟨-, ⟨hW, -⟩, ⟨hH, -⟩, -, -, ⟨hTC, -⟩, -⟩ := bounds_of_wellFormed hc
  have hsize : 0 < c.matrixW * c.matrixH := Nat.mul_pos hW hH
  obtain ⟨m, r, hr, rfl⟩ : ∃ m r, r < c.matrixW * c.matrixH ∧ m * (c.matrixW * c.matrixH) + r = led :=
    ⟨_, _, Nat.mod_lt led hsize, Nat.div_add_mod' led _⟩
  obtain ⟨pr, pc, hpc, rfl⟩ : ∃ pr pc, pc < c.matrixW ∧ pr * c.matrixW + pc = r :=
    ⟨_, _, Nat.mod_lt r hW, Nat.div_add_mod' r _⟩
  have hpr : pr < c.matrixH := by
    rw [← div_of_digits (a := pr) hpc]
    exact Nat.div_lt_of_lt_mul hr
  have hm : m < c.matricesPerStrip := by
    rw [← div_of_digits (a := m) hr]
    rw [leds_eq, Nat.mul_comm c.matricesPerStrip] at hled
    exact Nat.div_lt_of_lt_mul hled
  obtain ⟨ht, hslot⟩ := tileAt_tileOf hc hstrip hm
  have hcol : tileOf c strip m % c.tileCols < c.tileCols := Nat.mod_lt _ hTC
  have hrow : tileOf c strip m / c.tileCols < c.tileRows := Nat.div_lt_of_lt_mul ht
  have hlx := flipCol_lt (pr := pr) hpc
  have hly := flipRow_lt hpr
  rw [unmapLed_digits c strip m hpr hpc]
  refine ⟨lt_of_digits hcol hlx, lt_of_digits hrow hly, ?_⟩
  rw [mapPixel_digits c hlx hly, Nat.div_add_mod', hslot, flipRow_flipRow hpr, flipCol_flipCol hpc]

/-- Settles O18: Map and Unmap take a number apart into the same digits. -/
theorem layoutIsABijection : Obligations.LayoutIsABijection := fun _ hc =>
  ⟨fun _ _ hx hy => unmapLed_mapPixel hc hx hy, fun _ _ hstrip hled => mapPixel_unmapLed hc hstrip hled⟩

/-! ### The lookup -/

/-- MAP_OUT of a coordinate inside the pixel buffer (R50, R195). -/
theorem mapOut_fields {c : Config} {mapIn : Word} (hc : c.wellFormed = true)
    (hx : (mapIn.extractLsb' 0 16).toNat < c.width) (hy : (mapIn.extractLsb' 16 16).toNat < c.height) :
    let p := mapPixel c (mapIn.extractLsb' 0 16).toNat (mapIn.extractLsb' 16 16).toNat
    (mapOut c mapIn).getLsbD 31 = true ∧ (mapOut c mapIn).extractLsb' 19 12 = 0 ∧
      ((mapOut c mapIn).extractLsb' 16 3).toNat = p.strip ∧ ((mapOut c mapIn).extractLsb' 0 16).toNat = p.led := by
  intro p
  obtain ⟨hstrip, hled, -⟩ := unmapLed_mapPixel hc hx hy
  obtain ⟨⟨-, hS⟩, -, -, -, hL, -⟩ := bounds_of_wellFormed hc
  have hword : mapOut c mapIn = 1#1 ++ 0#12 ++ BitVec.ofNat 3 p.strip ++ BitVec.ofNat 16 p.led := if_pos ⟨hx, hy⟩
  have fields : (mapOut c mapIn).getLsbD 31 = true ∧ (mapOut c mapIn).extractLsb' 19 12 = 0 ∧
      (mapOut c mapIn).extractLsb' 16 3 = BitVec.ofNat 3 p.strip ∧
      (mapOut c mapIn).extractLsb' 0 16 = BitVec.ofNat 16 p.led := by
    simp [hword, -BitVec.getLsbD_eq_getElem]
  obtain ⟨hvalid, hzero, rstrip, rled⟩ := fields
  refine ⟨hvalid, hzero, ?_, ?_⟩
  · rw [rstrip, toNat_ofNat_of_le 3 (Nat.le_of_lt_succ (Nat.lt_of_lt_of_le hstrip hS)) (by decide)]
  · rw [rled, toNat_ofNat_of_le 16 (Nat.le_of_lt (Nat.lt_of_lt_of_le hled hL)) (by decide)]

/-- Map with the entry of TILE_ORDER given (R190). -/
theorem mapPixel_of_slot {c : Config} {x y : Nat} {slot : TileSlot}
    (h : c.tileOrder[y / c.matrixH * c.tileCols + x / c.matrixW]? = some slot) :
    mapPixel c x y =
      { strip := slot.strip
        led := slot.m * (c.matrixW * c.matrixH) + flipRow c (y % c.matrixH) * c.matrixW +
          flipCol c (flipRow c (y % c.matrixH)) (x % c.matrixW) } := by
  rw [mapPixel, tileAt_of_getElem? h]

/-- Settles O19: the tile's placement is an entry of TILE_ORDER, Map is its definition with that entry, and the fields of
MAP_OUT hold what Map gives. -/
theorem mapOutLooksUpTheLayout : Obligations.MapOutLooksUpTheLayout := by
  intro s hc
  refine ⟨fun ⟨hx, hy⟩ => ?_, fun houtside => if_neg houtside⟩
  obtain ⟨-, ⟨hW, -⟩, ⟨hH, -⟩, -⟩ := bounds_of_wellFormed hc
  obtain ⟨hlength, -⟩ := tileOrder_conditions hc
  have htile := tile_lt_numTiles ((Nat.div_lt_iff_lt_mul hW).mpr hx) ((Nat.div_lt_iff_lt_mul hH).mpr hy)
  obtain ⟨slot, hslot⟩ : ∃ slot, s.cfg.tileOrder[_]? = some slot :=
    ⟨_, List.getElem?_eq_getElem (hlength.symm ▸ htile)⟩
  obtain ⟨hvalid, hzero, hstrip, hled⟩ := mapOut_fields hc hx hy
  have hmap := mapPixel_of_slot hslot
  rw [hmap] at hstrip hled
  exact ⟨slot, hslot, hmap, hvalid, hzero, hstrip, hled⟩

end Sys2Proof.Machine
end

section
/-!
PROOFS. The bit-plane encoder: the bytes are below 2^S (R214), and the shift-and-accumulate formulation writes what the
reference one writes (R213).
-/

namespace Sys2Proof.Machine

/-- Settles O21: the byte is put together from S bits. -/
theorem planeBytesStayBelowTwoToS : Obligations.PlaneBytesStayBelowTwoToS := fun _ _ _ => toNat_bitsUpTo_lt _ _

/-! ### Loops that update the entries of a range -/

/-- The memory after every entry of b .. b + n − 1 has been replaced by f of its index in the range and its value. -/
def updateRange (b n : Nat) (f : Nat → Byte → Byte) (m : Memory) : Memory :=
  loop n (fun k m => Memory.write m (b + k) (f k (Memory.read m (b + k)))) m

theorem updateRange_wf {m : Memory} (h : Memory.wf m = true) (b n : Nat) (f : Nat → Byte → Byte) :
    Memory.wf (updateRange b n f m) = true :=
  loop_keeps (P := fun m => Memory.wf m = true) h fun _ _ _ hm => Memory.wf_write hm _ _

theorem read_updateRange {m : Memory} (h : Memory.wf m = true) (b n : Nat) (f : Nat → Byte → Byte) (a : Nat) :
    Memory.read (updateRange b n f m) a =
      if b ≤ a ∧ a < b + n then f (a - b) (Memory.read m a) else Memory.read m a := by
  induction n with
  | zero => exact (if_neg (by omega)).symm
  | succ n ih =>
    have hstep : updateRange b (n + 1) f m =
        Memory.write (updateRange b n f m) (b + n) (f n (Memory.read (updateRange b n f m) (b + n))) := rfl
    rw [hstep, Memory.read_write (updateRange_wf h b n f)]
    by_cases ha : a = b + n
    case pos =>
      subst ha
      rw [ih, if_pos rfl, if_neg (by omega), if_pos (by omega), Nat.add_sub_cancel_left]
    case neg =>
      have hrange : (b ≤ a ∧ a < b + (n + 1)) ↔ (b ≤ a ∧ a < b + n) := by omega
      simp only [if_neg ha, ih, hrange]

/-- Rounds of updates of one range: each entry goes through its own rounds. -/
theorem read_loop_updateRange {m : Memory} (h : Memory.wf m = true) (b n r : Nat) (f : Nat → Nat → Byte → Byte) :
    Memory.wf (loop r (fun y => updateRange b n (f y)) m) = true ∧
      ∀ a, Memory.read (loop r (fun y => updateRange b n (f y)) m) a =
        if b ≤ a ∧ a < b + n then loop r (fun y => f y (a - b)) (Memory.read m a) else Memory.read m a := by
  induction r with
  | zero => exact ⟨h, fun a => (ite_self _).symm⟩
  | succ r ih =>
    obtain ⟨hwf, hread⟩ := ih
    refine ⟨updateRange_wf hwf b n (f r), fun a => ?_⟩
    rw [loop_succ, read_updateRange hwf, hread]
    split <;> rfl

/-- Two loops whose rounds agree where P holds, which the rounds keep, end alike. -/
theorem loop_congr_of_keeps {α : Type} {P : α → Prop} {n : Nat} {f g : Nat → α → α} {a : α} (h0 : P a)
    (hkeeps : ∀ i b, P b → P (f i b)) (h : ∀ i b, P b → f i b = g i b) : loop n f a = loop n g a := by
  induction n with
  | zero => rfl
  | succ n ih =>
    have hP : P (loop n f a) := loop_keeps h0 fun i _ => hkeeps i
    rw [loop_succ, loop_succ, h n _ hP, ih]

/-! ### The two formulations -/

/-- Bit 23 − k of a strip's 24-bit word is the bit that plane k takes of the strip: its green, red and blue follow one
another from bit 23 down (R126, R213). -/
theorem stripWord_getLsbD (s : State) (led y : Nat) {k : Nat} (hk : k < 24) :
    (stripWord s y led).getLsbD (23 - k) = planeBit s led k y := by
  unfold stripWord planeBit
  obtain h | h | h : k / 8 = 0 ∨ k / 8 = 1 ∨ k / 8 = 2 := by omega
  · rw [h, getLsbD_append_high (by omega), getLsbD_append_high (by omega)]
    congr 1
    omega
  · rw [h, getLsbD_append_high (by omega), getLsbD_append_low (by omega)]
    congr 1
    omega
  · rw [h, getLsbD_append_low (by omega)]
    congr 1
    omega

/-- The term that R213 ORs in is bit y, where the plane takes a 1 of the strip. -/
theorem planeTerm_eq (s : State) (led y : Nat) {k : Nat} (hk : k < 24) :
    planeTerm s led k y = if planeBit s led k y then 1#8 <<< y else 0#8 := by
  have hbit : (stripWord s y led >>> (23 - k)).getLsbD 0 = planeBit s led k y := by
    rw [BitVec.getLsbD_ushiftRight, Nat.add_zero, stripWord_getLsbD s led y hk]
  rw [planeTerm, BitVec.and_one_eq_setWidth_ofBool_getLsbD, hbit]
  cases planeBit s led k y <;> simp

/-- The terms of all strips, ORed into 0, are the plane byte (R212, R213). -/
theorem loop_planeTerm (s : State) (led : Nat) {k : Nat} (hk : k < 24) :
    loop s.cfg.strips (fun y x => x ||| planeTerm s led k y) 0#8 = planeByte s led k := by
  refine loop_congr (fun y _ => ?_) 0#8
  funext x
  rw [planeTerm_eq s led y hk]
  cases planeBit s led k y <;> simp

/-- One LED of the reference encoder: its 24 bytes are replaced by the plane bytes (R210). -/
theorem encodeLed_eq (s : State) (led : Nat) (m : Memory) :
    loop 24 (fun k m => Memory.write m (planeKey led k) (planeByte s led k)) m =
      updateRange (24 * led) 24 (fun k _ => planeByte s led k) m := rfl

/-- One LED of `EncodeFast`: its 24 bytes are replaced by 0, and then every strip's terms are ORed in (R213). -/
theorem encodeFastLed_eq (s : State) (led : Nat) (m : Memory) :
    encodeFastLed s led m =
      loop s.cfg.strips (fun y => updateRange (24 * led) 24 fun k x => x ||| planeTerm s led k y)
        (updateRange (24 * led) 24 (fun _ _ => 0#8) m) := rfl

/-- The two formulations agree on every LED (R213). -/
theorem encodeFastLed_eq_encodeLed {m : Memory} (h : Memory.wf m = true) (s : State) (led : Nat) :
    encodeFastLed s led m = loop 24 (fun k m => Memory.write m (planeKey led k) (planeByte s led k)) m := by
  rw [encodeFastLed_eq, encodeLed_eq]
  have hcleared := updateRange_wf h (24 * led) 24 fun _ _ => 0#8
  obtain ⟨hwf, hread⟩ := read_loop_updateRange hcleared (24 * led) 24 s.cfg.strips fun y k x => x ||| planeTerm s led k y
  refine Memory.eq_of_read hwf (updateRange_wf h _ _ _) fun a => ?_
  rw [hread, read_updateRange h, read_updateRange h]
  by_cases ha : 24 * led ≤ a ∧ a < 24 * led + 24
  · simp only [if_pos ha, loop_planeTerm s led (show a - 24 * led < 24 by omega)]
  · simp only [if_neg ha]

/-- Settles O20: LED by LED, the canonical form being kept on the way. -/
theorem encoderFormulationsAgree : Obligations.EncoderFormulationsAgree := by
  intro s h
  refine loop_congr_of_keeps (P := fun m => Memory.wf m = true) h (fun led m hm => ?_)
    fun led m hm => encodeFastLed_eq_encodeLed hm s led
  rw [encodeFastLed_eq_encodeLed hm, encodeLed_eq]
  exact updateRange_wf hm _ _ _

end Sys2Proof.Machine
end

section
/-!
PROOFS. The commands: what CLEAR and PROCESS leave (R130, R156), the two outcomes of SUBMIT (R231), and what a command
does not write (R154).
-/

namespace Sys2Proof.Machine

/-! ### NOP and SUBMIT -/

/-- Settles O5: NOP is a skip. -/
theorem nopChangesNothing : Obligations.NopChangesNothing := fun _ => rfl

/-- Settles O11: with nothing pending SUBMIT is decided by SIG. -/
theorem submitAcceptsOrWaits : Obligations.SubmitAcceptsOrWaits := by
  intro s hp
  rw [exec_submit_of_not_pending (by simp [hp])]
  exact ⟨fun hsig => congrArg _ (if_pos hsig), fun hsig => congrArg _ (if_neg (by simp [hsig]))⟩

/-! ### CLEAR and PROCESS -/

/-- CLEAR writes 0 to every entry of the pixels, then the host stalls (R156, R153). -/
theorem exec_clear (s : State) :
    exec .clear s =
      .next (beginStall { s with pix := loop (3 * s.cfg.numPix) (fun a m => Memory.write m a 0#8) s.pix }) := by
  rw [← clear_eq_loop]
  rfl

/-- Settles O6: the loop leaves 0 at the entries of the pixels and no other entry changed. -/
theorem clearBlackensEveryPixel : Obligations.ClearBlackensEveryPixel := by
  intro s hwf
  refine ⟨_, exec_clear s, fun p hp c => ?black, fun a ha => ?beyond, by simp, by simp, by simp, by simp,
    .beginStall ?frame⟩
  case black =>
    rw [pixel_beginStall, pixel, read_loop_write hwf, if_pos (chanKey_lt hp c)]
    rfl
  case beyond => rw [beginStall_pix, read_loop_write hwf, if_neg (Nat.not_lt.mpr ha)]
  case frame => exact .refl s

/-- Writing back what an entry reads changes nothing. -/
theorem Memory.write_read_self {m : Memory} (h : Memory.wf m = true) (a : Nat) :
    Memory.write m a (Memory.read m a) = m := by
  refine Memory.eq_of_read (Memory.wf_write h _ _) h fun b => ?_
  rw [Memory.read_write h]
  split
  · rename_i hb
    rw [hb]
  · rfl

/-- Without flags PROCESS writes every entry back as it reads (R130, R171). -/
theorem processed_withoutFlags {s : State} (h : Memory.wf s.pix = true) :
    processed false false s = { pix := s.pix, errs := s.errs, qv := s.qv } :=
  loop_keeps (P := fun m => m = ({ pix := s.pix, errs := s.errs, qv := s.qv } : ColorMem)) rfl fun a _ m hm => by
    subst hm
    simp [processEntry, Memory.write_read_self h]

/-- Settles O8: every entry is written back, so the three memories PROCESS works on are the old ones. -/
theorem processWithoutFlagsChangesNothing : Obligations.ProcessWithoutFlagsChangesNothing := by
  intro s hwf
  refine ⟨_, exec_process false false s, ?_, .beginStall (.refl s)⟩
  simp [SameMemories, processed_withoutFlags hwf]

/-! ### What a command does not write -/

/-- A command that is not SUBMIT and not rejected writes the memories and the stall only (R154). -/
theorem exec_sameButMemories {i : Instr} {s t : State} (hsubmit : i ≠ .submit)
    (hexecuted : ¬(i = .encode ∧ s.submitPending = true)) (h : exec i s = .next t) : SameButMemories s t := by
  cases i with
  | nop => cases h; exact .refl s
  | submit => exact absurd rfl hsubmit
  | clear => cases h; exact .beginStall (.refl s)
  | process g d => cases h; exact .beginStall (.refl s)
  | encode =>
    rw [exec_encode_of_not_pending fun hp => hexecuted ⟨rfl, hp⟩] at h
    cases h
    exact (SameButMemories.setBp s _ _).beginStall

/-- Settles O13: a rejected ENCODE only raises ERROR, and every other command is within `SameButMemories`. -/
theorem onlySubmitWritesTheScheduler : Obligations.OnlySubmitWritesTheScheduler := by
  intro i s t hsubmit h
  by_cases hrejected : i = .encode ∧ s.submitPending = true
  case pos =>
    obtain ⟨rfl, hp⟩ := hrejected
    rw [exec_encode_of_pending hp] at h
    cases h
    refine ⟨⟨rfl, rfl, rfl, rfl, rfl, rfl, rfl, rfl, rfl⟩, fun b hb => ?_, ?_⟩
    · have hother : IrqBit.error.mask.getLsbD b = false := by interval_cases b <;> rfl
      rw [raiseError_irqSet, BitVec.getLsbD_or, hother, Bool.or_false]
    · exact iff_of_true (by simp [IrqBit.mask]) (.inr ⟨rfl, hp⟩)
  case neg =>
    obtain ⟨hscheduler, -, ⟨-, -, hset, -⟩, -, -⟩ := exec_sameButMemories hsubmit hrejected h
    exact ⟨hscheduler, fun b _ => by rw [hset], by rw [hset, or_iff_left hrejected]⟩

/-- A byte of the memory windows depends on the memory of its own window only (R81, R88). -/
theorem windowByte_congr {s t : State} {off : Nat} (hoff : 0x40000 ≤ off) (hcfg : t.cfg = s.cfg)
    (hpix : off ≤ 0x7FFFF → t.pix = s.pix)
    (hdither : 0x80000 ≤ off → off ≤ 0xBFFFF → t.errs = s.errs ∧ t.qv = s.qv)
    (hbp0 : 0x100000 ≤ off → off ≤ 0x13FFFF → t.bp0 = s.bp0)
    (hbp1 : 0x140000 ≤ off → off ≤ 0x17FFFF → t.bp1 = s.bp1) : windowByte t off = windowByte s off := by
  obtain h | ⟨hstop, p, h⟩ | ⟨hstart, hstop, p, h⟩ | ⟨hstart, hstop, j, h⟩ | ⟨hstart, hstop, j, h⟩ :=
    locate_memory s.cfg hoff <;> rw [windowByte, windowByte, hcfg, h]
  · simp only [readEntry, pixelWord, pixel, hpix hstop]
  · obtain ⟨herrs, hqv⟩ := hdither hstart hstop
    simp only [readEntry, ditherWord, errBit, quantized, herrs, hqv]
  · simp only [readEntry, planeWord, planeByteAt, bp_false, hbp0 hstart hstop]
  · simp only [readEntry, planeWord, planeByteAt, bp_true, hbp1 hstart hstop]

/-- SUBMIT writes no memory, whatever becomes of it (R231 to R233). -/
theorem exec_submit_keeps_memories {s t : State} (h : exec .submit s = .next t) : SameMemories s t ∧ t.cfg = s.cfg := by
  by_cases hp : s.submitPending = true
  · rw [exec_submit_of_pending hp] at h
    cases h
    exact ⟨⟨rfl, rfl, rfl, rfl, rfl⟩, rfl⟩
  · rw [exec_submit_of_not_pending hp] at h
    cases h
    split <;> exact ⟨⟨rfl, rfl, rfl, rfl, rfl⟩, rfl⟩

/-- Settles O14: window by window, by what the command leaves alone. -/
theorem commandsKeepEveryOtherByte : Obligations.CommandsKeepEveryOtherByte := by
  intro i s t h off hoff hstores
  cases i with
  | nop => cases h; rfl
  | submit =>
    obtain ⟨⟨hpix, herrs, hqv, hbp0, hbp1⟩, hcfg⟩ := exec_submit_keeps_memories h
    exact windowByte_congr hoff hcfg (fun _ => hpix) (fun _ _ => ⟨herrs, hqv⟩) (fun _ _ => hbp0) fun _ _ => hbp1
  | clear =>
    cases h
    have hout : ¬off ≤ 0x7FFFF := by simpa [storesTo, hoff] using hstores
    exact windowByte_congr hoff (by simp) (fun hin => absurd hin hout) (fun _ _ => by simp) (fun _ _ => by simp)
      fun _ _ => by simp
  | process g d =>
    rw [exec_process] at h
    cases h
    simp only [storesTo, Bool.or_eq_false_iff] at hstores
    obtain ⟨hpixels, hdither⟩ := hstores
    have hout : ¬off ≤ 0x7FFFF := by simpa [hoff] using hpixels
    refine windowByte_congr hoff (by simp) (fun hin => absurd hin hout) (fun hstart hstop => ?_) (fun _ _ => by simp)
      fun _ _ => by simp
    have hd : d = false := by simpa [hstart, hstop] using hdither
    subst hd
    simpa using processed_noDither g s
  | encode =>
    by_cases hp : s.submitPending = true
    case pos =>
      rw [exec_encode_of_pending hp] at h
      cases h
      exact windowByte_congr hoff rfl (fun _ => rfl) (fun _ _ => ⟨rfl, rfl⟩) (fun _ _ => rfl) fun _ _ => rfl
    case neg =>
      rw [exec_encode_of_not_pending hp] at h
      cases h
      simp only [storesTo, hp, Bool.not_false, Bool.true_and] at hstores
      refine windowByte_congr hoff (by simp) (fun _ => by simp) (fun _ _ => by simp) (fun hstart hstop => ?_)
        fun hstart hstop => ?_
      · have hfill : s.fill = true := by
          by_contra hf
          simp [hf, hstart, hstop] at hstores
        simp [State.setBp, hfill]
      · have hfill : s.fill = false := by
          by_contra hf
          simp [hf, hstart, hstop] at hstores
        simp [State.setBp, hfill]

/-! ### The command stall -/

/-- The beginning of a stall takes the next draw, or the free value (R153). -/
theorem beginStall_draw (s : State) :
    (∀ d ds, s.cmdDraws = d :: ds →
        (beginStall s).stall = d ∧ (beginStall s).cmdDraws = ds ∧ (beginStall s).drawCount = s.drawCount) ∧
      (s.cmdDraws = [] → (beginStall s).stall = Config.freeCmdTicks s.drawCount ∧ (beginStall s).cmdDraws = [] ∧
        (beginStall s).drawCount = s.drawCount + 1) := by
  constructor
  · intro d ds h
    simp [beginStall, h]
  · intro h
    simp [beginStall, h]

/-- The commands that begin no stall: NOP, SUBMIT and a rejected ENCODE (R90, R153). -/
theorem exec_keepsStall {i : Instr} {s : State} (h : i = .nop ∨ i = .submit ∨ (i = .encode ∧ s.submitPending = true)) :
    ∃ t, exec i s = .next t ∧ SameStall s t := by
  obtain rfl | rfl | ⟨rfl, hp⟩ := h
  · exact ⟨s, rfl, rfl, rfl, rfl⟩
  · by_cases hp : s.submitPending = true
    · exact ⟨_, exec_submit_of_pending hp, rfl, rfl, rfl⟩
    · refine ⟨_, exec_submit_of_not_pending hp, ?_⟩
      split <;> exact ⟨rfl, rfl, rfl⟩
  · exact ⟨_, exec_encode_of_pending hp, rfl, rfl, rfl⟩

/-- Every other command ends by beginning a stall, and has left the draws as they were till then (R90, R153). -/
theorem exec_beginsStall {i : Instr} {s : State}
    (h : ¬(i = .nop ∨ i = .submit ∨ (i = .encode ∧ s.submitPending = true))) :
    ∃ u, exec i s = .next (beginStall u) ∧ SameStall s u := by
  cases i with
  | nop => exact absurd (.inl rfl) h
  | submit => exact absurd (.inr (.inl rfl)) h
  | clear => exact ⟨_, exec_clear s, rfl, rfl, rfl⟩
  | process g d => exact ⟨_, exec_process g d s, rfl, rfl, rfl⟩
  | encode =>
    have hp : ¬s.submitPending = true := fun hp => h (.inr (.inr ⟨rfl, hp⟩))
    exact ⟨_, exec_encode_of_not_pending hp, by simp [SameStall]⟩

end Sys2Proof.Machine
end

section
/-!
PROOFS. The gamma table (R170) and the dither step over several frames (R172, R176, R177).
-/

namespace Sys2Proof.Machine

/-! ### The gamma table -/

/-- A list whose entries are each at most the next is sorted. -/
theorem pairwise_of_risingBytes {l : List Byte} (h : Config.risingBytes l = true) : l.Pairwise (· ≤ ·) := by
  rw [← List.isChain_iff_pairwise]
  induction l with
  | nil => exact .nil
  | cons a l ih =>
    cases l with
    | nil => exact .singleton a
    | cons b l =>
      obtain ⟨hle, hrest⟩ : a ≤ b ∧ Config.risingBytes (b :: l) = true := by
        simpa [Config.risingBytes] using h
      exact .cons_cons hle (ih hrest)

/-- Settles O17: the three properties are among the checks of `Config.gammaOk`, the last of them between neighbours only. -/
theorem gammaTableIsMonotone : Obligations.GammaTableIsMonotone := by
  intro c hc
  have hgamma : c.gammaOk = true := by
    simp only [Config.wellFormed, Bool.and_eq_true] at hc
    exact hc.1.2
  simp only [Config.gammaOk, Bool.and_eq_true, beq_iff_eq, decide_eq_true_eq] at hgamma
  obtain ⟨⟨⟨⟨-, hlength⟩, hfirst⟩, hlast⟩, hrising⟩ := hgamma
  refine ⟨hfirst, hlast, fun i j hij hj => ?_⟩
  obtain rfl | hlt := Nat.eq_or_lt_of_le hij
  · exact BitVec.le_refl _
  · have hsorted := List.pairwise_iff_getElem.mp (pairwise_of_risingBytes hrising) i j (by omega) (by omega) hlt
    simpa [Config.gtAt, show i < c.gt.length by omega, show j < c.gt.length by omega] using hsorted

/-! ### The dither step -/

/-- Settles O15: the output is twice the half of v + e, but for the saturation at 255. -/
theorem ditherStepBounds : Obligations.DitherStepBounds := by
  intro v e
  have hv := v.isLt
  have hmax : v = 255 ↔ v.toNat = 255 := BitVec.toNat_inj.symm
  simp only [ditherStep_q_toNat, ditherStep_out_toNat, hmax]
  cases e
  · simp only [Bool.toNat_false, Bool.false_eq_true, and_false, if_false, and_true]
    split <;> omega
  · simp only [Bool.toNat_true, and_true, Bool.true_eq_false, and_false, if_false]
    split
    · omega
    · split <;> omega

/-- An even value is output as it is, and keeps the pending error (R172). -/
theorem ditherStep_even {v : Byte} (h : v.toNat % 2 = 0) (e : Bool) :
    (ditherStep v e).out = v ∧ (ditherStep v e).err = e := by
  have hv := v.isLt
  have hout := ditherStep_out_toNat v e
  have herr := ditherStep_err_toNat v e
  have he := e.toNat_le
  have hkeep : (ditherStep v e).err.toNat = e.toNat := by omega
  refine ⟨BitVec.eq_of_toNat_eq (by omega), ?_⟩
  cases e
  · exact Bool.toNat_eq_zero.mp hkeep
  · exact Bool.toNat_eq_one.mp hkeep

/-- An odd value flips the pending error; without one its predecessor is output, with one its successor, or 255 (R172,
R173). -/
theorem ditherStep_odd {v : Byte} (h : v.toNat % 2 = 1) (e : Bool) :
    (ditherStep v e).out.toNat = (if e then min (v.toNat + 1) 255 else v.toNat - 1) ∧ (ditherStep v e).err = !e := by
  have hv := v.isLt
  have hout := ditherStep_out_toNat v e
  have herr := ditherStep_err_toNat v e
  cases e
  · simp only [Bool.toNat_false, Nat.add_zero] at hout herr
    exact ⟨by rw [hout, if_neg (by decide)]; omega, Bool.toNat_eq_one.mp (by omega)⟩
  · simp only [Bool.toNat_true] at hout herr
    exact ⟨by rw [hout, if_pos rfl]; omega, Bool.toNat_eq_zero.mp (by omega)⟩

/-- An even value is output in every frame (R177). -/
theorem ditherRun_even {v : Byte} (h : v.toNat % 2 = 0) (e : Bool) (n : Nat) : ditherRun v e n = v := by
  induction n generalizing e with
  | zero => exact (ditherStep_even h e).1
  | succ n ih => exact ih _

theorem decide_succ_odd (n : Nat) : decide ((n + 1) % 2 = 1) = !decide (n % 2 = 1) := by
  rw [← decide_not]
  exact decide_eq_decide.mpr (by omega)

/-- In frame n of an odd value the pending error is e, flipped n times (R172). -/
theorem ditherRun_odd {v : Byte} (h : v.toNat % 2 = 1) (e : Bool) (n : Nat) :
    ditherRun v e n = (ditherStep v (e ^^ decide (n % 2 = 1))).out := by
  induction n generalizing e with
  | zero => simp [ditherRun]
  | succ n ih => rw [ditherRun, (ditherStep_odd h e).2, ih, decide_succ_odd, Bool.not_xor, Bool.xor_not]

/-- Two frames of an odd value follow each other with opposite pending errors (R177). -/
theorem ditherRun_odd_succ {v : Byte} (h : v.toNat % 2 = 1) (e : Bool) (n : Nat) :
    ∃ x, ditherRun v e n = (ditherStep v x).out ∧ ditherRun v e (n + 1) = (ditherStep v (!x)).out :=
  ⟨_, ditherRun_odd h e n, by rw [ditherRun_odd h e (n + 1), decide_succ_odd, Bool.xor_not]⟩

/-- Settles O16: an even value is its own output, and an odd one alternates between its neighbours, above 254 between 254
and 255. -/
theorem constantInputAlternates : Obligations.ConstantInputAlternates := by
  intro v e n
  refine ⟨fun h => ditherRun_even h e n, fun h hle => ⟨?_, (ditherStep_odd h false).1⟩, fun h => ?_⟩
  · obtain ⟨x, hn, hsucc⟩ := ditherRun_odd_succ h e n
    rw [hn, hsucc, (ditherStep_odd h x).1, (ditherStep_odd h (!x)).1]
    cases x <;> simp <;> omega
  · subst h
    obtain ⟨x, hn, hsucc⟩ := ditherRun_odd_succ (v := 255) rfl e n
    rw [hn, hsucc]
    cases x
    · exact .inl ⟨rfl, rfl⟩
    · exact .inr ⟨rfl, rfl⟩

end Sys2Proof.Machine
end

section
/-!
PROOFS. The host's side of a step: the action it performs (R84 to R86, R132, R150), the stall (R90, R153), a set that wins
over a clear (R285), the re-trigger twice (R263), and the host's list over a reset (R310).
-/

namespace Sys2Proof.Machine

/-! ### The host's action -/

/-- The state after phase 1, as the host finds it: the configuration, the stall and the host's list are those of the start
of the tick. -/
theorem host_of_transmitPhase {r : Bool} {s s1 : State} (h : transmitPhase r (beginTick s) = .next s1) :
    s1.cfg = s.cfg ∧ s1.stall = s.stall ∧ s1.host = s.host := transmitPhase_keeps_host (s := beginTick s) h

/-- A WAIT out of a stall is one read of its offset (R132). -/
theorem hostPhase_wait {s : State} {off : BitVec 21} {mask value : Word} {rest : List HostAction} (hstall : s.stall = 0)
    (hhost : s.host = hostWait off mask value :: rest) :
    hostPhase s = hostWaitStep off mask value rest s := by
  rw [hostPhase_of_no_stall hstall, hhost, hostWait]

/-- An access out of a stall (R84). -/
theorem hostPhase_access {s : State} {a : BusAccess} {rest : List HostAction} (hstall : s.stall = 0)
    (hhost : s.host = .access a :: rest) : hostPhase s = hostAccess a { s with host := rest } := by
  rw [hostPhase_of_no_stall hstall, hhost]

/-- A write of the host out of a stall is MemWrite at its offset (R86, R133). -/
theorem hostPhase_hostWrite {s : State} {off : Nat} {v : Word} {rest : List HostAction} (hc : s.ConfigOk)
    (hstall : s.stall = 0) (hhost : s.host = hostWrite s.cfg off v :: rest) (hoff : off < 0x200000) (h4 : off % 4 = 0) :
    hostPhase s = memWrite (BitVec.ofNat 21 off) v { s with host := rest } := by
  rw [hostPhase_access hstall hhost]
  exact hostAccess_writeAccess (s := { s with host := rest }) rfl hoff h4 hc

theorem issueCommand_command {w : Word} {i : Instr} (h : decodeWord w = .command i) (s : State) :
    issueCommand w s = exec i s := by rw [issueCommand, h]

theorem issueCommand_illegal {w : Word} {why : DecodeError} (h : decodeWord w = .illegal why) (s : State) :
    issueCommand w s = .next (raiseError .illegalCmd w s) := by rw [issueCommand, h]

/-- An access outside the window does nothing to the block (R82). -/
theorem hostAccess_outside {a : BusAccess} {s : State} (h : ¬(s.cfg.base ≤ a.addr ∧ a.addr ≤ s.cfg.base + 0x1FFFFF)) :
    hostAccess a s = .next s := by
  have hnone : offsetOf s.cfg a.addr = none := if_neg (by omega)
  rw [hostAccess, hnone]

/-- A read of a WAIT is a legal access exactly at the aligned offsets (R84). -/
theorem readAccess_legal_iff {c : Config} (hc : c.wellFormed = true) (off : BitVec 21) :
    (readAccess (c.base + off.toNat)).legal = true ↔ off.toNat % 4 = 0 := by
  obtain ⟨-, -, -, -, -, -, -, -, -, hbase⟩ := bounds_of_wellFormed hc
  rw [legal_iff]
  constructor
  · rintro ⟨-, -, haddr⟩
    have haddr : (c.base + off.toNat) % 4 = 0 := haddr
    omega
  · intro h
    exact ⟨rfl, rfl, show (c.base + off.toNat) % 4 = 0 by omega⟩

/-- A WAIT is done when its read gives its value under its mask (R132). -/
theorem hostWaitStep_of_read {s t : State} {off : BitVec 21} {mask value x : Word} (rest : List HostAction)
    (hread : hostAccess (readAccess (s.cfg.base + off.toNat)) s = .next t) (hx : t.readData = some x) :
    hostWaitStep off mask value rest s = .next (if x &&& mask = value then { t with host := rest } else t) := by
  have hword : t.readData.getD 0 = x := by rw [hx, Option.getD_some]
  rw [hostWaitStep, hread, andThen_next, hword]
  split <;> rfl

/-- The read of a WAIT at an aligned offset is MemRead (R85, R132). -/
theorem hostAccess_read_aligned {s : State} {off : BitVec 21} (hc : s.ConfigOk) (h4 : off.toNat % 4 = 0) :
    hostAccess (readAccess (s.cfg.base + off.toNat)) s = .next (memRead off s) := by
  rw [hostAccess_of_offset (offsetOf_base_add s.cfg off), if_pos ((readAccess_legal_iff hc off).mpr h4)]
  rfl

/-- The read of a WAIT at an unaligned offset is a bad access (R84, R132). -/
theorem hostAccess_read_unaligned {s : State} {off : BitVec 21} (hc : s.ConfigOk) (h4 : off.toNat % 4 ≠ 0) :
    hostAccess (readAccess (s.cfg.base + off.toNat)) s = .next (badAccess false off s) := by
  rw [hostAccess_of_offset (offsetOf_base_add s.cfg off), if_neg (mt (readAccess_legal_iff hc off).mp h4)]
  rfl

/-- A read of 0 satisfies a WAIT for 0 only (R132). -/
theorem zero_and_eq_iff {mask value : Word} : 0 &&& mask = value ↔ value = 0 := by
  rw [show (0 : Word) &&& mask = 0 from BitVec.zero_and, eq_comm]

/-- Settles O41: the step is phase 1, the host's phase and the end of the tick; each clause is the rule of its action. -/
theorem stepIssuesTheDecodedCommand : Obligations.StepIssuesTheDecodedCommand := by
  intro s s1 hc hr hstall h1
  obtain ⟨hcfg, hstall1, hhost1⟩ := host_of_transmitPhase h1
  have hc1 : s1.ConfigOk := by rw [State.ConfigOk, hcfg]; exact hc
  have hno : s1.stall = 0 := hstall1.trans hstall
  rw [step_of_transmitPhase hc hr h1]
  refine ⟨fun w rest hhost => ?command, fun a off rest hhost hoff => ?access, fun a rest hhost hout => ?outside,
    fun off mask value rest hhost => ?wait, fun rest hhost => ?idle, fun hhost => ?nothing⟩
  case command =>
    have hissue : hostPhase s1 = issueCommand w { s1 with host := rest } := by
      rw [hostPhase_hostWrite hc1 hno (hhost1.trans (hcfg ▸ hhost)) (by decide) (by decide)]
      exact memWrite_cmd rfl w _
    rw [hissue]
    exact ⟨fun i hi => by rw [issueCommand_command hi], fun why hw => by rw [issueCommand_illegal hw, andThen_next]; rfl⟩
  case access =>
    rw [hostPhase_access hno (hhost1.trans hhost),
      hostAccess_of_offset (s := { s1 with host := rest }) (show offsetOf s1.cfg a.addr = some off by rw [hcfg, hoff])]
    constructor
    · intro hlegal
      rw [if_pos ((legal_iff a).mpr hlegal)]
      split <;> rfl
    · intro hillegal
      rw [if_neg (mt (legal_iff a).mp hillegal), badAccess_eq, andThen_next]
  case outside =>
    rw [hostPhase_access hno (hhost1.trans hhost),
      hostAccess_outside (s := { s1 with host := rest }) (show ¬(s1.cfg.base ≤ a.addr ∧ _) by rw [hcfg]; exact hout),
      andThen_next]
  case wait =>
    rw [hostPhase_wait hno (hhost1.trans hhost)]
    constructor
    · intro h4
      obtain ⟨x, hx⟩ := memRead_readData off s1
      exact ⟨x, hx, by rw [hostWaitStep_of_read rest (hostAccess_read_aligned hc1 h4) hx, andThen_next]⟩
    · intro h4
      have hzero : (badAccess false off s1).readData = some 0 := rfl
      rw [hostWaitStep_of_read rest (hostAccess_read_unaligned hc1 h4) hzero, badAccess_eq, andThen_next,
        ← hhost1]
      simp only [zero_and_eq_iff]
      split <;> rfl
  case idle => rw [hostPhase_of_no_stall hno, hhost1.trans hhost, andThen_next]
  case nothing => rw [hostPhase_of_no_stall hno, hhost1.trans hhost, andThen_next]

/-! ### The stall -/

/-- Settles O42: a command keeps the stall or begins one; a stall in progress is shortened and nothing else is done in the
host's phase. -/
theorem stalledHostIssuesNothing : Obligations.StalledHostIssuesNothing := by
  refine ⟨fun i s => ?begins, fun s s1 hc hr hstall h1 => ?lasts⟩
  case begins =>
    by_cases hi : i = .nop ∨ i = .submit ∨ (i = .encode ∧ s.submitPending = true)
    case pos =>
      obtain ⟨t, ht, hsame⟩ := exec_keepsStall hi
      exact ⟨t, ht, by rw [if_pos hi]; exact hsame⟩
    case neg =>
      obtain ⟨u, hu, -, hdraws, hcount⟩ := exec_beginsStall hi
      refine ⟨beginStall u, hu, ?_⟩
      rw [if_neg hi, ← hdraws, ← hcount]
      exact beginStall_draw u
  case lasts =>
    obtain ⟨-, hstall1, hhost1⟩ := host_of_transmitPhase h1
    have hphase : hostPhase s1 = .next { s1 with stall := s.stall - 1 } := by
      rw [hostPhase, hstall1, if_pos hstall]
    exact ⟨by rw [step_of_transmitPhase hc hr h1, hphase, andThen_next], hhost1⟩

/-! ### Set and clear in one tick -/

/-- Settles O30: the last tick of a frame sets TX_DONE in phase 1, the host's write is the tick's clear mask, and the end of
the tick applies both. -/
theorem setWinsOverClear : Obligations.SetWinsOverClear := by
  intro s v rest hinv ht hlast hr hstall hhost
  obtain ⟨hmid, hset, -⟩ := hinv
  have hc : s.ConfigOk := hmid.1
  obtain ⟨s1, h1, hset1⟩ : ∃ s1, transmitPhase s.envNow.retrigger (beginTick s) = .next s1 ∧ s1.irqSet = 0b0001 := by
    refine ⟨_, dmaCompletionArmsTheTimer _ _ (beginTick_midInv hmid) ht hlast, ?_⟩
    show s.irqSet ||| 0b0001 = 0b0001
    rw [hset]
    rfl
  obtain ⟨hcfg1, hstall1, hhost1⟩ := host_of_transmitPhase h1
  obtain ⟨-, -, -, -, -, -, -, hstatus, -⟩ := transmitterKeepsTheRenderSide _ _ _ h1
  have hc1 : s1.ConfigOk := by rw [State.ConfigOk, hcfg1]; exact hc
  refine ⟨endTick (clearIrq v { s1 with host := rest }), ?_, ?_⟩
  · rw [step_of_transmitPhase hc hr h1,
      hostPhase_hostWrite hc1 (hstall1.trans hstall) (hhost1.trans (hcfg1 ▸ hhost)) (by decide) (by decide),
      memWrite_irqStatus rfl, andThen_next]
  · show updateEvents s1.irqStatus (v.extractLsb' 0 4) s1.irqSet = _
    rw [hset1, hstatus]
    rfl

/-! ### The re-trigger twice -/

/-- A re-trigger of a re-triggered state with low pins loads the same TIMER and sets an event that is set already (R262). -/
theorem retrigger_retrigger (s : State) :
    retrigger { retrigger { s with dout := 0 } with dout := 0 } = retrigger { s with dout := 0 } := by
  simp only [retrigger, setIrq, BitVec.or_assoc, BitVec.or_self]

/-- Settles O56. -/
theorem retriggerIsIdempotent : Obligations.RetriggerIsIdempotent := by
  intro s t u hc hwait ht hu
  have hfirst : t = retrigger { s with dout := 0 } :=
    next_unique ht (transmitPhase_resetWait hwait)
  have hstill : t.txState = .resetWait := by rw [hfirst]; exact hwait
  have hsecond : u = retrigger { t with dout := 0 } :=
    next_unique hu (transmitPhase_resetWait hstill)
  have hsame : u = t := by rw [hsecond, hfirst, retrigger_retrigger]
  refine ⟨hsame, hsame ▸ hstill, ?_⟩
  rw [hsame, hfirst]
  exact toNat_resetTicks hc

/-! ### The host over a reset -/

/-- In a tick with rst = 1 an access or an idle tick of the host is used up (R310). -/
theorem hostAfterReset_usedUp {s : State} {a : HostAction} {rest : List HostAction} (hstall : s.stall = 0)
    (hhost : s.host = a :: rest) (ha : ∀ off mask value, a ≠ .waitUntil off mask value) : hostAfterReset s = rest := by
  rw [hostAfterReset, if_neg (not_not_intro hstall), hhost]
  cases a with
  | waitUntil off mask value => exact absurd rfl (ha off mask value)
  | idle | access b => rfl

/-- In a tick with rst = 1 a WAIT reads 0, so that it goes on unless it waits for 0 (R132, R310). -/
theorem hostAfterReset_wait {s : State} {off : BitVec 21} {mask value : Word} {rest : List HostAction}
    (hstall : s.stall = 0) (hhost : s.host = hostWait off mask value :: rest) :
    hostAfterReset s = if value = 0 then rest else s.host := by
  rw [hostAfterReset, if_neg (not_not_intro hstall), hhost]
  exact if_congr zero_and_eq_iff rfl rfl

/-- Settles O60: the reset tick leaves `hostAfterReset` of the host's list. -/
theorem resetTickUsesUpTheHostsAction : Obligations.ResetTickUsesUpTheHostsAction := by
  intro s hc hr
  refine ⟨_, step_of_rst hc hr, fun hstall => if_pos hstall, fun hstall => ⟨?_, ?_, ?_⟩⟩
  · exact fun a rest hhost => hostAfterReset_usedUp (s := beginTick s) hstall hhost fun _ _ _ h => nomatch h
  · exact fun rest hhost => hostAfterReset_usedUp (s := beginTick s) hstall hhost fun _ _ _ h => nomatch h
  · exact fun off mask value rest hhost => hostAfterReset_wait (s := beginTick s) hstall hhost

end Sys2Proof.Machine
end
